-- ==== Sys2Proof/Word.lean ====
section
/-! DEFINITION. The word types of the engine: bytes of data memory, the 32-bit and 64-bit host registers, the binary64 registers of the
twiddle unit (spec/10_state.md R11, R20; spec/20_memory.md R30). -/

namespace Sys2Proof

/-- A byte of data memory (20_memory.md R30). -/
abbrev Byte := BitVec 8

/-- A 32-bit register or command word (10_state.md R11, 30_encoding.md R50). -/
abbrev Word32 := BitVec 32

/-- A 64-bit register, or the bit pattern of a binary64 value (10_state.md R17, R20). -/
abbrev Word64 := BitVec 64

/-- A lane register's container: one lane group of any lane type, at most four 32-bit lanes (10_state.md R21). -/
abbrev LaneWord := BitVec 128

end Sys2Proof
end

