-- ==== Sys2Proof/Config.lean ====
section
/-! DEFINITION. What one instance of the engine fixes (spec/00_scope.md R6, spec/10_state.md R25), and the free values: what the spec
leaves unspecified although the machine goes on. A free value has no body, so nothing can be proved of it. -/

namespace Sys2Proof

/-- The parameters of an instance (00_scope.md R6): "OPEN" points that the spec takes as arguments, with its defaults.
`holes` lists the half-open address ranges `[lo, hi)` that are NOT backed by memory (20_memory.md R37). Log entries 1 and 16. -/
structure Params where
  /-- LOG2_NMAX, 1 to 30 (D13). -/
  log2NMax : Nat
  /-- AW, the address width, 16 to 64 (D14). -/
  aw : Nat
  /-- HAS_V4: whether the V4F32 lane type exists (D40). -/
  hasV4 : Bool
  /-- FLUSH_SUBNORMALS (D8). -/
  flush : Bool
  /-- the address ranges where `Backed` is false (D15). -/
  holes : List (Nat × Nat)
  deriving DecidableEq, Repr, Inhabited

/-- The default instance, the one the spec's vectors use (92_eei_decisions.md, "Open parameters, collected"). -/
def Params.default : Params :=
  { log2NMax := 12, aw := 32, hasV4 := true, flush := false, holes := [] }

/-- The ranges 00_scope.md R6 allows: `1 <= LOG2_NMAX <= 30` and `16 <= AW <= 64`. -/
abbrev Params.ok (p : Params) : Prop :=
  1 ≤ p.log2NMax ∧ p.log2NMax ≤ 30 ∧ 16 ≤ p.aw ∧ p.aw ≤ 64

/-- `NMAX = 2^LOG2_NMAX` (00_scope.md R6). -/
def Params.nmax (p : Params) : Nat := 2 ^ p.log2NMax

/-- `Backed(a)` (20_memory.md R37): true where read/write memory exists. -/
abbrev Params.backed (p : Params) (a : Nat) : Prop :=
  ∀ h ∈ p.holes, ¬ (h.1 ≤ a ∧ a < h.2)

/-- FREE VALUE (40_lane_ops.md R76, U7): the bits from which the sign and the fraction of the `k`-th produced NaN are taken.
Log entry 4. -/
opaque Config.freeNan : Nat → Word64

/-- FREE VALUE (10_state.md R26, U11): the byte a data-memory address holds when nothing has written it. Log entry 5. -/
opaque Config.powerUp : Nat → Byte

/-- FREE VALUE (10_state.md R24, R26, U8): the bits internal register number `r` holds after the `k`-th time the internal
registers became unspecified. Log entry 7. -/
opaque Config.leftover : Nat → Nat → LaneWord

/-- FREE VALUE (70_reset_and_hazards.md R161, U12): the byte at an address of a footprint whose command reset abandoned, at the `k`-th
such event. Log entry 8. -/
opaque Config.abandoned : Nat → Nat → Byte

end Sys2Proof
end

