-- ==== Sys2Proof/Syntax.lean ====
section
/-! DEFINITION. The command set (spec/30_encoding.md R51, R52, R53): six commands, each in three lane types. The two operands n and BASE
are host registers and stand in no command word (R55). -/

namespace Sys2Proof

/-- The lane types of 30_encoding.md R53 and 40_lane_ops.md R65. -/
inductive LaneType where
  /-- one binary32 per element -/
  | f32
  /-- one binary64 per element -/
  | f64
  /-- four binary32 per element; exists only if HAS_V4 -/
  | v4f32
  deriving DecidableEq, Repr, Inhabited

/-- The commands of 30_encoding.md R51, one constructor per row of spec/opcode_table.json. -/
inductive Instr where
  /-- CFFT, in-place forward complex transform (43_cfft.md R100) -/
  | cfft (lt : LaneType)
  /-- RFFT, in-place forward real transform (44_realfft.md R115) -/
  | rfft (lt : LaneType)
  /-- IRFFT, in-place inverse of RFFT (45_inverse.md R125) -/
  | irfft (lt : LaneType)
  /-- BITREV, bit-reversal permutation (41_bitrev.md R85) -/
  | bitrev (lt : LaneType)
  /-- UNTANGLE, the untangle pass alone (44_realfft.md R116) -/
  | untangle (lt : LaneType)
  /-- INVPREP, the inverse-preparation pass alone (45_inverse.md R126) -/
  | invprep (lt : LaneType)
  deriving DecidableEq, Repr, Inhabited

/-- The lane type a command names (field LT). -/
def Instr.lt : Instr → LaneType
  | .cfft lt => lt
  | .rfft lt => lt
  | .irfft lt => lt
  | .bitrev lt => lt
  | .untangle lt => lt
  | .invprep lt => lt

end Sys2Proof
end

