-- ==== Sys2Proof/WellFormed.lean ====
section
/-! DEFINITION. Which commands an instance has (spec/30_encoding.md R53, R54): every (OP, LT) pair, but V4F32 only with HAS_V4. -/

namespace Sys2Proof

/-- Whether the instance has the lane type: F32 and F64 always, V4F32 only if HAS_V4 (30_encoding.md R53, R54). -/
def LaneType.present (p : Params) : LaneType → Bool
  | .f32 => true
  | .f64 => true
  | .v4f32 => p.hasV4

/-- A command is well formed on an instance that has its lane type. -/
def Instr.wellFormed (p : Params) (i : Instr) : Bool := i.lt.present p

end Sys2Proof
end

