-- ==== Sys2Proof/Decode.lean ====
section
/-! DEFINITION. Decoding a command word and encoding a command (spec/30_encoding.md R50, R51, R53, R54, R56; 10_state.md R29). HAS_V4 is
no matter of decoding here: a V4F32 word decodes, and CHECK raises BAD_CMD where the instance lacks the type (log entry 18). -/

namespace Sys2Proof

/-- Why a value written to CMD is no command word (30_encoding.md R54, 10_state.md R29). -/
inductive DecodeError where
  /-- a port wider than 32 bits delivered a set bit above bit 31 -/
  | wideWord
  /-- `w[31:6]` is not zero -/
  | zeroField
  /-- LT is 0b11 -/
  | reservedLt
  /-- OP is 0x0 or 0x7 to 0xF -/
  | reservedOp
  deriving DecidableEq, Repr

/-- Field OP, `w[3:0]` (30_encoding.md R50). -/
def opField (w : Word32) : BitVec 4 := w.extractLsb' 0 4

/-- Field LT, `w[5:4]`. -/
def ltField (w : Word32) : BitVec 2 := w.extractLsb' 4 2

/-- Field ZERO, `w[31:6]`. -/
def zeroField (w : Word32) : BitVec 26 := w.extractLsb' 6 26

/-- The lane types by field value (30_encoding.md R53). -/
def decodeLt (b : BitVec 2) : Option LaneType :=
  match b.toNat with
  | 0 => some .f32
  | 1 => some .f64
  | 2 => some .v4f32
  | _ => none

/-- The operations by field value (30_encoding.md R51). -/
def decodeOp (b : BitVec 4) (lt : LaneType) : Option Instr :=
  match b.toNat with
  | 1 => some (.cfft lt)
  | 2 => some (.rfft lt)
  | 3 => some (.irfft lt)
  | 4 => some (.bitrev lt)
  | 5 => some (.untangle lt)
  | 6 => some (.invprep lt)
  | _ => none

/-- Decode a 32-bit command word (30_encoding.md R54, R56). -/
def decodeWord (w : Word32) : Except DecodeError Instr :=
  if zeroField w ≠ 0 then .error .zeroField
  else match decodeLt (ltField w) with
    | none => .error .reservedLt
    | some lt => match decodeOp (opField w) lt with
      | none => .error .reservedOp
      | some i => .ok i

/-- Decode the value a host port of any width delivered to CMD (10_state.md R29). -/
def decodeCommand (v : Nat) : Except DecodeError Instr :=
  if v < 2 ^ 32 then decodeWord (BitVec.ofNat 32 v) else .error .wideWord

/-- The LT field of a lane type (30_encoding.md R53). -/
def encodeLt : LaneType → BitVec 2
  | .f32 => 0b00
  | .f64 => 0b01
  | .v4f32 => 0b10

/-- The OP field of a command (30_encoding.md R51). -/
def encodeOp : Instr → BitVec 4
  | .cfft _ => 0x1
  | .rfft _ => 0x2
  | .irfft _ => 0x3
  | .bitrev _ => 0x4
  | .untangle _ => 0x5
  | .invprep _ => 0x6

/-- The 32-bit word of a command: ZERO, LT, OP from the high bits down (30_encoding.md R50). -/
def encode (i : Instr) : Word32 := (0 : BitVec 26) ++ encodeLt i.lt ++ encodeOp i

/-- What the decoder reads from a command whose bits are `w`, `nbits` of them given by spec/opcode_table.json. -/
def decodeTableWord (nbits w : Nat) : Option Instr :=
  match decodeCommand (w % 2 ^ nbits) with
  | .ok i => some i
  | .error _ => none

end Sys2Proof
end

