-- ==== Sys2Proof/Machine/State.lean ====
section
/-! DEFINITION. The machine's state as plain data (spec/10_state.md), the host transactions it is given (spec/30_encoding.md R59), the
reasons a step can stop, and the state right after reset (10_state.md R26, 70_reset_and_hazards.md R160). -/

namespace Sys2Proof.Machine

/-- The sequencer position PHASE (10_state.md R14). -/
inductive Phase where
  | idle
  | check
  | bitrev
  | r4stage
  | r2stage
  | untangle
  | invprep
  | faulted
  deriving DecidableEq, Repr, Inhabited

/-- The index counters (10_state.md R19), each below `2^(LOG2_NMAX + 3)`. -/
structure Counters where
  i : Nat
  j : Nat
  m : Nat
  mmax : Nat
  istep : Nat
  k : Nat
  deriving DecidableEq, Repr, Inhabited

/-- The twiddle registers, binary64 (10_state.md R20). -/
structure TwiddleRegs where
  wre : Word64
  wim : Word64
  wpre : Word64
  wpim : Word64
  w2re : Word64
  w2im : Word64
  deriving DecidableEq, Repr, Inhabited

/-- The named lane registers (10_state.md R21), each wide enough for a lane group of any lane type. -/
structure LaneRegs where
  vwr : LaneWord
  vwi : LaneWord
  vw2r : LaneWord
  vw2i : LaneWord
  vh : LaneWord
  vm1 : LaneWord
  vs : LaneWord
  vs0 : LaneWord
  deriving DecidableEq, Repr, Inhabited

/-- Data memory: the bytes written so far, addresses strictly rising. A byte that is not listed was never written and holds a free
value (10_state.md R26, U11; log entry 5). -/
abbrev Memory := List Host.Cell

/-- What the outside does to the engine, one at a time and in order (30_encoding.md R59; 60_exceptions.md R150). A port value is a
natural number, the unsigned value a port of any width delivered (10_state.md R29; log entry 12). -/
inductive HostEvent where
  /-- `HostWrite(r, v)` -/
  | write (r v : Nat)
  /-- `HostRead(r)` -/
  | read (r : Nat)
  /-- the host stores a byte to its data memory, no command executing (10_state.md R10, 70_reset_and_hazards.md R162) -/
  | store (a : Nat) (b : Byte)
  /-- the platform applies reset, no command executing (70_reset_and_hazards.md R160) -/
  | reset
  /-- `HostWrite(0, v)`, and reset is applied while that command executes (70_reset_and_hazards.md R161) -/
  | resetDuring (v : Nat)
  /-- `HostWrite(0, v)`, and another agent reads or writes byte `a` while that command executes (20_memory.md R47) -/
  | writeShared (v a : Nat)
  deriving DecidableEq, Repr

/-- The state: the instance's parameters, the host registers, the sequencer and the internal registers, data memory, and the model's own
fields (`port`, `reads`, `draws`, `epoch`). -/
structure State where
  /-- the instance's parameters, which no step changes (10_state.md R25; log entry 1) -/
  params : Params
  /-- host register 1 (10_state.md R13) -/
  n : Word32
  /-- host register 2, its low AW bits (10_state.md R15; log entry 11) -/
  base : Word64
  /-- host register 3 (10_state.md R16) -/
  status : Word32
  /-- host register 4 (10_state.md R17) -/
  finfo : Word64
  /-- the sequencer position (10_state.md R14) -/
  phase : Phase
  /-- the index counters (10_state.md R19) -/
  cnt : Counters
  /-- the twiddle registers (10_state.md R20) -/
  tw : TwiddleRegs
  /-- the lane registers (10_state.md R21) -/
  vr : LaneRegs
  /-- data memory (10_state.md R23) -/
  mem : Memory
  /-- the host transactions to come, first one first (30_encoding.md R59; log entry 2) -/
  port : List HostEvent
  /-- the values the host's reads returned, oldest first (70_reset_and_hazards.md R169; log entry 3) -/
  reads : List Nat
  /-- the model's own: NaN draws offered so far (40_lane_ops.md R76; log entry 4) -/
  draws : Nat
  /-- the model's own: times the internal registers became unspecified (10_state.md R24; log entry 7) -/
  epoch : Nat
  deriving DecidableEq, Repr, Inhabited

/-- Why the machine stops. The faults of the engine (60_exceptions.md R135) are no stop: they are next states. -/
inductive Fault where
  /-- Raised by a host store (`HostEvent.store`) to an address outside `0 .. 2^AW - 1` or where `Backed` is false: no memory exists
  there (20_memory.md R30, R37). SAFE: the model stops. Log entry 9. -/
  | noMemory
  deriving DecidableEq, Repr

/-- Why a step has no meaning. -/
inductive Refusal where
  /-- Raised by an arm of `exec` that has no meaning yet; no arm does. SAFE: the model stops. -/
  | notModelled (mnemonic : String)
  /-- Raised by `HostEvent.writeShared` when another agent touches the footprint of a running command: "A model gives such a run no
  meaning (refusal, erring toward unprovable)" (20_memory.md R47, U4). SAFE: the model stops. Log entry 10. -/
  | sharedFootprint
  deriving DecidableEq, Repr

/-- The index counters at reset: unspecified by the spec, zero here (log entry 6). -/
def Counters.zero : Counters := ⟨0, 0, 0, 0, 0, 0⟩

/-- The twiddle registers at reset: unspecified by the spec, zero here (log entry 6). -/
def TwiddleRegs.zero : TwiddleRegs := ⟨0, 0, 0, 0, 0, 0⟩

/-- The lane registers at reset: unspecified by the spec, zero here (log entry 6). -/
def LaneRegs.zero : LaneRegs := ⟨0, 0, 0, 0, 0, 0, 0, 0⟩

/-- An instance right after reset (10_state.md R26): N, BASE, STATUS, FINFO zero, PHASE idle, nothing in memory written. -/
def State.resetOf (p : Params) : State :=
  { params := p, n := 0, base := 0, status := 0, finfo := 0, phase := .idle,
    cnt := Counters.zero, tw := TwiddleRegs.zero, vr := LaneRegs.zero,
    mem := [], port := [], reads := [], draws := 0, epoch := 0 }

/-- The default instance right after reset (10_state.md R26; 92_eei_decisions.md, defaults). -/
def State.reset : State := State.resetOf Params.default

end Sys2Proof.Machine
end

