-- ==== Sys2Proof/Machine/Flags.lean ====
section
/-! DEFINITION. The status register's fields and the fault causes (spec/10_state.md R16, spec/60_exceptions.md R136). The engine has no
flag or condition code (10_state.md R18): no operation of the datapath sets one. -/

namespace Sys2Proof.Machine

/-- The fault causes of 60_exceptions.md R136. -/
inductive Cause where
  | badCmd
  | badN
  | nRange
  | misaligned
  | addrRange
  | bus
  deriving DecidableEq, Repr

/-- The code of a cause (60_exceptions.md R136). -/
def causeCode : Cause → BitVec 4
  | .badCmd => 1
  | .badN => 2
  | .nRange => 3
  | .misaligned => 4
  | .addrRange => 5
  | .bus => 6

/-- STATUS after a fault entry: FAULT in bit 0, CAUSE in bits 7:4, the reserved bits zero (10_state.md R16). -/
def statusOf (c : Cause) : Word32 := (0 : BitVec 24) ++ causeCode c ++ (1 : BitVec 4)

/-- STATUS.FAULT, bit 0 (10_state.md R16). -/
def statusFault (w : Word32) : Bool := w.getLsbD 0

/-- STATUS.CAUSE, bits 7:4 (10_state.md R16). -/
def statusCause (w : Word32) : BitVec 4 := w.extractLsb' 4 4

/-- Whether the engine is FAULTED: `STATUS.FAULT = 1` (10_state.md R14, R16). -/
def faulted (s : State) : Bool := statusFault s.status

end Sys2Proof.Machine
end

