-- ==== Sys2Proof/Machine/Float.lean ====
section
/-! DEFINITION. IEEE 754 binary32 and binary64 addition, subtraction, multiplication and conversion on bit patterns
(spec/40_lane_ops.md R67 to R69, R76, R77, R80; spec/42_twiddle.md R91). A finite magnitude is a whole number of QUANTA, a quantum
being the format's least subnormal (2^-149 for binary32, 2^-1074 for binary64); sums and products are computed exactly on whole
numbers and rounded once. -/

namespace Sys2Proof.Machine

/-- A binary interchange format: its width and the width of its fraction field; one sign bit, the rest the biased exponent. -/
structure Fmt where
  width : Nat
  frac : Nat
  deriving DecidableEq, Repr

/-- binary32 (40_lane_ops.md R67). -/
abbrev binary32 : Fmt := ⟨32, 23⟩

/-- binary64 (40_lane_ops.md R68). -/
abbrev binary64 : Fmt := ⟨64, 52⟩

/-- The weight of the sign bit. -/
def signUnit (f : Fmt) : Nat := 2 ^ (f.width - 1)

/-- The magnitude pattern of infinity: exponent field all ones, fraction zero. -/
def infMag (f : Fmt) : Nat := 2 ^ (f.width - 1) - 2 ^ f.frac

/-- Minus the binary exponent of a quantum: 149 for binary32, 1074 for binary64. -/
def quantumExp (f : Fmt) : Nat := 2 ^ (f.width - f.frac - 2) - 2 + f.frac

/-- The sign bit. -/
def isNeg (f : Fmt) (x : BitVec f.width) : Bool := decide (signUnit f ≤ x.toNat)

/-- The pattern without its sign bit. -/
def magOf (f : Fmt) (x : BitVec f.width) : Nat := x.toNat % signUnit f

/-- A NaN: exponent all ones, fraction not zero. -/
def isNan (f : Fmt) (x : BitVec f.width) : Bool := decide (infMag f < magOf f x)

/-- An infinity. -/
def isInf (f : Fmt) (x : BitVec f.width) : Bool := decide (magOf f x = infMag f)

/-- A zero of either sign. -/
def isZero (f : Fmt) (x : BitVec f.width) : Bool := decide (magOf f x = 0)

/-- A subnormal: exponent field zero, fraction not zero. -/
def isSubnormal (f : Fmt) (x : BitVec f.width) : Bool := decide (0 < magOf f x ∧ magOf f x < 2 ^ f.frac)

/-- The number of quanta of a finite magnitude pattern: the fraction itself where the exponent field is zero, else
`(2^frac + fraction) * 2^(exponent - 1)` (40_lane_ops.md R67, R68). -/
def quanta (f : Fmt) (mag : Nat) : Nat :=
  if mag / 2 ^ f.frac = 0 then mag % 2 ^ f.frac
  else (2 ^ f.frac + mag % 2 ^ f.frac) * 2 ^ (mag / 2 ^ f.frac - 1)

/-- A pattern from a sign and a magnitude pattern. -/
def packMag (f : Fmt) (neg : Bool) (mag : Nat) : BitVec f.width :=
  BitVec.ofNat f.width ((if neg then signUnit f else 0) + mag)

/-- The infinity of a sign. -/
def infOf (f : Fmt) (neg : Bool) : BitVec f.width := packMag f neg (infMag f)

/-- `m / 2^sh` rounded to a whole number, to nearest, ties to even (40_lane_ops.md R69). -/
def roundShift (m sh : Nat) : Nat :=
  let q := m / 2 ^ sh
  let r := m % 2 ^ sh
  if 2 ^ sh < 2 * r ∨ (2 ^ sh = 2 * r ∧ q % 2 = 1) then q + 1 else q

/-- The magnitude pattern nearest to `m / 2^k` quanta, ties to even, infinity above the largest finite value (40_lane_ops.md R69).
`e` is how many low bits of the quanta the precision cannot hold; the pattern of `q * 2^e` quanta is `e * 2^frac + q`. -/
def roundMag (f : Fmt) (m k : Nat) : Nat :=
  let e := m.log2 - (f.frac + k)
  min (e * 2 ^ f.frac + roundShift m (k + e)) (infMag f)

/-- A quiet NaN whose sign and fraction are taken from a draw (40_lane_ops.md R76): exponent all ones, top fraction bit one. -/
def quietNan (f : Fmt) (draw : Word64) : BitVec f.width :=
  packMag f (draw.getLsbD 63) (infMag f + 2 ^ (f.frac - 1) + draw.toNat % 2 ^ (f.frac - 1))

/-- A finite value as a signed number of quanta. -/
def signedQuanta (f : Fmt) (neg : Bool) (mag : Nat) : Int :=
  if neg then -(quanta f mag : Int) else (quanta f mag : Int)

/-- The sum of two values given by sign and magnitude pattern, neither a NaN, rounded once; the rows of 40_lane_ops.md R80 for `+`.
An exact zero sum is `+0` unless both operands are negative. -/
def sumOf (f : Fmt) (draw : Word64) (na : Bool) (ma : Nat) (nb : Bool) (mb : Nat) : BitVec f.width :=
  if ma = infMag f then
    if mb = infMag f ∧ na ≠ nb then quietNan f draw else infOf f na
  else if mb = infMag f then infOf f nb
  else
    let z := signedQuanta f na ma + signedQuanta f nb mb
    if z = 0 then packMag f (na && nb) 0
    else packMag f (decide (z < 0)) (roundMag f z.natAbs 0)

/-- Addition (40_lane_ops.md R69, R76, R80). -/
def addF (f : Fmt) (draw : Word64) (a b : BitVec f.width) : BitVec f.width :=
  if isNan f a || isNan f b then quietNan f draw
  else sumOf f draw (isNeg f a) (magOf f a) (isNeg f b) (magOf f b)

/-- Subtraction: the exact difference rounded once (40_lane_ops.md R69, R73, R76, R80). -/
def subF (f : Fmt) (draw : Word64) (a b : BitVec f.width) : BitVec f.width :=
  if isNan f a || isNan f b then quietNan f draw
  else sumOf f draw (isNeg f a) (magOf f a) (!isNeg f b) (magOf f b)

/-- Multiplication (40_lane_ops.md R69, R74, R76, R80). -/
def mulF (f : Fmt) (draw : Word64) (a b : BitVec f.width) : BitVec f.width :=
  if isNan f a || isNan f b then quietNan f draw
  else if isInf f a || isInf f b then
    if isZero f a || isZero f b then quietNan f draw else infOf f (isNeg f a ^^ isNeg f b)
  else packMag f (isNeg f a ^^ isNeg f b) (roundMag f (quanta f (magOf f a) * quanta f (magOf f b)) (quantumExp f))

/-- FLUSH_SUBNORMALS on one value: a subnormal becomes the zero of its sign (40_lane_ops.md R77). -/
def flushF (f : Fmt) (on : Bool) (x : BitVec f.width) : BitVec f.width :=
  if on && isSubnormal f x then packMag f (isNeg f x) 0 else x

/-- A lane operation with FLUSH_SUBNORMALS: operands first, then the result (40_lane_ops.md R77). -/
def flushed (f : Fmt) (on : Bool) (op : Word64 → BitVec f.width → BitVec f.width → BitVec f.width)
    (draw : Word64) (a b : BitVec f.width) : BitVec f.width :=
  flushF f on (op draw (flushF f on a) (flushF f on b))

/-- A binary64 value rounded to a format of at most that precision, to nearest, ties to even, sign kept (40_lane_ops.md R75). -/
def narrowF (f : Fmt) (c : Word64) : BitVec f.width :=
  if isNan binary64 c then quietNan f (Config.freeNan 0)
  else if isInf binary64 c then infOf f (isNeg binary64 c)
  else packMag f (isNeg binary64 c)
    (roundMag f (quanta binary64 (magOf binary64 c)) (quantumExp binary64 - quantumExp f))

end Sys2Proof.Machine
end

