-- ==== Sys2Proof/Machine/Ops.lean ====
section
/-! DEFINITION. The named operations over memory and registers: bytes and little-endian accesses (spec/20_memory.md R30, R31), the host
registers (spec/10_state.md R11 to R17, R27, R29), the check sequence and the fault entry (spec/60_exceptions.md R137, R141), reset
(spec/70_reset_and_hazards.md R160), the start and end of a command (spec/10_state.md R12, R24, R28). -/

namespace Sys2Proof.Machine

/-! ## Data memory -/

/-- The byte written last at an address, if any was. -/
def memGet : Memory → Nat → Option Byte
  | [], _ => none
  | (x, y) :: t, a => if a = x then some y else memGet t a

/-- Write one byte, keeping the addresses strictly rising. -/
def memPut : Memory → Nat → Byte → Memory
  | [], a, b => [(a, b)]
  | (x, y) :: t, a, b =>
    if a < x then (a, b) :: (x, y) :: t
    else if a = x then (a, b) :: t
    else (x, y) :: memPut t a b

/-- What an address reads as: the byte written last, or the free power-up byte (10_state.md R26, U11; log entry 5). -/
def memByte (m : Memory) (a : Nat) : Byte := (memGet m a).getD (Config.powerUp a)

/-- `MemRead(a, k)`: `k` bytes from `a`, little-endian, as an unsigned integer (20_memory.md R31). -/
def memRead (m : Memory) (a : Nat) : Nat → Nat
  | 0 => 0
  | k + 1 => (memByte m a).toNat + 256 * memRead m (a + 1) k

/-- `MemWrite(a, k, v)`: the low `k` bytes of `v` at `a`, little-endian (20_memory.md R31). -/
def memWrite (m : Memory) (a : Nat) : Nat → Nat → Memory
  | 0, _ => m
  | k + 1, v => memWrite (memPut m a (BitVec.ofNat 8 v)) (a + 1) k (v / 256)

/-- The canonical form of a memory: addresses strictly rising. An unlisted address has no written byte, so no entry repeats one. -/
def memWf : Memory → Bool
  | [] => true
  | [_] => true
  | (x, _) :: (y, c) :: t => decide (x < y) && memWf ((y, c) :: t)

/-! ## Lane types as sizes -/

/-- `ESIZE(lt)`, bytes per element (00_scope.md R6, 40_lane_ops.md R65). -/
def esize : LaneType → Nat
  | .f32 => 4
  | .f64 => 8
  | .v4f32 => 16

/-- `ALIGN(lt)`, the alignment BASE must have (20_memory.md R34). -/
def align : LaneType → Nat
  | .f32 => 4
  | .f64 => 8
  | .v4f32 => 16

/-! ## Host registers -/

/-- `HostRead(r)` (10_state.md R11, R12, R27, R29): the register zero-extended; CMD and unknown numbers read 0. -/
def hostReg (s : State) (r : Nat) : Nat :=
  match r with
  | 1 => s.n.toNat
  | 2 => s.base.toNat
  | 3 => s.status.toNat
  | 4 => s.finfo.toNat
  | _ => 0

/-- Write N: the low 32 bits of the port value (10_state.md R13, R29). -/
def setN (v : Nat) (s : State) : State := { s with n := BitVec.ofNat 32 v }

/-- Write BASE: the low AW bits of the port value (10_state.md R15, R29). -/
def setBase (v : Nat) (s : State) : State := { s with base := BitVec.ofNat 64 (v % 2 ^ s.params.aw) }

/-! ## Faults -/

/-- `raise <Fault>(info)`: the fault entry of 60_exceptions.md R141. -/
def raiseFault (c : Cause) (info : Word64) (s : State) : State :=
  { s with status := statusOf c, finfo := info, phase := .faulted }

/-- The footprint test of 60_exceptions.md R137: some byte of `[lo, hi)` is not backed, that is, some hole meets the range. -/
def meetsHole (p : Params) (lo hi : Nat) : Bool :=
  p.holes.any fun h => decide (max h.1 lo < min h.2 hi)

/-- The size tests of `CHECK` (60_exceptions.md R137, R139): a legal size is a power of two and at least 2. -/
def badSize (n : Word32) : Bool := decide (n.toNat < 2) || decide (n &&& (n - 1) ≠ 0)

/-- `CHECK(w)` after decoding (60_exceptions.md R137): the first failing test decides the cause and what FINFO records; `none` means
every test passed. A word that does not decode never comes here (R54); of BAD_CMD only the test on HAS_V4 is left. -/
def checkFault (i : Instr) (s : State) : Option (Cause × Word64) :=
  if i.lt.present s.params = false then some (.badCmd, (encode i).setWidth 64)
  else if badSize s.n then some (.badN, s.n.setWidth 64)
  else if s.params.nmax < s.n.toNat then some (.nRange, s.n.setWidth 64)
  else if s.base.toNat % align i.lt ≠ 0 then some (.misaligned, s.base)
  else if 2 ^ s.params.aw < s.base.toNat + s.n.toNat * esize i.lt then some (.addrRange, s.base)
  else if meetsHole s.params s.base.toNat (s.base.toNat + s.n.toNat * esize i.lt) then some (.bus, s.base)
  else none

/-! ## Internal registers at rest -/

/-- The internal registers unspecified (10_state.md R24, R26): every one takes a free value, the counters within their
`LOG2_NMAX + 3` bits (R19). Log entry 7. -/
def forgetInternal (s : State) : State :=
  let c (r : Nat) : Nat := (Config.leftover s.epoch r).toNat % 2 ^ (s.params.log2NMax + 3)
  let t (r : Nat) : Word64 := (Config.leftover s.epoch r).setWidth 64
  let v (r : Nat) : LaneWord := Config.leftover s.epoch r
  { s with
    cnt := ⟨c 0, c 1, c 2, c 3, c 4, c 5⟩
    tw := ⟨t 6, t 7, t 8, t 9, t 10, t 11⟩
    vr := ⟨v 12, v 13, v 14, v 15, v 16, v 17, v 18, v 19⟩
    epoch := s.epoch + 1 }

/-- The reset event (70_reset_and_hazards.md R160): the host registers and PHASE take their reset values, the internal registers are
unspecified, data memory is not touched. -/
def resetEngine (s : State) : State :=
  forgetInternal { s with n := 0, base := 0, status := 0, finfo := 0, phase := .idle }

/-- Every byte of `[a, a + k)` takes a free value (70_reset_and_hazards.md R161). -/
def abandonBytes (epoch : Nat) (m : Memory) (a : Nat) : Nat → Memory
  | 0 => m
  | k + 1 => abandonBytes epoch (memPut m a (Config.abandoned epoch a)) (a + 1) k

/-! ## A command's passes -/

/-- What the passes of a command work on: data memory, the NaN draws and the sequencer position. -/
structure Work where
  mem : Memory
  draws : Nat
  phase : Phase
  deriving DecidableEq, Repr

/-- What a command fixes at its start (30_encoding.md R55): the size, the base address, FLUSH_SUBNORMALS. -/
structure Ctx where
  n : Nat
  base : Nat
  flush : Bool
  deriving DecidableEq, Repr

/-- A sequence of micro-operations. The internal registers of 10_state.md R19 to R21 are let-bound in it (R14, R21 allow it; every one
is written before it is read, R24, so none has a value from before the command). Log entry 13. -/
abbrev Eng := StateM Work

/-- `PHASE <- p` (10_state.md R14). -/
def setPhase (p : Phase) : Eng Unit := fun w => ((), { w with phase := p })

/-- The values of the loop variable of `for v = a, a+st, a+2*st, ... while v < b` (00_scope.md R8). -/
def countUp (a st b : Nat) : List Nat := List.range' a ((b - a + st - 1) / st) st

/-- A loop over given values of its variable that passes a value from one iteration to the next. -/
def forFold {β : Type} (xs : List Nat) (init : β) (body : β → Nat → Eng β) : Eng β :=
  match xs with
  | [] => pure init
  | x :: rest => do
    let b ← body init x
    forFold rest b body

/-- A loop over given values of its variable. -/
def forEach (xs : List Nat) (body : Nat → Eng Unit) : Eng Unit :=
  forFold xs () fun _ x => body x

/-- The operands a command reads at its start (30_encoding.md R55). -/
def ctxOf (s : State) : Ctx := { n := s.n.toNat, base := s.base.toNat, flush := s.params.flush }

/-- The passes' view of a state at the start of a command: PHASE is CHECK (60_exceptions.md R137). -/
def workOf (s : State) : Work := { mem := s.mem, draws := s.draws, phase := .check }

/-- The end of a command that ran its passes (10_state.md R24): memory as the passes left it, the internal registers unspecified. -/
def finish (w : Work) (s : State) : State :=
  forgetInternal { s with mem := w.mem, draws := w.draws, phase := w.phase }

/-- A command on a state (10_state.md R12, R28; 30_encoding.md R60; 60_exceptions.md R142, R143): nothing while FAULTED; a fault entry
if a check fails; else its passes and the end of the command. -/
def runCommand (i : Instr) (passes : Ctx → Eng Unit) (s : State) : State :=
  if faulted s then s
  else match checkFault i s with
    | some (c, info) => raiseFault c info s
    | none => finish (passes (ctxOf s) (workOf s)).2 s

end Sys2Proof.Machine
end

