-- ==== Sys2Proof/Machine/Operands.lean ====
section
/-! DEFINITION. The element operands of the passes and the micro-operations of the lane datapath (spec/20_memory.md R32, R33;
spec/40_lane_ops.md R65, R66, R70 to R75, R82). -/

namespace Sys2Proof.Machine

/-- The lane format of a lane type (40_lane_ops.md R65). -/
abbrev laneFmt : LaneType → Fmt
  | .f32 => binary32
  | .f64 => binary64
  | .v4f32 => binary32

/-- `L(lt)`, lanes per element (40_lane_ops.md R65). -/
def laneCount : LaneType → Nat
  | .f32 => 1
  | .f64 => 1
  | .v4f32 => 4

/-- One lane value: a bit pattern of the lane format (40_lane_ops.md R66). -/
abbrev Lane (lt : LaneType) := BitVec (laneFmt lt).width

/-- A lane group: lane 0 first (40_lane_ops.md R66). -/
abbrev LaneGroup (lt : LaneType) := List (Lane lt)

/-- `EA(k) = BASE + k*ESIZE` (20_memory.md R32). -/
def elemAddr (lt : LaneType) (base k : Nat) : Nat := base + k * esize lt

/-- The `k` lowest lanes of an element's bits: `v.lane[l] = bits[W*l + W-1 : W*l]` (40_lane_ops.md R70, 20_memory.md R33). -/
def lanesOf (lt : LaneType) : Nat → Nat → LaneGroup lt
  | 0, _ => []
  | k + 1, bits => BitVec.ofNat _ bits :: lanesOf lt k (bits / 2 ^ (laneFmt lt).width)

/-- The bits of a lane group (40_lane_ops.md R71). -/
def bitsOf (lt : LaneType) : LaneGroup lt → Nat
  | [] => 0
  | x :: rest => x.toNat + 2 ^ (laneFmt lt).width * bitsOf lt rest

/-- Element `k` of the buffer at `base` as a lane group: the value `LLOAD(k)` gives (40_lane_ops.md R70). -/
def element (lt : LaneType) (m : Memory) (base k : Nat) : LaneGroup lt :=
  lanesOf lt (laneCount lt) (memRead m (elemAddr lt base k) (esize lt))

/-- Memory after `LSTORE(k, v)` (40_lane_ops.md R71). -/
def putElement (lt : LaneType) (m : Memory) (base k : Nat) (v : LaneGroup lt) : Memory :=
  memWrite m (elemAddr lt base k) (esize lt) (bitsOf lt v)

/-- `LLOAD(k)` (40_lane_ops.md R70). -/
def lload (lt : LaneType) (c : Ctx) (k : Nat) : Eng (LaneGroup lt) :=
  fun w => (element lt w.mem c.base k, w)

/-- `LSTORE(k, v)` (40_lane_ops.md R71). -/
def lstore (lt : LaneType) (c : Ctx) (k : Nat) (v : LaneGroup lt) : Eng Unit :=
  fun w => ((), { w with mem := putElement lt w.mem c.base k v })

/-- One operation on every lane separately, lane `l` offered draw number `d + l` for a NaN (40_lane_ops.md R66, R76). -/
def laneMap {α : Type} (op : Word64 → α → α → α) : Nat → List α → List α → List α
  | d, x :: xs, y :: ys => op (Config.freeNan d) x y :: laneMap op (d + 1) xs ys
  | _, _, _ => []

/-- A lane operation of the datapath: FLUSH_SUBNORMALS applied (40_lane_ops.md R77), one draw offered to each lane. -/
def lanewise (lt : LaneType) (c : Ctx) (op : Word64 → Lane lt → Lane lt → Lane lt) (a b : LaneGroup lt) :
    Eng (LaneGroup lt) :=
  fun w => (laneMap (flushed (laneFmt lt) c.flush op) w.draws a b, { w with draws := w.draws + laneCount lt })

/-- `ladd(a, b)` (40_lane_ops.md R72). -/
def ladd (lt : LaneType) (c : Ctx) (a b : LaneGroup lt) : Eng (LaneGroup lt) := lanewise lt c (addF (laneFmt lt)) a b

/-- `lsub(a, b)` (40_lane_ops.md R73). -/
def lsub (lt : LaneType) (c : Ctx) (a b : LaneGroup lt) : Eng (LaneGroup lt) := lanewise lt c (subF (laneFmt lt)) a b

/-- `lmul(a, b)` (40_lane_ops.md R74). -/
def lmul (lt : LaneType) (c : Ctx) (a b : LaneGroup lt) : Eng (LaneGroup lt) := lanewise lt c (mulF (laneFmt lt)) a b

/-! ## Complex points: pairs of lane groups, real part first (20_memory.md R32) -/

/-- A complex point: the lane groups of its real and imaginary part. -/
abbrev Point (lt : LaneType) := LaneGroup lt × LaneGroup lt

/-- The point at elements `i`, `i + 1`. -/
def loadPoint (lt : LaneType) (c : Ctx) (i : Nat) : Eng (Point lt) := do
  let re ← lload lt c i
  let im ← lload lt c (i + 1)
  pure (re, im)

/-- `data[i] <- re ; data[i+1] <- im`. -/
def storePoint (lt : LaneType) (c : Ctx) (i : Nat) (z : Point lt) : Eng Unit := do
  lstore lt c i z.1
  lstore lt c (i + 1) z.2

/-- `p*q - r*s` between lane groups (00_scope.md R8). -/
def mulSubMul (lt : LaneType) (c : Ctx) (p q r s : LaneGroup lt) : Eng (LaneGroup lt) := do
  let x ← lmul lt c p q
  let y ← lmul lt c r s
  lsub lt c x y

/-- `p*q + r*s` between lane groups (00_scope.md R8). -/
def mulAddMul (lt : LaneType) (c : Ctx) (p q r s : LaneGroup lt) : Eng (LaneGroup lt) := do
  let x ← lmul lt c p q
  let y ← lmul lt c r s
  ladd lt c x y

/-- `w * z`: real part `w.re*z.re - w.im*z.im`, imaginary part `w.re*z.im + w.im*z.re` (43_cfft.md R103, `tr` and `ti`). -/
def mulPoint (lt : LaneType) (c : Ctx) (w z : Point lt) : Eng (Point lt) := do
  let re ← mulSubMul lt c w.1 z.1 w.2 z.2
  let im ← mulAddMul lt c w.1 z.2 w.2 z.1
  pure (re, im)

/-- `x + y`, part by part. -/
def addPoint (lt : LaneType) (c : Ctx) (x y : Point lt) : Eng (Point lt) := do
  let re ← ladd lt c x.1 y.1
  let im ← ladd lt c x.2 y.2
  pure (re, im)

/-- `x - y`, part by part. -/
def subPoint (lt : LaneType) (c : Ctx) (x y : Point lt) : Eng (Point lt) := do
  let re ← lsub lt c x.1 y.1
  let im ← lsub lt c x.2 y.2
  pure (re, im)

/-- `x - i*y`: parts exchanged, one sign folded in (43_cfft.md R105). -/
def subTurned (lt : LaneType) (c : Ctx) (x y : Point lt) : Eng (Point lt) := do
  let re ← ladd lt c x.1 y.2
  let im ← lsub lt c x.2 y.1
  pure (re, im)

/-- `x + i*y`: parts exchanged, one sign folded in (43_cfft.md R105). -/
def addTurned (lt : LaneType) (c : Ctx) (x y : Point lt) : Eng (Point lt) := do
  let re ← lsub lt c x.1 y.2
  let im ← ladd lt c x.2 y.1
  pure (re, im)

/-! ## Broadcasts and constants -/

/-- `rn_lt(v)`: a binary64 value in the lane format, the identity for F64 (40_lane_ops.md R75). -/
def roundTo (lt : LaneType) (v : Word64) : Lane lt :=
  match lt with
  | .f32 => narrowF binary32 v
  | .f64 => v
  | .v4f32 => narrowF binary32 v

/-- `bcast(v)`: the rounded value in every lane (40_lane_ops.md R75). -/
def bcast (lt : LaneType) (v : Word64) : LaneGroup lt := List.replicate (laneCount lt) (roundTo lt v)

/-- The binary64 constant 1.0. -/
def const64One : Word64 := 0x3FF0000000000000

/-- The binary64 constant 2.0 (42_twiddle.md R93). -/
def const64Two : Word64 := 0x4000000000000000

/-- The binary64 constant 0.5 (40_lane_ops.md R82). -/
def const64Half : Word64 := 0x3FE0000000000000

/-- The binary64 constant -1.0 (40_lane_ops.md R82). -/
def const64MinusOne : Word64 := 0xBFF0000000000000

/-- The binary64 constant `2^(-e)`, `e <= 1022` (40_lane_ops.md R82): biased exponent `1023 - e`, fraction zero. -/
def const64Pow (e : Nat) : Word64 := BitVec.ofNat 64 ((1023 - e) * 2 ^ 52)

end Sys2Proof.Machine
end

