-- ==== Sys2Proof/Machine/Twiddle.lean ====
section
/-! DEFINITION. The twiddle unit: the ROM of sines and the half-angle recurrence in binary64 (spec/42_twiddle.md R90 to R98). -/

namespace Sys2Proof.Machine

/-- The ROM `S[k]`, `k` = 0 to 30: the binary64 nearest `sin(pi / 2^k)` (42_twiddle.md R92). An instance holds rows 0 to LOG2_NMAX. -/
def sineRom : List Word64 :=
  [0x0000000000000000, 0x3FF0000000000000, 0x3FE6A09E667F3BCD, 0x3FD87DE2A6AEA963,
   0x3FC8F8B83C69A60B, 0x3FB917A6BC29B42C, 0x3FA91F65F10DD814, 0x3F992155F7A3667E] ++
  [0x3F8921D1FCDEC784, 0x3F7921F0FE670071, 0x3F6921F8BECCA4BA, 0x3F5921FAAEE6472E,
   0x3F4921FB2AECB360, 0x3F3921FB49EE4EA6, 0x3F2921FB51AEB57C, 0x3F1921FB539ECF31] ++
  [0x3F0921FB541AD59E, 0x3EF921FB5439D73A, 0x3EE921FB544197A1, 0x3ED921FB544387BA,
   0x3EC921FB544403C1, 0x3EB921FB544422C2, 0x3EA921FB54442A83, 0x3E9921FB54442C73] ++
  [0x3E8921FB54442CEF, 0x3E7921FB54442D0E, 0x3E6921FB54442D16, 0x3E5921FB54442D18,
   0x3E4921FB54442D18, 0x3E3921FB54442D18, 0x3E2921FB54442D18]

/-- `S[k]` (42_twiddle.md R92). -/
def sine (k : Nat) : Word64 := sineRom.getD k 0

/-- The draw the twiddle unit would use for a NaN; none arises in it (42_twiddle.md R91; log entry 14). -/
def unitDraw : Word64 := Config.freeNan 0

/-- `fadd64` (42_twiddle.md R91): never flushes. -/
def fadd64 (a b : Word64) : Word64 := addF binary64 unitDraw a b

/-- `fsub64` (42_twiddle.md R91). -/
def fsub64 (a b : Word64) : Word64 := subF binary64 unitDraw a b

/-- `fmul64` (42_twiddle.md R91). -/
def fmul64 (a b : Word64) : Word64 := mulF binary64 unitDraw a b

/-- `neg64`: the sign bit inverted (42_twiddle.md R91). -/
def neg64 (a : Word64) : Word64 := a ^^^ 0x8000000000000000

/-- The recurrence registers `WRE`, `WIM`, `WPRE`, `WPIM` of one stage (42_twiddle.md R90). -/
structure Rotor where
  wre : Word64
  wim : Word64
  wpre : Word64
  wpim : Word64
  deriving DecidableEq, Repr

/-- `TWINIT(q)` (42_twiddle.md R93). -/
def twInit (q : Nat) : Rotor :=
  { wre := const64One
    wim := 0
    wpre := fmul64 const64Two (fmul64 (sine q) (sine q))
    wpim := neg64 (sine (q - 1)) }

/-- `TWADV` (42_twiddle.md R94): both parts from the old pair. -/
def twAdv (t : Rotor) : Rotor :=
  { t with
    wre := fsub64 (fsub64 t.wre (fmul64 t.wre t.wpre)) (fmul64 t.wim t.wpim)
    wim := fadd64 (fsub64 t.wim (fmul64 t.wim t.wpre)) (fmul64 t.wre t.wpim) }

/-- `TWSQ`, `W2RE` (42_twiddle.md R95). -/
def twSqRe (t : Rotor) : Word64 := fsub64 (fmul64 t.wre t.wre) (fmul64 t.wim t.wim)

/-- `TWSQ`, `W2IM` (42_twiddle.md R95). -/
def twSqIm (t : Rotor) : Word64 := fmul64 const64Two (fmul64 t.wre t.wim)

end Sys2Proof.Machine
end

