-- ==== Sys2Proof/Machine/Bitrev.lean ====
section
/-! DEFINITION. The bit-reversal pass and the command BITREV (spec/41_bitrev.md R85, R86). -/

namespace Sys2Proof.Machine

/-- The exchange of the pairs at elements `(i, i+1)` and `(j, j+1)` (41_bitrev.md R86): four loads, then four stores. -/
def swapPairs (lt : LaneType) (c : Ctx) (i j : Nat) : Eng Unit := do
  let a ← loadPoint lt c i
  let b ← loadPoint lt c j
  storePoint lt c i b
  storePoint lt c j a

/-- The exchange of one iteration (41_bitrev.md R86): only where `J > I`. -/
def swapIfBelow (lt : LaneType) (c : Ctx) (i j : Nat) : Eng Unit :=
  if i < j then swapPairs lt c i j else pure ()

/-- The reversed-carry increment of `J` (41_bitrev.md R86): `while M >= 2 and J >= M: J <- J - M; M <- M >> 1`, then `J <- J + M`.
The first argument bounds the number of turns; `M` halves at each, so any bound not below `M` is never reached. -/
def revCarry : Nat → Nat → Nat → Nat
  | 0, m, j => j + m
  | turns + 1, m, j => if 2 ≤ m ∧ m ≤ j then revCarry turns (m / 2) (j - m) else j + m

/-- `BitrevPass(n)` (41_bitrev.md R86): `J` runs along with `I` as its bit reversal. -/
def bitrevPass (lt : LaneType) (c : Ctx) : Eng Unit := do
  let _ ← forFold (countUp 0 2 c.n) 0 fun j i => do
    swapIfBelow lt c i j
    pure (revCarry c.n (c.n / 2) j)
  pure ()

/-- The passes of BITREV (41_bitrev.md R85). -/
def bitrevPasses (lt : LaneType) (c : Ctx) : Eng Unit := do
  setPhase .bitrev
  bitrevPass lt c
  setPhase .idle

/-- BITREV (41_bitrev.md R85). -/
def execBitrev (lt : LaneType) (s : State) : Host.Outcome State Fault Refusal :=
  .next (runCommand (.bitrev lt) (bitrevPasses lt) s)

end Sys2Proof.Machine
end

