-- ==== Sys2Proof/Machine/Cfft.lean ====
section
/-! DEFINITION. The butterflies, the stages and the command CFFT (spec/43_cfft.md R100 to R106). Every expression is evaluated as the rule
parenthesises it, each operation rounding once (spec/40_lane_ops.md R81). -/

namespace Sys2Proof.Machine

/-- `Bfly2(i, j)` with the broadcast twiddle `w = (VWR, VWI)` (43_cfft.md R103): `t = w*b`, `b' = a - t`, `a' = a + t`. -/
def bfly2 (lt : LaneType) (c : Ctx) (w : Point lt) (i j : Nat) : Eng Unit := do
  let a ← loadPoint lt c i
  let b ← loadPoint lt c j
  let t ← mulPoint lt c w b
  let y ← subPoint lt c a t
  let x ← addPoint lt c a t
  storePoint lt c j y
  storePoint lt c i x

/-- `Radix2Stage(n, MMAX)` (43_cfft.md R104). -/
def radix2Stage (lt : LaneType) (c : Ctx) (mmax : Nat) : Eng Unit := do
  let istep := 2 * mmax
  let _ ← forFold (countUp 0 2 mmax) (twInit mmax.log2) fun t m => do
    let w := (bcast lt t.wre, bcast lt t.wim)
    forEach (countUp m istep c.n) fun i => bfly2 lt c w i (i + mmax)
    pure (twAdv t)
  pure ()

/-- `Bfly4(i0, i1, i2, i3)` on the points `A, B, C, D` with the broadcast twiddle `w = (VWR, VWI)` and its square `w2 = (VW2R, VW2I)`
(43_cfft.md R105): the inner level with `w2`, then the outer level with `w` and `-i*w`. -/
def bfly4 (lt : LaneType) (c : Ctx) (w w2 : Point lt) (i0 i1 i2 i3 : Nat) : Eng Unit := do
  let pa ← loadPoint lt c i0
  let pb ← loadPoint lt c i1
  let pc ← loadPoint lt c i2
  let pd ← loadPoint lt c i3
  let tb ← mulPoint lt c w2 pb
  let td ← mulPoint lt c w2 pd
  let e0 ← addPoint lt c pa tb
  let e1 ← subPoint lt c pa tb
  let f0 ← addPoint lt c pc td
  let f1 ← subPoint lt c pc td
  let u0 ← mulPoint lt c w f0
  let u1 ← mulPoint lt c w f1
  let x0 ← addPoint lt c e0 u0
  let x2 ← subPoint lt c e0 u0
  let x1 ← subTurned lt c e1 u1
  let x3 ← addTurned lt c e1 u1
  storePoint lt c i0 x0
  storePoint lt c i2 x2
  storePoint lt c i1 x1
  storePoint lt c i3 x3

/-- `Radix4Stage(n, MMAX)` (43_cfft.md R106). -/
def radix4Stage (lt : LaneType) (c : Ctx) (mmax : Nat) : Eng Unit := do
  let istep := 4 * mmax
  let _ ← forFold (countUp 0 2 mmax) (twInit (mmax.log2 + 1)) fun t m => do
    let w := (bcast lt t.wre, bcast lt t.wim)
    let w2 := (bcast lt (twSqRe t), bcast lt (twSqIm t))
    forEach (countUp m istep c.n) fun i => bfly4 lt c w w2 i (i + mmax) (i + 2 * mmax) (i + 3 * mmax)
    pure (twAdv t)
  pure ()

/-- The stage loop of `CfftPhase` from a span on (43_cfft.md R101): `while 2*MMAX < n` a radix-4 stage and `MMAX <- 4*MMAX`, then one
radix-2 stage if `MMAX < n`. The first argument bounds the number of turns; `MMAX` quadruples, so the bound `n` is never reached. -/
def stageLoop (lt : LaneType) (c : Ctx) : Nat → Nat → Eng Unit
  | 0, _ => pure ()
  | turns + 1, mmax =>
    if 2 * mmax < c.n then do
      setPhase .r4stage
      radix4Stage lt c mmax
      stageLoop lt c turns (4 * mmax)
    else if mmax < c.n then do
      setPhase .r2stage
      radix2Stage lt c mmax
    else pure ()

/-- `CfftPhase(n)` (43_cfft.md R101). -/
def cfftPhase (lt : LaneType) (c : Ctx) : Eng Unit := do
  setPhase .bitrev
  bitrevPass lt c
  stageLoop lt c c.n 2

/-- The passes of CFFT (43_cfft.md R100). -/
def cfftPasses (lt : LaneType) (c : Ctx) : Eng Unit := do
  cfftPhase lt c
  setPhase .idle

/-- CFFT (43_cfft.md R100). -/
def execCfft (lt : LaneType) (s : State) : Host.Outcome State Fault Refusal :=
  .next (runCommand (.cfft lt) (cfftPasses lt) s)

end Sys2Proof.Machine
end

