-- ==== Sys2Proof/Machine/RealFft.lean ====
section
/-! DEFINITION. The untangle pass and the commands UNTANGLE and RFFT (spec/44_realfft.md R115 to R120). -/

namespace Sys2Proof.Machine

/-- `DcNyquist()` (44_realfft.md R118). -/
def dcNyquist (lt : LaneType) (c : Ctx) : Eng Unit := do
  let re0 ← lload lt c 0
  let im0 ← lload lt c 1
  let x ← ladd lt c re0 im0
  let y ← lsub lt c re0 im0
  lstore lt c 0 x
  lstore lt c 1 y

/-- `UntanglePair(i1, i3)` with the broadcast twiddle `w = (VWR, VWI)` and `vh` = 0.5 (44_realfft.md R119): `p` holds `a, b`, `q` holds
`c, d`; `E` and `O` are the halves, `T = w*O`. -/
def untanglePair (lt : LaneType) (c : Ctx) (w : Point lt) (vh : LaneGroup lt) (i1 i3 : Nat) : Eng Unit := do
  let p ← loadPoint lt c i1
  let q ← loadPoint lt c i3
  let sac ← ladd lt c p.1 q.1
  let er ← lmul lt c vh sac
  let dbd ← lsub lt c p.2 q.2
  let ei ← lmul lt c vh dbd
  let sbd ← ladd lt c p.2 q.2
  let or' ← lmul lt c vh sbd
  let dca ← lsub lt c q.1 p.1
  let oi ← lmul lt c vh dca
  let t ← mulPoint lt c w (or', oi)
  let x ← addPoint lt c (er, ei) t
  let yr ← lsub lt c er t.1
  let yi ← lsub lt c t.2 ei
  storePoint lt c i1 x
  storePoint lt c i3 (yr, yi)

/-- `MiddleBin()` (44_realfft.md R120). -/
def middleBin (lt : LaneType) (c : Ctx) : Eng Unit := do
  let x ← lload lt c (c.n / 2 + 1)
  let y ← lmul lt c (bcast lt const64MinusOne) x
  lstore lt c (c.n / 2 + 1) y

/-- `UntanglePass(n)` (44_realfft.md R117): the twiddle is advanced before each pair. -/
def untanglePass (lt : LaneType) (c : Ctx) : Eng Unit := do
  dcNyquist lt c
  if 4 ≤ c.n then do
    let vh := bcast lt const64Half
    let _ ← forFold (countUp 1 1 (c.n / 4)) (twInit c.n.log2) fun t k => do
      let t' := twAdv t
      untanglePair lt c (bcast lt t'.wre, bcast lt t'.wim) vh (2 * k) (c.n - 2 * k)
      pure t'
    middleBin lt c

/-- The passes of UNTANGLE (44_realfft.md R116). -/
def untanglePasses (lt : LaneType) (c : Ctx) : Eng Unit := do
  setPhase .untangle
  untanglePass lt c
  setPhase .idle

/-- UNTANGLE (44_realfft.md R116). -/
def execUntangle (lt : LaneType) (s : State) : Host.Outcome State Fault Refusal :=
  .next (runCommand (.untangle lt) (untanglePasses lt) s)

/-- The passes of RFFT (44_realfft.md R115). -/
def rfftPasses (lt : LaneType) (c : Ctx) : Eng Unit := do
  cfftPhase lt c
  setPhase .untangle
  untanglePass lt c
  setPhase .idle

/-- RFFT (44_realfft.md R115). -/
def execRfft (lt : LaneType) (s : State) : Host.Outcome State Fault Refusal :=
  .next (runCommand (.rfft lt) (rfftPasses lt) s)

end Sys2Proof.Machine
end

