-- ==== Sys2Proof/Machine/Inverse.lean ====
section
/-! DEFINITION. The inverse-preparation pass and the commands INVPREP and IRFFT (spec/45_inverse.md R125 to R127). -/

namespace Sys2Proof.Machine

/-- `data[k] <- data[k] * vs` (45_inverse.md R127). -/
def scaleElement (lt : LaneType) (c : Ctx) (vs : LaneGroup lt) (k : Nat) : Eng Unit := do
  let x ← lload lt c k
  let y ← lmul lt c x vs
  lstore lt c k y

/-- Bins at elements `i1` and `i3` exchange places, each scaled (45_inverse.md R127): all four loads before the first store. -/
def mirrorPair (lt : LaneType) (c : Ctx) (vs : LaneGroup lt) (i1 i3 : Nat) : Eng Unit := do
  let p ← loadPoint lt c i1
  let q ← loadPoint lt c i3
  let y1 ← lmul lt c q.1 vs
  let y2 ← lmul lt c q.2 vs
  let y3 ← lmul lt c p.1 vs
  let y4 ← lmul lt c p.2 vs
  storePoint lt c i1 (y1, y2)
  storePoint lt c i3 (y3, y4)

/-- `InvPrep(n)` (45_inverse.md R127): factor `1/n = 2^(-e)` on elements 0 and 1, `2/n = 2^(1-e)` on every other, `e = log2 n`. -/
def invPrep (lt : LaneType) (c : Ctx) : Eng Unit := do
  let vs0 := bcast lt (const64Pow c.n.log2)
  let vs := bcast lt (const64Pow (c.n.log2 - 1))
  scaleElement lt c vs0 0
  scaleElement lt c vs0 1
  forEach (countUp 1 1 (c.n / 4)) fun k => mirrorPair lt c vs (2 * k) (c.n - 2 * k)
  if 4 ≤ c.n then do
    scaleElement lt c vs (c.n / 2)
    scaleElement lt c vs (c.n / 2 + 1)

/-- The passes of INVPREP (45_inverse.md R126). -/
def invprepPasses (lt : LaneType) (c : Ctx) : Eng Unit := do
  setPhase .invprep
  invPrep lt c
  setPhase .idle

/-- INVPREP (45_inverse.md R126). -/
def execInvprep (lt : LaneType) (s : State) : Host.Outcome State Fault Refusal :=
  .next (runCommand (.invprep lt) (invprepPasses lt) s)

/-- The passes of IRFFT (45_inverse.md R125). -/
def irfftPasses (lt : LaneType) (c : Ctx) : Eng Unit := do
  setPhase .invprep
  invPrep lt c
  setPhase .untangle
  untanglePass lt c
  cfftPhase lt c
  setPhase .idle

/-- IRFFT (45_inverse.md R125). -/
def execIrfft (lt : LaneType) (s : State) : Host.Outcome State Fault Refusal :=
  .next (runCommand (.irfft lt) (irfftPasses lt) s)

end Sys2Proof.Machine
end

