-- ==== Sys2Proof/Machine/Dispatch.lean ====
section
/-! DEFINITION. One arm per command (spec/30_encoding.md R51). -/

namespace Sys2Proof.Machine

/-- A command on a state, once its word is decoded (10_state.md R12). -/
def exec (i : Instr) (s : State) : Host.Outcome State Fault Refusal :=
  match i with
  | .cfft lt => Sys2Proof.Machine.execCfft lt s
  | .rfft lt => Sys2Proof.Machine.execRfft lt s
  | .irfft lt => Sys2Proof.Machine.execIrfft lt s
  | .bitrev lt => Sys2Proof.Machine.execBitrev lt s
  | .untangle lt => Sys2Proof.Machine.execUntangle lt s
  | .invprep lt => Sys2Proof.Machine.execInvprep lt s

end Sys2Proof.Machine
end

