-- ==== Sys2Proof/Machine/Port.lean ====
section
/-! DEFINITION. What each host transaction does (spec/30_encoding.md R57 to R60; spec/10_state.md R11 to R17, R27 to R29;
spec/60_exceptions.md R138, R141, R143; spec/70_reset_and_hazards.md R160, R161; spec/20_memory.md R47). -/

namespace Sys2Proof.Machine

/-- `HostWrite(0, v)` while not FAULTED: decode, then the command, or the fault entry of BAD_CMD with the low 64 bits of the value
(10_state.md R12, R29; 60_exceptions.md R138). -/
def writeCmd (v : Nat) (s : State) : Host.Outcome State Fault Refusal :=
  match decodeCommand v with
  | .ok i => exec i s
  | .error _ => .next (raiseFault .badCmd (BitVec.ofNat 64 v) s)

/-- `HostWrite(r, v)` (10_state.md R11, R27, R28): nothing while FAULTED; STATUS, FINFO and unknown numbers ignore it. -/
def hostWrite (r v : Nat) (s : State) : Host.Outcome State Fault Refusal :=
  if faulted s then .next s
  else match r with
    | 0 => writeCmd v s
    | 1 => .next (setN v s)
    | 2 => .next (setBase v s)
    | _ => .next s

/-- `HostRead(r)` (10_state.md R27, R28): the value goes to the host, the engine does not change. -/
def hostRead (r : Nat) (s : State) : Host.Outcome State Fault Refusal :=
  .next { s with reads := s.reads ++ [hostReg s r] }

/-- Whether a host access to an address finds memory (20_memory.md R30, R37). -/
def hasMemory (p : Params) (a : Nat) : Bool := decide (a < 2 ^ p.aw) && !meetsHole p a (a + 1)

/-- A host store to its data memory (10_state.md R10; log entry 9). -/
def hostStore (a : Nat) (b : Byte) (s : State) : Host.Outcome State Fault Refusal :=
  if hasMemory s.params a then .next { s with mem := memPut s.mem a b } else .fault .noMemory

/-- The number of footprint bytes of the command a CMD write starts: 0 when it is ignored, illegal, or faults at a check, since none of
those accesses memory (10_state.md R28, 60_exceptions.md R142; 20_memory.md R35). -/
def footprintLen (v : Nat) (s : State) : Nat :=
  if faulted s then 0
  else match decodeCommand v with
    | .error _ => 0
    | .ok i => if (checkFault i s).isSome then 0 else s.n.toNat * esize i.lt

/-- Reset during the command a CMD write started (70_reset_and_hazards.md R161): the registers take their reset values, every byte of the
footprint holds an unspecified value, bytes outside are unaffected. -/
def resetDuring (v : Nat) (s : State) : Host.Outcome State Fault Refusal :=
  .next (resetEngine { s with mem := abandonBytes s.epoch s.mem s.base.toNat (footprintLen v s) })

/-- A CMD write during whose command another agent touches byte `a` (20_memory.md R47, 60_exceptions.md R148): no meaning inside the
footprint; outside it the command is not affected. -/
def writeShared (v a : Nat) (s : State) : Host.Outcome State Fault Refusal :=
  if s.base.toNat ≤ a ∧ a < s.base.toNat + footprintLen v s then .refused .sharedFootprint
  else hostWrite 0 v s

/-- One host transaction. -/
def perform (e : HostEvent) (s : State) : Host.Outcome State Fault Refusal :=
  match e with
  | .write r v => hostWrite r v s
  | .read r => hostRead r s
  | .store a b => hostStore a b s
  | .reset => .next (resetEngine s)
  | .resetDuring v => resetDuring v s
  | .writeShared v a => writeShared v a s

/-- The next transaction, in issue order (30_encoding.md R59); with none the engine waits (70_reset_and_hazards.md R160; log entry 15). -/
def nextEvent (s : State) : Host.Outcome State Fault Refusal :=
  match s.port with
  | [] => .next s
  | e :: rest => perform e { s with port := rest }

/-- Put a command word where the next step takes it: a write to CMD ahead of the transactions to come (log entry 2). -/
def placeCommand (s : State) (v : Nat) : State := { s with port := .write 0 v :: s.port }

/-- The line `<OP>.<LT>` of the host-program notation (30_encoding.md R57). -/
def cmdLine (i : Instr) : HostEvent := .write 0 (encode i).toNat

/-- `complexFFT.<LT> n, base` (30_encoding.md R58). -/
def complexFFT (lt : LaneType) (n base : Nat) : List HostEvent := [.write 1 n, .write 2 base, cmdLine (.cfft lt)]

/-- `realFFT.<LT> n, base` (30_encoding.md R58). -/
def realFFT (lt : LaneType) (n base : Nat) : List HostEvent := [.write 1 n, .write 2 base, cmdLine (.rfft lt)]

/-- `inverseRealFFT.<LT> n, base` (30_encoding.md R58). -/
def inverseRealFFT (lt : LaneType) (n base : Nat) : List HostEvent := [.write 1 n, .write 2 base, cmdLine (.irfft lt)]

end Sys2Proof.Machine
end

