-- ==== Sys2Proof/Machine/Step.lean ====
section
/-! DEFINITION. One step: the next host transaction (spec/30_encoding.md R59), a command being one transition (spec/10_state.md R10). -/

namespace Sys2Proof.Machine

/-- One step of the engine and its host (30_encoding.md R59, 10_state.md R10). -/
def step (s : State) : Host.Outcome State Fault Refusal := nextEvent s

/-- The state with a command word of `nbits` bits where the next step takes it (log entry 2). -/
def State.withFetchWord (s : State) (nbits w : Nat) : State := placeCommand s (w % 2 ^ nbits)

end Sys2Proof.Machine
end

