-- ==== Sys2Proof/Safety.lean ====
section
/-! DEFINITION. The terms the claims use: when a command runs its passes, what a command leaves unchanged, the invariant every step keeps,
a successful run. -/

namespace Sys2Proof.Machine

/-- A legal size in the document's sense: a power of two, at least 2 (spec/60_exceptions.md R139). -/
def LegalSize (n : Word32) : Prop := ∃ e, 1 ≤ e ∧ n.toNat = 2 ^ e

/-- A byte address lies in the footprint `[BASE, BASE + n*ESIZE)` (spec/20_memory.md R35). -/
abbrev InFootprint (lt : LaneType) (s : State) (a : Nat) : Prop :=
  s.base.toNat ≤ a ∧ a < s.base.toNat + s.n.toNat * esize lt

/-- The conditions under which a command of a lane type runs its passes: the engine is not FAULTED and no test of `CHECK` fails
(spec/10_state.md R28; spec/60_exceptions.md R137). -/
structure Accepts (lt : LaneType) (s : State) : Prop where
  live : faulted s = false
  lane : lt.present s.params = true
  size : LegalSize s.n
  range : s.n.toNat ≤ s.params.nmax
  aligned : s.base.toNat % align lt = 0
  inSpace : s.base.toNat + s.n.toNat * esize lt ≤ 2 ^ s.params.aw
  backed : ∀ a, InFootprint lt s a → s.params.backed a

/-- What a command that ran its passes leaves unchanged: every host register, the parameters, the host's own lists, and every byte
outside the footprint; PHASE is IDLE. The internal registers are unspecified (spec/10_state.md R24). -/
structure CommandFrame (lt : LaneType) (s t : State) : Prop where
  params : t.params = s.params
  n : t.n = s.n
  base : t.base = s.base
  status : t.status = s.status
  finfo : t.finfo = s.finfo
  phase : t.phase = .idle
  port : t.port = s.port
  reads : t.reads = s.reads
  outside : ∀ a, ¬ InFootprint lt s a → memByte t.mem a = memByte s.mem a

/-- Element `k` of the buffer N and BASE name (spec/20_memory.md R32). -/
def elem (lt : LaneType) (s : State) (k : Nat) : LaneGroup lt := element lt s.mem s.base.toNat k

/-- What FINFO and the frozen operands say of a recorded cause (spec/60_exceptions.md R136): the value that violated the precondition,
and that it did. -/
def Explained (s : State) : Cause → Prop
  | .badCmd => ∃ v, s.finfo = BitVec.ofNat 64 v ∧
      ∀ i, decodeCommand v = .ok i → i.lt.present s.params = false
  | .badN => s.finfo = s.n.setWidth 64 ∧ ¬ LegalSize s.n
  | .nRange => s.finfo = s.n.setWidth 64 ∧ LegalSize s.n ∧ s.params.nmax < s.n.toNat
  | .misaligned => s.finfo = s.base ∧ ∃ lt, s.base.toNat % align lt ≠ 0
  | .addrRange => s.finfo = s.base ∧ ∃ lt, 2 ^ s.params.aw < s.base.toNat + s.n.toNat * esize lt
  | .bus => s.finfo = s.base ∧ ∃ lt a, InFootprint lt s a ∧ ¬ s.params.backed a

/-- An index counter fits its `LOG2_NMAX + 3` bits (spec/10_state.md R19). -/
def CountersFit (s : State) : Prop :=
  ∀ x ∈ [s.cnt.i, s.cnt.j, s.cnt.m, s.cnt.mmax, s.cnt.istep, s.cnt.k], x < 2 ^ (s.params.log2NMax + 3)

/-- The invariant of every state between transactions: memory in canonical form and inside the backed space, BASE within AW bits,
STATUS zero or one of the six fault records with its reserved bits zero, FINFO and PHASE agreeing with it, the counters within their
width. -/
structure Inv (s : State) : Prop where
  memSorted : memWf s.mem = true
  memBacked : ∀ c ∈ s.mem, c.1 < 2 ^ s.params.aw ∧ s.params.backed c.1
  baseWidth : s.base.toNat < 2 ^ s.params.aw
  record : (s.status = 0 ∧ s.finfo = 0 ∧ s.phase = .idle) ∨
    ∃ c, s.status = statusOf c ∧ s.phase = .faulted ∧ Explained s c
  counters : CountersFit s

/-- A run has ended: no transaction is left (spec/70_reset_and_hazards.md R169). -/
def Ended (s : State) : Prop := s.port = []

/-- A run that ended successfully: `STATUS.FAULT = 0` (spec/70_reset_and_hazards.md R169). -/
def Successful (s : State) : Prop := Ended s ∧ faulted s = false

end Sys2Proof.Machine
end

