-- ==== Sys2Proof/Safety/Reference.lean ====
section
/-! DEFINITION. The passes as functions on whole buffers, one closed formula for each output element: what the claims hold the commands
to. A buffer is the function from element index to lane group; no memory, no loop, no order of accesses and no NaN draw stands here. -/

namespace Sys2Proof.Reference

open Sys2Proof.Machine

/-! ## Lanes up to the choice of a NaN -/

/-- Two lane values that are equal, or both NaN (spec/40_lane_ops.md R76: no claim depends on which NaN appears). -/
def LaneAlike (f : Fmt) (x y : BitVec f.width) : Prop := x = y ∨ (isNan f x = true ∧ isNan f y = true)

/-- Two lane groups that are alike lane by lane. -/
def Alike (lt : LaneType) (u v : LaneGroup lt) : Prop := List.Forall₂ (LaneAlike (laneFmt lt)) u v

/-- `a + b` on lane groups, with some NaN where one is due. -/
def add (lt : LaneType) (fl : Bool) (a b : LaneGroup lt) : LaneGroup lt :=
  List.zipWith (flushed (laneFmt lt) fl (addF (laneFmt lt)) 0) a b

/-- `a - b` on lane groups. -/
def sub (lt : LaneType) (fl : Bool) (a b : LaneGroup lt) : LaneGroup lt :=
  List.zipWith (flushed (laneFmt lt) fl (subF (laneFmt lt)) 0) a b

/-- `a * b` on lane groups. -/
def mul (lt : LaneType) (fl : Bool) (a b : LaneGroup lt) : LaneGroup lt :=
  List.zipWith (flushed (laneFmt lt) fl (mulF (laneFmt lt)) 0) a b

/-- `p*q - r*s`, each operation rounding once (spec/00_scope.md R8). -/
def mulSub (lt : LaneType) (fl : Bool) (p q r s : LaneGroup lt) : LaneGroup lt :=
  sub lt fl (mul lt fl p q) (mul lt fl r s)

/-- `p*q + r*s`, each operation rounding once. -/
def mulAdd (lt : LaneType) (fl : Bool) (p q r s : LaneGroup lt) : LaneGroup lt :=
  add lt fl (mul lt fl p q) (mul lt fl r s)

/-- A sample buffer as a function of the element index (spec/20_memory.md R32). -/
abbrev Buffer (lt : LaneType) := Nat → LaneGroup lt

/-! ## Bit reversal -/

/-- `rev_b(p)`: the `b`-bit number whose binary digits are those of `p` in reverse order (spec/00_scope.md R9). -/
def rev : Nat → Nat → Nat
  | 0, _ => 0
  | b + 1, p => p % 2 * 2 ^ b + rev b (p / 2)

/-- The buffer of `2^b` pairs after the permutation (spec/41_bitrev.md R87). -/
def bitrev {lt : LaneType} (b : Nat) (x : Buffer lt) : Buffer lt :=
  fun k => x (2 * rev b (k / 2) + k % 2)

/-! ## The stages of the complex transform -/

/-- The twiddle registers after `t` advances from `TWINIT(q)` (spec/42_twiddle.md R93, R94). -/
def rotor (q t : Nat) : Rotor := twAdv^[t] (twInit q)

/-- One output element of the radix-2 stage of span `mmax` (spec/43_cfft.md R103, R104). -/
def stage2 (lt : LaneType) (fl : Bool) (mmax : Nat) (x : Buffer lt) : Buffer lt := fun k =>
  let m := k % mmax / 2 * 2
  let i := k / (2 * mmax) * (2 * mmax) + m
  let j := i + mmax
  let w := rotor mmax.log2 (m / 2)
  let tr := mulSub lt fl (bcast lt w.wre) (x j) (bcast lt w.wim) (x (j + 1))
  let ti := mulAdd lt fl (bcast lt w.wre) (x (j + 1)) (bcast lt w.wim) (x j)
  match k % (2 * mmax) / mmax, k % 2 with
  | 0, 0 => add lt fl (x i) tr
  | 0, _ => add lt fl (x (i + 1)) ti
  | _, 0 => sub lt fl (x i) tr
  | _, _ => sub lt fl (x (i + 1)) ti

/-- One output element of the radix-4 stage of inner span `mmax` (spec/43_cfft.md R105, R106). -/
def stage4 (lt : LaneType) (fl : Bool) (mmax : Nat) (x : Buffer lt) : Buffer lt := fun k =>
  let m := k % mmax / 2 * 2
  let i := k / (4 * mmax) * (4 * mmax) + m
  let t := rotor (mmax.log2 + 1) (m / 2)
  let w := bcast lt t.wre
  let v := bcast lt t.wim
  let w2 := bcast lt (twSqRe t)
  let v2 := bcast lt (twSqIm t)
  let ar := x i
  let ai := x (i + 1)
  let br := x (i + mmax)
  let bi := x (i + mmax + 1)
  let cr := x (i + 2 * mmax)
  let ci := x (i + 2 * mmax + 1)
  let dr := x (i + 3 * mmax)
  let di := x (i + 3 * mmax + 1)
  let tbr := mulSub lt fl w2 br v2 bi
  let tbi := mulAdd lt fl w2 bi v2 br
  let tdr := mulSub lt fl w2 dr v2 di
  let tdi := mulAdd lt fl w2 di v2 dr
  let f0r := add lt fl cr tdr
  let f0i := add lt fl ci tdi
  let f1r := sub lt fl cr tdr
  let f1i := sub lt fl ci tdi
  match k % (4 * mmax) / mmax, k % 2 with
  | 0, 0 => add lt fl (add lt fl ar tbr) (mulSub lt fl w f0r v f0i)
  | 0, _ => add lt fl (add lt fl ai tbi) (mulAdd lt fl w f0i v f0r)
  | 1, 0 => add lt fl (sub lt fl ar tbr) (mulAdd lt fl w f1i v f1r)
  | 1, _ => sub lt fl (sub lt fl ai tbi) (mulSub lt fl w f1r v f1i)
  | 2, 0 => sub lt fl (add lt fl ar tbr) (mulSub lt fl w f0r v f0i)
  | 2, _ => sub lt fl (add lt fl ai tbi) (mulAdd lt fl w f0i v f0r)
  | _, 0 => sub lt fl (sub lt fl ar tbr) (mulAdd lt fl w f1i v f1r)
  | _, _ => add lt fl (sub lt fl ai tbi) (mulSub lt fl w f1r v f1i)

/-- The first `r` radix-4 stages, spans 2, 8, 32, ... (spec/43_cfft.md R102). -/
def stages4 (lt : LaneType) (fl : Bool) : Nat → Buffer lt → Buffer lt
  | 0, x => x
  | r + 1, x => stage4 lt fl (2 * 4 ^ r) (stages4 lt fl r x)

/-- The complex transform of `2^b` points: bit reversal, `floor(b/2)` radix-4 stages, and where `b` is odd the radix-2 stage of span
`2^b` (spec/43_cfft.md R101, R102). -/
def cfft (lt : LaneType) (fl : Bool) (b : Nat) (x : Buffer lt) : Buffer lt :=
  if b % 2 = 1 then stage2 lt fl (2 ^ b) (stages4 lt fl (b / 2) (bitrev b x))
  else stages4 lt fl (b / 2) (bitrev b x)

/-! ## The untangle and inverse-preparation passes -/

/-- One output element of the untangle pass on `n = 2^e` elements (spec/44_realfft.md R117 to R120). Bin `k / 2` below `n/4` is the
first of its pair, above it the second; the pair's smaller bin is `p`. -/
def untangle (lt : LaneType) (fl : Bool) (e : Nat) (x : Buffer lt) : Buffer lt := fun k =>
  let n := 2 ^ e
  if k = 0 then add lt fl (x 0) (x 1)
  else if k = 1 then sub lt fl (x 0) (x 1)
  else if k = n / 2 then x k
  else if k = n / 2 + 1 then mul lt fl (bcast lt const64MinusOne) (x k)
  else
    let p := if k / 2 < n / 4 then k / 2 else n / 2 - k / 2
    let a := x (2 * p)
    let b := x (2 * p + 1)
    let c := x (n - 2 * p)
    let d := x (n - 2 * p + 1)
    let vh := bcast lt const64Half
    let w := rotor e p
    let er := mul lt fl vh (add lt fl a c)
    let ei := mul lt fl vh (sub lt fl b d)
    let or' := mul lt fl vh (add lt fl b d)
    let oi := mul lt fl vh (sub lt fl c a)
    let tr := mulSub lt fl (bcast lt w.wre) or' (bcast lt w.wim) oi
    let ti := mulAdd lt fl (bcast lt w.wre) oi (bcast lt w.wim) or'
    if k / 2 < n / 4 then
      if k % 2 = 0 then add lt fl er tr else add lt fl ei ti
    else
      if k % 2 = 0 then sub lt fl er tr else sub lt fl ti ei

/-- One output element of the inverse-preparation pass on `n = 2^e` elements (spec/45_inverse.md R127): elements 0 and 1 times `1/n`;
every other bin receives its mirror bin times `2/n`. -/
def invprep (lt : LaneType) (fl : Bool) (e : Nat) (x : Buffer lt) : Buffer lt := fun k =>
  if k < 2 then mul lt fl (x k) (bcast lt (const64Pow e))
  else mul lt fl (x (2 ^ e - 2 * (k / 2) + k % 2)) (bcast lt (const64Pow (e - 1)))

/-- The forward real transform (spec/44_realfft.md R115). -/
def rfft (lt : LaneType) (fl : Bool) (e : Nat) (x : Buffer lt) : Buffer lt :=
  untangle lt fl e (cfft lt fl (e - 1) x)

/-- The inverse real transform (spec/45_inverse.md R125). -/
def irfft (lt : LaneType) (fl : Bool) (e : Nat) (x : Buffer lt) : Buffer lt :=
  cfft lt fl (e - 1) (untangle lt fl e (invprep lt fl e x))

/-! ## Values and correct rounding -/

/-- A pattern that is neither infinite nor a NaN. -/
def Finite (f : Fmt) (x : BitVec f.width) : Prop := magOf f x < infMag f

/-- The value of a finite pattern, in quanta. -/
def value (f : Fmt) (x : BitVec f.width) : Int := signedQuanta f (isNeg f x) (magOf f x)

/-- Twice the least magnitude, in quanta, that rounds to infinity: the largest finite value and half a unit of its last place. -/
def overflowBound (f : Fmt) : Nat :=
  2 * quanta f (infMag f - 1) + (quanta f (infMag f - 1) - quanta f (infMag f - 2))

/-- `r` is the value `z / 2^k` quanta rounded once, to nearest, ties to even, infinity of its sign from the overflow bound on
(spec/40_lane_ops.md R69). -/
structure RoundedTo (f : Fmt) (z : Int) (k : Nat) (r : BitVec f.width) : Prop where
  notNan : isNan f r = false
  overflow : isInf f r = true ↔ overflowBound f * 2 ^ k ≤ 2 * z.natAbs
  infSign : isInf f r = true → (isNeg f r = true ↔ z < 0)
  nearest : Finite f r → ∀ c, Finite f c → (value f r * 2 ^ k - z).natAbs ≤ (value f c * 2 ^ k - z).natAbs
  tieEven : Finite f r → (∃ c, Finite f c ∧ value f c ≠ value f r ∧
    (value f c * 2 ^ k - z).natAbs = (value f r * 2 ^ k - z).natAbs) → r.toNat % 2 = 0

/-- A quiet NaN: exponent all ones, the top fraction bit one (spec/40_lane_ops.md R67, R68). -/
def IsQuietNan (f : Fmt) (x : BitVec f.width) : Prop := isNan f x = true ∧ x.getLsbD (f.frac - 1) = true

/-- The pattern with its sign bit inverted. -/
def negate (f : Fmt) (x : BitVec f.width) : BitVec f.width := packMag f (!isNeg f x) (magOf f x)

/-- The pattern of `2^(-e)` in a format, `e` at most its bias minus one. -/
def pow2Neg (f : Fmt) (e : Nat) : BitVec f.width :=
  packMag f false ((2 ^ (f.width - f.frac - 2) - 1 - e) * 2 ^ f.frac)

/-- The same command in another lane type. -/
def withLt (i : Instr) (lt : LaneType) : Instr :=
  match i with
  | .cfft _ => .cfft lt
  | .rfft _ => .rfft lt
  | .irfft _ => .irfft lt
  | .bitrev _ => .bitrev lt
  | .untangle _ => .untangle lt
  | .invprep _ => .invprep lt

end Sys2Proof.Reference
end

