-- ==== Sys2Proof/Certificates/Slice0/Obligations.lean ====
section
/-! DEFINITION. The statements for the provers. Each docstring names the rules of spec/ it formalises and, where one is involved, the log
entry of a choice of the model's. -/

open Sys2Proof Sys2Proof.Machine Sys2Proof.Reference

/-! ## Encoding (30_encoding.md) -/

/-- The 18 words written out in 30_encoding.md R56 (and in spec/opcode_table.json) decode to the commands they stand for. -/
def Obligations.LegalWordsDecode : Prop :=
  [0x00000001, 0x00000011, 0x00000021, 0x00000002, 0x00000012, 0x00000022].map decodeCommand
    = [.ok (.cfft .f32), .ok (.cfft .f64), .ok (.cfft .v4f32), .ok (.rfft .f32), .ok (.rfft .f64), .ok (.rfft .v4f32)] ∧
  [0x00000003, 0x00000013, 0x00000023, 0x00000004, 0x00000014, 0x00000024].map decodeCommand
    = [.ok (.irfft .f32), .ok (.irfft .f64), .ok (.irfft .v4f32),
       .ok (.bitrev .f32), .ok (.bitrev .f64), .ok (.bitrev .v4f32)] ∧
  [0x00000005, 0x00000015, 0x00000025, 0x00000006, 0x00000016, 0x00000026].map decodeCommand
    = [.ok (.untangle .f32), .ok (.untangle .f64), .ok (.untangle .v4f32),
       .ok (.invprep .f32), .ok (.invprep .f64), .ok (.invprep .v4f32)]

/-- Decoding the encoding of any command gives the command back. -/
def Obligations.DecodeOfEncode : Prop := ∀ i : Instr, decodeWord (encode i) = .ok i

/-- A port value decodes to a command exactly if it is that command's word: every other value, of any port width, is illegal
(30_encoding.md R54, R56; 10_state.md R29). -/
def Obligations.OnlyEncodedWordsDecode : Prop :=
  ∀ (v : Nat) (i : Instr), decodeCommand v = .ok i ↔ v = (encode i).toNat

/-- A 32-bit word is illegal if its ZERO field is not zero, its OP is 0 or 7 to 15, its LT is 3, or its LT is 2 and the instance has no
V4F32; writing it faults with BAD_CMD and the word in FINFO, whatever N and BASE hold, and changes nothing else; any other word
decodes to a command the instance has (30_encoding.md R54). -/
def Obligations.IllegalWordRaisesBadCmd : Prop :=
  ∀ (w : Word32) (s : State), faulted s = false →
    ((w.toNat / 64 ≠ 0 ∨ w.toNat % 16 = 0 ∨ 7 ≤ w.toNat % 16 ∨ w.toNat / 16 % 4 = 3 ∨
        (w.toNat / 16 % 4 = 2 ∧ s.params.hasV4 = false)) →
      hostWrite 0 w.toNat s = .next { s with status := 0x11, finfo := w.setWidth 64, phase := .faulted }) ∧
    (¬ (w.toNat / 64 ≠ 0 ∨ w.toNat % 16 = 0 ∨ 7 ≤ w.toNat % 16 ∨ w.toNat / 16 % 4 = 3 ∨
        (w.toNat / 16 % 4 = 2 ∧ s.params.hasV4 = false)) →
      ∃ i : Instr, decodeCommand w.toNat = .ok i ∧ i.lt.present s.params = true ∧ hostWrite 0 w.toNat s = exec i s)

/-! ## The host port (10_state.md, 30_encoding.md R59) -/

/-- A step with a write of a command's word at the head of the host's transactions, on an engine that is not FAULTED, is `exec` of that
command on the state without that transaction (10_state.md R12, 30_encoding.md R59; log entry 2). -/
def Obligations.StepRunsDecodedCommand : Prop :=
  ∀ (s : State) (v : Nat) (rest : List HostEvent) (i : Instr),
    s.port = .write 0 v :: rest → faulted s = false → decodeCommand v = .ok i →
      step s = exec i { s with port := rest }

/-- The port's width. Writes on an engine that is not FAULTED: N keeps bits 31:0 and BASE bits AW-1:0 of the value, a CMD value with a
bit set above bit 31 raises BAD_CMD with its low 64 bits in FINFO, any other decodes as the 32-bit word. Reads in every state, FAULTED or
not, return the register zero-extended and change nothing of the engine (10_state.md R29). -/
def Obligations.PortWidthRules : Prop :=
  ∀ (s : State) (v : Nat),
    (faulted s = false →
      hostWrite 1 v s = .next { s with n := BitVec.ofNat 32 (v % 2 ^ 32) } ∧
      (s.params.aw ≤ 64 → ∃ b : Word64, b.toNat = v % 2 ^ s.params.aw ∧ hostWrite 2 v s = .next { s with base := b }) ∧
      (2 ^ 32 ≤ v → hostWrite 0 v s =
        .next { s with status := 0x11, finfo := BitVec.ofNat 64 (v % 2 ^ 64), phase := .faulted })) ∧
    (v < 2 ^ 32 → decodeCommand v = decodeWord (BitVec.ofNat 32 v)) ∧
    hostRead 1 s = .next { s with reads := s.reads ++ [s.n.toNat] } ∧
    hostRead 2 s = .next { s with reads := s.reads ++ [s.base.toNat] } ∧
    hostRead 3 s = .next { s with reads := s.reads ++ [s.status.toNat] } ∧
    hostRead 4 s = .next { s with reads := s.reads ++ [s.finfo.toNat] }

/-- Register numbers 5 and above read 0 and ignore writes, in every state, and neither faults (10_state.md R27). -/
def Obligations.UnknownRegistersReadZero : Prop :=
  ∀ (s : State) (r v : Nat), 5 ≤ r →
    hostRead r s = .next { s with reads := s.reads ++ [0] } ∧ hostWrite r v s = .next s

/-- CMD reads 0 and STATUS and FINFO ignore writes, in every state (10_state.md R12, R16, R17). -/
def Obligations.ReadOnlyRegisters : Prop :=
  ∀ (s : State) (v : Nat),
    hostRead 0 s = .next { s with reads := s.reads ++ [0] } ∧ hostWrite 3 v s = .next s ∧ hostWrite 4 v s = .next s

/-- While `STATUS.FAULT = 1` a write to any register has no effect at all, a read returns the register's value as usual, and after any
transaction but a reset the engine is still FAULTED with N, BASE, STATUS and FINFO as they were (10_state.md R28). -/
def Obligations.FaultedIgnoresWrites : Prop :=
  ∀ (s : State) (e : HostEvent) (rest : List HostEvent), faulted s = true → s.port = e :: rest →
    (∀ r v, e = .write r v → step s = .next { s with port := rest }) ∧
    (∀ r, e = .read r → ∃ v, step s = .next { s with port := rest, reads := s.reads ++ [v] } ∧
      (r = 1 → v = s.n.toNat) ∧ (r = 2 → v = s.base.toNat) ∧ (r = 3 → v = s.status.toNat) ∧ (r = 4 → v = s.finfo.toNat) ∧
      (r = 0 ∨ 5 ≤ r → v = 0)) ∧
    (∀ t, step s = .next t → e ≠ .reset → (∀ v, e ≠ .resetDuring v) →
      t.n = s.n ∧ t.base = s.base ∧ t.status = s.status ∧ t.finfo = s.finfo ∧ t.phase = s.phase)

/-- Only reset clears `STATUS.FAULT`; while it is set every HostWrite is ignored, so a command written then does not run, does not fault
again and does not touch memory (60_exceptions.md R143). -/
def Obligations.OnlyResetLeavesFaulted : Prop :=
  (∀ s t : State, faulted s = true → step s = .next t → faulted t = false →
    ∃ rest, s.port = .reset :: rest ∨ ∃ v, s.port = .resetDuring v :: rest) ∧
  (∀ (i : Instr) (s : State), faulted s = true → exec i s = .next s) ∧
  (∀ (r v : Nat) (s : State), faulted s = true → hostWrite r v s = .next s)

/-- Each step performs exactly one host transaction, the first of those to come, on the state without it: what that transaction does is
what the step does, and the others stay to come. So `k` steps that answer next states consume `k` transactions, and a host program of
`k` `WR` and `RD` lines has ended, with no stop, after `k` steps, from every state (30_encoding.md R59; 70_reset_and_hazards.md R169;
that the transactions to come stand in a list of the state is log entry 2). -/
def Obligations.StepTakesOneTransaction : Prop :=
  (∀ (s : State) (e : HostEvent) (rest : List HostEvent), s.port = e :: rest →
    (∀ r v, e = .write r v → step s = hostWrite r v { s with port := rest }) ∧
    (∀ r, e = .read r → step s = hostRead r { s with port := rest }) ∧
    (∀ a b, e = .store a b → step s = hostStore a b { s with port := rest }) ∧
    (e = .reset → step s = .next (resetEngine { s with port := rest })) ∧
    (∀ v, e = .resetDuring v → step s = resetDuring v { s with port := rest }) ∧
    (∀ v a, e = .writeShared v a → step s = writeShared v a { s with port := rest }) ∧
    ∀ t, step s = .next t → t.port = rest) ∧
  (∀ (k : Nat) (s t : State), Host.Core.run core k s = .next t → t.port = s.port.drop k) ∧
  (∀ s : State, (∀ e ∈ s.port, (∃ r v, e = .write r v) ∨ ∃ r, e = .read r) →
    ∃ t, Host.Core.run core s.port.length s = .next t ∧ Ended t)

/-- A host store writes its one byte and nothing else where memory exists, and stops with `noMemory` elsewhere (the model's event,
log entry 9). -/
def Obligations.HostStoreWritesOneByte : Prop :=
  ∀ (s : State) (a : Nat) (b : Byte),
    (a < 2 ^ s.params.aw → s.params.backed a →
      ∃ m, hostStore a b s = .next { s with mem := m } ∧ memByte m a = b ∧
        ∀ x, x ≠ a → memByte m x = memByte s.mem x) ∧
    (2 ^ s.params.aw ≤ a ∨ ¬ s.params.backed a → hostStore a b s = .fault .noMemory)

/-- A run in which another agent touches a byte of the footprint of a command that runs its passes has no meaning (it is refused); where
the byte lies outside the footprint the command does what it does undisturbed (20_memory.md R47; the event is the model's, log entry
10). -/
def Obligations.SharedFootprintRefused : Prop :=
  ∀ (s : State) (i : Instr) (a : Nat), Accepts i.lt s →
    (InFootprint i.lt s a → writeShared (encode i).toNat a s = .refused .sharedFootprint) ∧
    (¬ InFootprint i.lt s a → writeShared (encode i).toNat a s = exec i s)

/-! ## Reset (10_state.md R26, 70_reset_and_hazards.md) -/

/-- The values the spec gives after reset: N, BASE, STATUS (FAULT and CAUSE) and FINFO are 0, PHASE is IDLE, CMD reads 0; no byte of data
memory has a value of its own (10_state.md R26). The values the model names for the rest (log entries 2 to 7) are not stated. -/
def Obligations.ResetStateValues : Prop :=
  ∀ p : Params, (State.resetOf p).n = 0 ∧ (State.resetOf p).base = 0 ∧ (State.resetOf p).status = 0 ∧
    statusFault (State.resetOf p).status = false ∧ statusCause (State.resetOf p).status = 0 ∧
    (State.resetOf p).finfo = 0 ∧ (State.resetOf p).phase = .idle ∧ hostReg (State.resetOf p) 0 = 0 ∧
    ∀ a, memGet (State.resetOf p).mem a = none

/-- The reset event, from every state: N = 0, BASE = 0, STATUS = 0, FINFO = 0, PHASE = IDLE, the engine accepts transactions again, and
data memory is not touched (70_reset_and_hazards.md R160). -/
def Obligations.ResetEventEffect : Prop :=
  ∀ (s : State) (rest : List HostEvent), s.port = .reset :: rest →
    ∃ t, step s = .next t ∧ t.n = 0 ∧ t.base = 0 ∧ t.status = 0 ∧ t.finfo = 0 ∧ t.phase = .idle ∧
      faulted t = false ∧ t.mem = s.mem ∧ t.params = s.params ∧ t.port = rest ∧ t.reads = s.reads

/-- Reset during a command: the registers take their reset values and bytes outside the abandoned command's footprint are unaffected;
where no command was running its passes no byte is affected (70_reset_and_hazards.md R161; nothing is said of the footprint's bytes,
which are free values, log entry 8). -/
def Obligations.ResetAbandonsCommand : Prop :=
  ∀ (s : State) (i : Instr), ∃ t, resetDuring (encode i).toNat s = .next t ∧
    t.n = 0 ∧ t.base = 0 ∧ t.status = 0 ∧ t.finfo = 0 ∧ t.phase = .idle ∧
    (∀ a, ¬ InFootprint i.lt s a → memByte t.mem a = memByte s.mem a) ∧
    (¬ Accepts i.lt s → t.mem = s.mem)

/-! ## Faults (60_exceptions.md) -/

/-- BAD_N: a command whose N is below 2 or no power of two faults with cause 2 and N in FINFO, whatever BASE holds, and changes nothing
else (60_exceptions.md R139). All six commands share the test. -/
def Obligations.BadSizeFaults : Prop :=
  ∀ (i : Instr) (s : State), faulted s = false → i.lt.present s.params = true → ¬ LegalSize s.n →
    exec i s = .next { s with status := 0x21, finfo := s.n.setWidth 64, phase := .faulted }

/-- N_RANGE: a legal size above `NMAX` faults with cause 3 and N in FINFO, whatever BASE holds, and changes nothing else
(60_exceptions.md R140). -/
def Obligations.OversizeFaults : Prop :=
  ∀ (i : Instr) (s : State), faulted s = false → i.lt.present s.params = true → LegalSize s.n →
    2 ^ s.params.log2NMax < s.n.toNat →
    exec i s = .next { s with status := 0x31, finfo := s.n.setWidth 64, phase := .faulted }

/-- MISALIGNED, ADDR_RANGE and BUS, in that priority, after a legal size: causes 4, 5, 6, each with BASE in FINFO and nothing else changed
(60_exceptions.md R151; the conditions of 20_memory.md R34, R36, R37). -/
def Obligations.AddressFaults : Prop :=
  ∀ (i : Instr) (s : State), faulted s = false → i.lt.present s.params = true → LegalSize s.n →
    s.n.toNat ≤ 2 ^ s.params.log2NMax →
    (s.base.toNat % align i.lt ≠ 0 →
      exec i s = .next { s with status := 0x41, finfo := s.base, phase := .faulted }) ∧
    (s.base.toNat % align i.lt = 0 → 2 ^ s.params.aw < s.base.toNat + s.n.toNat * esize i.lt →
      exec i s = .next { s with status := 0x51, finfo := s.base, phase := .faulted }) ∧
    (s.base.toNat % align i.lt = 0 → s.base.toNat + s.n.toNat * esize i.lt ≤ 2 ^ s.params.aw →
      (∃ a, InFootprint i.lt s a ∧ ¬ s.params.backed a) →
      exec i s = .next { s with status := 0x61, finfo := s.base, phase := .faulted })

/-- Faults are precise: a command started on an engine that is not FAULTED either meets every precondition and completes with the engine
not FAULTED, or faults with a cause from 1 to 6 having changed STATUS, FINFO and PHASE alone (60_exceptions.md R142, R141). -/
def Obligations.FaultsArePrecise : Prop :=
  ∀ (i : Instr) (s : State), faulted s = false →
    (Accepts i.lt s → ∃ t, exec i s = .next t ∧ t.status = s.status ∧ t.finfo = s.finfo ∧ faulted t = false) ∧
    (¬ Accepts i.lt s → ∃ c info, exec i s = .next (raiseFault c info s) ∧ faulted (raiseFault c info s) = true ∧
      1 ≤ (statusCause (raiseFault c info s).status).toNat ∧ (statusCause (raiseFault c info s).status).toNat ≤ 6)

/-! ## The commands (41_bitrev.md to 45_inverse.md) -/

/-- BITREV completes on every accepted buffer of `2^(b+1)` elements and leaves at pair `p` the pair that stood at `rev_b(p)`, bit for bit
(41_bitrev.md R87). -/
def Obligations.BitrevPermutesPairs : Prop :=
  ∀ (lt : LaneType) (s : State) (b : Nat), Accepts lt s → s.n.toNat = 2 ^ (b + 1) →
    ∃ t, exec (.bitrev lt) s = .next t ∧ CommandFrame lt s t ∧
      ∀ p, p < 2 ^ b → elem lt t (2 * p) = elem lt s (2 * rev b p) ∧
        elem lt t (2 * p + 1) = elem lt s (2 * rev b p + 1)

/-- Two BITREV commands with the same N, BASE and LT leave every byte of data memory as it was (41_bitrev.md R88). -/
def Obligations.BitrevTwiceRestores : Prop :=
  ∀ (lt : LaneType) (s : State), Accepts lt s →
    ∃ t u, exec (.bitrev lt) s = .next t ∧ exec (.bitrev lt) t = .next u ∧
      ∀ a, memByte u.mem a = memByte s.mem a

/-- CFFT completes on every accepted buffer of `2^(b+1)` elements, changes nothing outside the footprint, and leaves in every element what
the bit reversal, the `floor(b/2)` radix-4 stages and, for odd `b`, the radix-2 stage compute from the buffer (43_cfft.md R101 to R106;
up to the choice of a NaN, 40_lane_ops.md R76). -/
def Obligations.CfftComputesItsStages : Prop :=
  ∀ (lt : LaneType) (s : State) (b : Nat), Accepts lt s → s.n.toNat = 2 ^ (b + 1) →
    ∃ t, exec (.cfft lt) s = .next t ∧ CommandFrame lt s t ∧
      ∀ k, k < s.n.toNat → Alike lt (elem lt t k) (Reference.cfft lt s.params.flush b (elem lt s) k)

/-- UNTANGLE completes on every accepted buffer of `2^e` elements, changes nothing outside the footprint, and leaves in elements 0 and 1
the sum and difference of DC/Nyquist, in each bin pair the untangled pair, in the middle bin the conjugate, whose real part keeps its
bits (44_realfft.md R117 to R120; up to the choice of a NaN). -/
def Obligations.UntangleResult : Prop :=
  ∀ (lt : LaneType) (s : State) (e : Nat), Accepts lt s → s.n.toNat = 2 ^ e →
    ∃ t, exec (.untangle lt) s = .next t ∧ CommandFrame lt s t ∧
      (∀ k, k < s.n.toNat → Alike lt (elem lt t k) (Reference.untangle lt s.params.flush e (elem lt s) k)) ∧
      (2 ≤ e → elem lt t (2 ^ (e - 1)) = elem lt s (2 ^ (e - 1)))

/-- INVPREP completes on every accepted buffer of `2^e` elements, changes nothing outside the footprint, and leaves elements 0 and 1 times
`2^(-e)` and in every other bin the mirror bin times `2^(1-e)`, no sign changed (45_inverse.md R127; up to the choice of a NaN). -/
def Obligations.InvprepResult : Prop :=
  ∀ (lt : LaneType) (s : State) (e : Nat), Accepts lt s → s.n.toNat = 2 ^ e →
    ∃ t, exec (.invprep lt) s = .next t ∧ CommandFrame lt s t ∧
      ∀ k, k < s.n.toNat → Alike lt (elem lt t k) (Reference.invprep lt s.params.flush e (elem lt s) k)

/-- RFFT completes on every accepted buffer of `2^e` elements, changes nothing outside the footprint, and leaves in every element what the
complex transform and then the untangle pass compute from the buffer (44_realfft.md R115; up to the choice of a NaN). -/
def Obligations.RfftResult : Prop :=
  ∀ (lt : LaneType) (s : State) (e : Nat), Accepts lt s → s.n.toNat = 2 ^ e →
    ∃ t, exec (.rfft lt) s = .next t ∧ CommandFrame lt s t ∧
      ∀ k, k < s.n.toNat → Alike lt (elem lt t k) (Reference.rfft lt s.params.flush e (elem lt s) k)

/-- IRFFT completes on every accepted buffer of `2^e` elements, changes nothing outside the footprint, and leaves in every element what the
preparation pass, the untangle pass and the complex transform compute from the buffer (45_inverse.md R125; up to the choice of a NaN). -/
def Obligations.IrfftResult : Prop :=
  ∀ (lt : LaneType) (s : State) (e : Nat), Accepts lt s → s.n.toNat = 2 ^ e →
    ∃ t, exec (.irfft lt) s = .next t ∧ CommandFrame lt s t ∧
      ∀ k, k < s.n.toNat → Alike lt (elem lt t k) (Reference.irfft lt s.params.flush e (elem lt s) k)

/-- RFFT leaves data memory exactly as CFFT followed by UNTANGLE with the same N, BASE and LT (44_realfft.md R115; 30_encoding.md R52). Where
a NaN is produced the equality of its bits is the model's choice and no rule of the spec: both runs are given the same NaN draws, numbered
by a counter of the state (log entry 4; 40_lane_ops.md R76 lets no claim depend on which NaN appears). -/
def Obligations.RfftIsCfftThenUntangle : Prop :=
  ∀ (lt : LaneType) (s : State), Accepts lt s →
    ∃ t u v, exec (.rfft lt) s = .next t ∧ exec (.cfft lt) s = .next u ∧ exec (.untangle lt) u = .next v ∧ t.mem = v.mem

/-- IRFFT leaves data memory exactly as INVPREP, UNTANGLE and CFFT with the same N, BASE and LT (45_inverse.md R125; 30_encoding.md R52).
Where a NaN is produced the equality of its bits is the model's choice and no rule of the spec: both runs are given the same NaN draws,
numbered by a counter of the state (log entry 4; 40_lane_ops.md R76 lets no claim depend on which NaN appears). -/
def Obligations.IrfftIsItsThreePasses : Prop :=
  ∀ (lt : LaneType) (s : State), Accepts lt s →
    ∃ t u v w, exec (.irfft lt) s = .next t ∧ exec (.invprep lt) s = .next u ∧ exec (.untangle lt) u = .next v ∧
      exec (.cfft lt) v = .next w ∧ t.mem = w.mem

/-- CFFT of `n = 2` elements, one point, runs no stage: every byte of data memory keeps its bit pattern (43_cfft.md R109). -/
def Obligations.CfftOfOnePointIsIdentity : Prop :=
  ∀ (lt : LaneType) (s : State), Accepts lt s → s.n = 2 →
    ∃ t, exec (.cfft lt) s = .next t ∧ ∀ a, memByte t.mem a = memByte s.mem a

/-- Whatever a command meets, it never changes N, BASE, the parameters or the host's lists, and no byte outside
`[BASE, BASE + n*ESIZE)` (20_memory.md R35; 10_state.md R13, R15): every next state of every command in every state. -/
def Obligations.CommandWritesFootprintOnly : Prop :=
  ∀ (i : Instr) (s t : State), exec i s = .next t →
    t.params = s.params ∧ t.n = s.n ∧ t.base = s.base ∧ t.port = s.port ∧ t.reads = s.reads ∧
    ∀ a, ¬ InFootprint i.lt s a → memByte t.mem a = memByte s.mem a

/-- The result of a command is a function of N, BASE, LT, the parameters, the footprint's initial contents and the NaN draws, and of
nothing else: two states that agree on those, and may differ in every internal register, in the host's lists, in FINFO's history and
in every byte outside the footprint, end with the same footprint (10_state.md R24; 20_memory.md R35; 43_cfft.md R111). That equal draws give equal NaNs is the model's choice,
log entry 4. -/
def Obligations.ResultDependsOnFootprintOnly : Prop :=
  ∀ (i : Instr) (s t : State), Accepts i.lt s → t.params = s.params → t.n = s.n → t.base = s.base →
    faulted t = false → t.draws = s.draws → (∀ a, InFootprint i.lt s a → memByte t.mem a = memByte s.mem a) →
    ∃ s' t', exec i s = .next s' ∧ exec i t = .next t' ∧
      (∀ a, InFootprint i.lt s a → memByte t'.mem a = memByte s'.mem a) ∧ t'.draws = s'.draws

/-- Lane `l` of the result of a V4F32 command depends only on lane `l` of the buffer and is what the F32 form of the command gives on a
buffer that holds lane `l` alone, up to the NaN draw (40_lane_ops.md R79). -/
def Obligations.LanesAreIndependent : Prop :=
  ∀ (i : Instr) (s u : State) (l : Nat), l < 4 → Accepts .v4f32 s → Accepts .f32 u → u.n = s.n →
    u.params.flush = s.params.flush →
    (∀ k, k < s.n.toNat → LaneAlike binary32 ((elem .v4f32 s k).getD l 0) ((elem .f32 u k).getD 0 0)) →
    ∃ t v, exec (withLt i .v4f32) s = .next t ∧ exec (withLt i .f32) u = .next v ∧
      ∀ k, k < s.n.toNat → LaneAlike binary32 ((elem .v4f32 t k).getD l 0) ((elem .f32 v k).getD 0 0)

/-! ## The butterflies (43_cfft.md, 44_realfft.md) -/

/-- `Bfly2(i, j)` on two points at disjoint elements: `a' = a + t`, `b' = a - t` with `tr = VWR*br - VWI*bi`, `ti = VWR*bi + VWI*br`, every
other element of the buffer unchanged (43_cfft.md R103; up to the choice of a NaN). -/
def Obligations.ButterflyOfTwo : Prop :=
  ∀ (lt : LaneType) (c : Ctx) (vwr vwi : LaneGroup lt) (i j : Nat) (w : Work),
    vwr.length = laneCount lt → vwi.length = laneCount lt → i + 1 < j ∨ j + 1 < i →
    let x := element lt w.mem c.base
    let y := element lt (bfly2 lt c (vwr, vwi) i j w).2.mem c.base
    let tr := mulSub lt c.flush vwr (x j) vwi (x (j + 1))
    let ti := mulAdd lt c.flush vwr (x (j + 1)) vwi (x j)
    Alike lt (y j) (sub lt c.flush (x i) tr) ∧ Alike lt (y (j + 1)) (sub lt c.flush (x (i + 1)) ti) ∧
    Alike lt (y i) (add lt c.flush (x i) tr) ∧ Alike lt (y (i + 1)) (add lt c.flush (x (i + 1)) ti) ∧
    ∀ k, k ≠ i → k ≠ i + 1 → k ≠ j → k ≠ j + 1 → y k = x k

/-- `DcNyquist()`: elements 0 and 1 become their sum and their difference, every other element unchanged (44_realfft.md R118; up to the
choice of a NaN). -/
def Obligations.DcNyquistResult : Prop :=
  ∀ (lt : LaneType) (c : Ctx) (w : Work),
    let x := element lt w.mem c.base
    let y := element lt (dcNyquist lt c w).2.mem c.base
    Alike lt (y 0) (add lt c.flush (x 0) (x 1)) ∧ Alike lt (y 1) (sub lt c.flush (x 0) (x 1)) ∧
    ∀ k, 2 ≤ k → y k = x k

/-- `Radix4Stage(n, MMAX)` on `n = 2^e` elements with `2*MMAX < n`, `MMAX = 2^d`: every element of the buffer becomes what its one butterfly
gives, with the twiddle of its index after `M/2` advances and that twiddle's square (43_cfft.md R105, R106; up to the choice of a NaN). -/
def Obligations.Radix4StageResult : Prop :=
  ∀ (lt : LaneType) (c : Ctx) (d e : Nat) (w : Work), 1 ≤ d → d + 1 < e → c.n = 2 ^ e →
    ∀ k, k < c.n → Alike lt (element lt (radix4Stage lt c (2 ^ d) w).2.mem c.base k)
      (stage4 lt c.flush (2 ^ d) (element lt w.mem c.base) k)

/-- `Radix2Stage(n, MMAX)` on `n = 2^e` elements with `MMAX = 2^d < n`: every element of the buffer becomes what its one butterfly gives,
with the twiddle of its index after `M/2` advances (43_cfft.md R103, R104; up to the choice of a NaN). -/
def Obligations.Radix2StageResult : Prop :=
  ∀ (lt : LaneType) (c : Ctx) (d e : Nat) (w : Work), 1 ≤ d → d < e → c.n = 2 ^ e →
    ∀ k, k < c.n → Alike lt (element lt (radix2Stage lt c (2 ^ d) w).2.mem c.base k)
      (stage2 lt c.flush (2 ^ d) (element lt w.mem c.base) k)

/-! ## The lane datapath (40_lane_ops.md) -/

/-- Addition, subtraction and multiplication of finite values, and the conversion of a finite binary64 to binary32, return the exact real
result rounded once: nearest, ties to even, infinity beyond the largest finite value and half a unit (40_lane_ops.md R69, R73, R74, R75).
The exact sum and product are whole numbers of quanta. -/
def Obligations.ArithmeticRoundsCorrectly : Prop :=
  (∀ f ∈ [binary32, binary64], ∀ (d : Word64) (a b : BitVec f.width), Finite f a → Finite f b →
    RoundedTo f (value f a + value f b) 0 (addF f d a b) ∧
    RoundedTo f (value f a - value f b) 0 (subF f d a b) ∧
    RoundedTo f (value f a * value f b) (quantumExp f) (mulF f d a b) ∧
    (isNeg f (mulF f d a b) = true ↔ isNeg f a ≠ isNeg f b)) ∧
  (∀ c : Word64, Finite binary64 c →
    RoundedTo binary32 (value binary64 c) (1074 - 149) (narrowF binary32 c) ∧
    isNeg binary32 (narrowF binary32 c) = isNeg binary64 c)

/-- The rows for sums and differences of the table of 40_lane_ops.md R80, with an infinity as either operand (R69). -/
def Obligations.SpecialSums : Prop :=
  ∀ f ∈ [binary32, binary64], ∀ d : Word64,
    let pz := packMag f false 0
    let nz := packMag f true 0
    addF f d pz pz = pz ∧ addF f d pz nz = pz ∧ addF f d nz pz = pz ∧ addF f d nz nz = nz ∧
    subF f d pz pz = pz ∧ subF f d nz nz = pz ∧ subF f d nz pz = nz ∧ subF f d pz nz = pz ∧
    (∀ x : BitVec f.width, Finite f x → isZero f x = false →
      addF f d x (negate f x) = pz ∧ addF f d (negate f x) x = pz ∧ subF f d x x = pz ∧
      (∀ s, addF f d x (packMag f s 0) = x ∧ addF f d (packMag f s 0) x = x ∧ subF f d x (packMag f s 0) = x ∧
        subF f d (packMag f s 0) x = negate f x)) ∧
    (∀ (s : Bool) (y : BitVec f.width), Finite f y ∨ y = infOf f s →
      addF f d (infOf f s) y = infOf f s ∧ addF f d y (infOf f s) = infOf f s) ∧
    (∀ (s : Bool) (y : BitVec f.width), Finite f y ∨ y = infOf f (!s) →
      subF f d (infOf f s) y = infOf f s ∧ subF f d y (infOf f s) = infOf f (!s)) ∧
    (∀ s : Bool, IsQuietNan f (addF f d (infOf f s) (infOf f (!s))) ∧ IsQuietNan f (subF f d (infOf f s) (infOf f s)))

/-- The rows for products of the table of 40_lane_ops.md R80, in both orders of the operands. A product by `2^(-e)` is `y / 2^e` rounded
once, and exact where that is at least the least normal number. -/
def Obligations.SpecialProducts : Prop :=
  ∀ f ∈ [binary32, binary64], ∀ d : Word64,
    (∀ (s : Bool) (y : BitVec f.width), Finite f y →
      mulF f d (packMag f s 0) y = packMag f (s ^^ isNeg f y) 0 ∧
      mulF f d y (packMag f s 0) = packMag f (isNeg f y ^^ s) 0) ∧
    (∀ (s : Bool) (y : BitVec f.width), isNan f y = false → isZero f y = false →
      mulF f d (infOf f s) y = infOf f (s ^^ isNeg f y) ∧ mulF f d y (infOf f s) = infOf f (isNeg f y ^^ s)) ∧
    (∀ s t : Bool, IsQuietNan f (mulF f d (packMag f s 0) (infOf f t)) ∧
      IsQuietNan f (mulF f d (infOf f t) (packMag f s 0))) ∧
    (∀ y : BitVec f.width, isNan f y = false →
      mulF f d (pow2Neg f 0) y = y ∧ mulF f d y (pow2Neg f 0) = y ∧
      mulF f d (negate f (pow2Neg f 0)) y = negate f y ∧ mulF f d y (negate f (pow2Neg f 0)) = negate f y) ∧
    (∀ (e : Nat) (y : BitVec f.width), e + 2 < 2 ^ (f.width - f.frac - 2) → Finite f y →
      ∀ p ∈ [mulF f d (pow2Neg f e) y, mulF f d y (pow2Neg f e)],
        RoundedTo f (value f y) e p ∧
        (2 ^ f.frac * 2 ^ e ≤ (value f y).natAbs → value f p * 2 ^ e = value f y))

/-- A NaN operand or an invalid operation gives a quiet NaN, with and without FLUSH_SUBNORMALS; every quiet NaN of the format is some
draw's; and each lane of a lane operation depends on that lane of the operands alone (40_lane_ops.md R76; the draw is the free value of
log entry 4). -/
def Obligations.NanOperandsGiveQuietNans : Prop :=
  (∀ f ∈ [binary32, binary64], ∀ (on : Bool) (d : Word64) (a b : BitVec f.width),
    (isNan f a = true ∨ isNan f b = true →
      IsQuietNan f (flushed f on (addF f) d a b) ∧ IsQuietNan f (flushed f on (subF f) d a b) ∧
      IsQuietNan f (flushed f on (mulF f) d a b)) ∧
    (isInf f a = true → isInf f b = true →
      (isNeg f a ≠ isNeg f b → IsQuietNan f (flushed f on (addF f) d a b)) ∧
      (isNeg f a = isNeg f b → IsQuietNan f (flushed f on (subF f) d a b))) ∧
    (isZero f a = true → isInf f b = true →
      IsQuietNan f (flushed f on (mulF f) d a b) ∧ IsQuietNan f (flushed f on (mulF f) d b a))) ∧
  (∀ f ∈ [binary32, binary64], ∀ x : BitVec f.width, IsQuietNan f x → ∃ d, quietNan f d = x) ∧
  (∀ (lt : LaneType) (op : Word64 → Lane lt → Lane lt → Lane lt) (d l : Nat) (a b a' b' : LaneGroup lt),
    a.length = laneCount lt → b.length = laneCount lt → a'.length = laneCount lt → b'.length = laneCount lt →
    a[l]? = a'[l]? → b[l]? = b'[l]? → (laneMap op d a b)[l]? = (laneMap op d a' b')[l]?)

/-- FLUSH_SUBNORMALS: when it is on, a lane operation is the operation on operands whose subnormals are zeros of the same sign, and no
result is subnormal; when it is off, it is the operation itself (40_lane_ops.md R77). -/
def Obligations.FlushReplacesSubnormals : Prop :=
  ∀ f ∈ [binary32, binary64], ∀ (op : Word64 → BitVec f.width → BitVec f.width → BitVec f.width) (d : Word64)
    (a b : BitVec f.width),
    flushed f false op d a b = op d a b ∧
    isSubnormal f (flushed f true op d a b) = false ∧
    (isSubnormal f a = true → flushed f true op d a b = flushed f true op d (packMag f (isNeg f a) 0) b) ∧
    (isSubnormal f b = true → flushed f true op d a b = flushed f true op d a (packMag f (isNeg f b) 0)) ∧
    (isSubnormal f a = false → isSubnormal f b = false →
      (isSubnormal f (op d a b) = false → flushed f true op d a b = op d a b) ∧
      (isSubnormal f (op d a b) = true → flushed f true op d a b = packMag f (isNeg f (op d a b)) 0))

/-- A broadcast puts one value in every lane, the binary64 value itself for F64 and its rounding to binary32 otherwise; the constants 0.5,
-1.0 and `2^(-e)`, `e <= 30`, are exact in every lane type (40_lane_ops.md R75, R82). -/
def Obligations.ConstantsAreExact : Prop :=
  (∀ v : Word64, bcast .f64 v = [v] ∧ bcast .f32 v = [narrowF binary32 v] ∧
    bcast .v4f32 v = [narrowF binary32 v, narrowF binary32 v, narrowF binary32 v, narrowF binary32 v]) ∧
  (∀ lt : LaneType, bcast lt const64Half = List.replicate (laneCount lt) (pow2Neg (laneFmt lt) 1)) ∧
  (∀ lt : LaneType, bcast lt const64MinusOne = List.replicate (laneCount lt) (negate (laneFmt lt) (pow2Neg (laneFmt lt) 0))) ∧
  (∀ e ∈ List.range 31, ∀ lt : LaneType,
    bcast lt (const64Pow e) = List.replicate (laneCount lt) (pow2Neg (laneFmt lt) e))

/-- A load of an element returns the lane group the latest store to it put there, and a store leaves every other element and every byte
outside its own element unchanged (40_lane_ops.md R70, R71; 20_memory.md R42). -/
def Obligations.LoadAfterStore : Prop :=
  ∀ (lt : LaneType) (m : Memory) (base k : Nat) (v : LaneGroup lt), v.length = laneCount lt →
    element lt (putElement lt m base k v) base k = v ∧
    (∀ k', k' ≠ k → element lt (putElement lt m base k v) base k' = element lt m base k') ∧
    (∀ a, (a < elemAddr lt base k ∨ elemAddr lt base k + esize lt ≤ a) →
      memByte (putElement lt m base k v) a = memByte m a)

/-- Little-endian memory: `MemRead` after `MemWrite` of `k` bytes at the same address gives the value's low `8k` bits, and byte `a + t` holds
bits `8t+7:8t` (20_memory.md R31). -/
def Obligations.MemoryIsLittleEndian : Prop :=
  ∀ (m : Memory) (a k v : Nat),
    memRead (memWrite m a k v) a k = v % 256 ^ k ∧
    (∀ t, t < k → (memByte (memWrite m a k v) (a + t)).toNat = v / 256 ^ t % 256) ∧
    memRead m a k = ∑ t ∈ Finset.range k, (memByte m (a + t)).toNat * 256 ^ t

/-- From `TWINIT(q)`, `1 <= q <= 30`, the twiddle is (1, +0), and the first advance gives exactly `WRE = 1.0 - WPRE` and, where `WPIM` is not
a zero, `WIM = WPIM`; for `q = 1` it gives (-1.0, +0.0) (42_twiddle.md R93, R94). -/
def Obligations.FirstTwiddleAdvance : Prop :=
  ∀ q, 1 ≤ q → q ≤ 30 →
    (twInit q).wre = const64One ∧ (twInit q).wim = 0 ∧
    (twAdv (twInit q)).wre = fsub64 const64One (twInit q).wpre ∧
    (isZero binary64 (twInit q).wpim = false → (twAdv (twInit q)).wim = (twInit q).wpim) ∧
    (q = 1 → twAdv (twInit q) = { twInit q with wre := const64MinusOne, wim := 0 })

/-! ## The whole machine -/

/-- The invariant holds right after reset, on every instance (10_state.md R26; that the counters are within their width then rests on log
entry 6). -/
def Obligations.InvariantAtReset : Prop := ∀ p : Params, Inv (State.resetOf p)

/-- Every step keeps the invariant: memory stays in canonical form inside the backed space, BASE within AW bits,
STATUS is 0 or one of the six records with its reserved bits 0, FINFO and PHASE agree with it and the frozen N and BASE explain it, the
counters stay within their width, by log entry 7 (10_state.md R15 to R19, R28; 60_exceptions.md R136, R141; 20_memory.md R35 to R37). -/
def Obligations.StepKeepsInvariant : Prop :=
  ∀ s t : State, Inv s → step s = .next t → Inv t

/-- No step changes the instance's parameters (10_state.md R25; log entry 1). -/
def Obligations.ParametersNeverChange : Prop := ∀ s t : State, step s = .next t → t.params = s.params

/-! ## The twiddle unit (42_twiddle.md) and the layout of an element (20_memory.md) -/

/-- The rows `S[0]` to `S[30]` of the ROM, as the table of 42_twiddle.md R92 lists them. -/
def Obligations.SineRomRows : Prop :=
  (List.range 31).map sine =
    [0x0000000000000000, 0x3FF0000000000000, 0x3FE6A09E667F3BCD, 0x3FD87DE2A6AEA963, 0x3FC8F8B83C69A60B,
     0x3FB917A6BC29B42C, 0x3FA91F65F10DD814, 0x3F992155F7A3667E, 0x3F8921D1FCDEC784, 0x3F7921F0FE670071,
     0x3F6921F8BECCA4BA, 0x3F5921FAAEE6472E, 0x3F4921FB2AECB360, 0x3F3921FB49EE4EA6, 0x3F2921FB51AEB57C,
     0x3F1921FB539ECF31, 0x3F0921FB541AD59E, 0x3EF921FB5439D73A, 0x3EE921FB544197A1, 0x3ED921FB544387BA] ++
    [0x3EC921FB544403C1, 0x3EB921FB544422C2, 0x3EA921FB54442A83, 0x3E9921FB54442C73, 0x3E8921FB54442CEF,
     0x3E7921FB54442D0E, 0x3E6921FB54442D16, 0x3E5921FB54442D18, 0x3E4921FB54442D18, 0x3E3921FB54442D18,
     0x3E2921FB54442D18]

/-- Each row `S[k]` of the ROM is a finite binary64 number none is nearer to `sin(pi / 2^k)` than (42_twiddle.md R92). A quantum of
binary64 is `2^(-1074)`. -/
def Obligations.SineRomIsNearest : Prop :=
  ∀ k, k ≤ 30 → Finite binary64 (sine k) ∧ ∀ c : Word64, Finite binary64 c →
    |(value binary64 (sine k) : ℝ) - Real.sin (Real.pi / 2 ^ k) * 2 ^ 1074|
      ≤ |(value binary64 c : ℝ) - Real.sin (Real.pi / 2 ^ k) * 2 ^ 1074|

/-- `TWINIT(q)`, `1 <= q <= 30`: WPRE = 2.0 * (S[q] * S[q]), each product rounded once and the doubling exact, WPIM = S[q-1] with its sign
inverted, WRE = 1.0, WIM = +0.0; with the corner cases `q` = 1, 2 and the worked example `q` = 3 (42_twiddle.md R93). No NaN draw
matters. -/
def Obligations.TwiddleInitFormulas : Prop :=
  (∀ (q : Nat) (d : Word64), 1 ≤ q → q ≤ 30 →
    (twInit q).wre = 0x3FF0000000000000 ∧ (twInit q).wim = 0x0000000000000000 ∧
    (twInit q).wpre = mulF binary64 d 0x4000000000000000 (mulF binary64 d (sine q) (sine q)) ∧
    value binary64 (twInit q).wpre = 2 * value binary64 (mulF binary64 d (sine q) (sine q)) ∧
    (twInit q).wpim = negate binary64 (sine (q - 1))) ∧
  (twInit 1).wpre = 0x4000000000000000 ∧ (twInit 1).wpim = 0x8000000000000000 ∧
  (twInit 2).wpre = 0x3FF0000000000001 ∧ (twInit 2).wpim = 0xBFF0000000000000 ∧
  (twInit 3).wpre = 0x3FD2BEC333018867 ∧ (twInit 3).wpim = 0xBFE6A09E667F3BCD

/-- `TWADV` and `TWSQ` on any registers: WRE becomes `(r - r*WPRE) - m*WPIM` and WIM `(m - m*WPRE) + r*WPIM` of the old pair `(r, m)`, WPRE
and WPIM stay, and the square is `(r*r - m*m, 2*(r*m))`, each operation rounding once and none flushing (42_twiddle.md R94, R95, R91), up
to the choice of a NaN. Where all four registers are finite and below 2.5 in magnitude no overflow and no NaN arises (R91), and the
equalities are bit for bit. -/
def Obligations.TwiddleUnitFormulas : Prop :=
  ∀ (t : Rotor) (d : Word64),
    let re := subF binary64 d (subF binary64 d t.wre (mulF binary64 d t.wre t.wpre)) (mulF binary64 d t.wim t.wpim)
    let im := addF binary64 d (subF binary64 d t.wim (mulF binary64 d t.wim t.wpre)) (mulF binary64 d t.wre t.wpim)
    let re2 := subF binary64 d (mulF binary64 d t.wre t.wre) (mulF binary64 d t.wim t.wim)
    let im2 := mulF binary64 d 0x4000000000000000 (mulF binary64 d t.wre t.wim)
    (twAdv t).wpre = t.wpre ∧ (twAdv t).wpim = t.wpim ∧
    LaneAlike binary64 (twAdv t).wre re ∧ LaneAlike binary64 (twAdv t).wim im ∧
    LaneAlike binary64 (twSqRe t) re2 ∧ LaneAlike binary64 (twSqIm t) im2 ∧
    ((∀ x ∈ [t.wre, t.wim, t.wpre, t.wpim], magOf binary64 x < 0x4004000000000000) →
      (twAdv t).wre = re ∧ (twAdv t).wim = im ∧ twSqRe t = re2 ∧ twSqIm t = im2 ∧
      ∀ y ∈ [re, im, re2, im2], Finite binary64 y)

/-- The worked values of the twiddle unit: the twiddles of `q` = 3 after 1, 2 and 3 advances, and the square after 1 (42_twiddle.md R94,
R95); the square at (1, +0) is (1, +0). -/
def Obligations.TwiddleWorkedValues : Prop :=
  ((rotor 3 1).wre, (rotor 3 1).wim) = (0x3FE6A09E667F3BCC, 0xBFE6A09E667F3BCD) ∧
  ((rotor 3 2).wre, (rotor 3 2).wim) = (0xBCA8000000000000, 0xBFF0000000000000) ∧
  ((rotor 3 3).wre, (rotor 3 3).wim) = (0xBFE6A09E667F3BCE, 0xBFE6A09E667F3BCB) ∧
  (twSqRe (rotor 3 1), twSqIm (rotor 3 1)) = (0xBCB0000000000000, 0xBFF0000000000000) ∧
  (twSqRe (rotor 3 0), twSqIm (rotor 3 0)) = (0x3FF0000000000000, 0x0000000000000000)

/-- Lane `l` of element `k` is the number of the lane format whose bytes stand at `BASE + k*ESIZE + l*W/8`, little-endian: in V4F32 the
binary32 at `EA(k) + 4*l`, bits `32l+31:32l` of the element; in F32 and F64 the element itself (20_memory.md R32, R33; 40_lane_ops.md
R70). -/
def Obligations.ElementLayout : Prop :=
  ∀ (m : Memory) (base k : Nat),
    element .f32 m base k = [BitVec.ofNat 32 (memRead m (base + k * 4) 4)] ∧
    element .f64 m base k = [BitVec.ofNat 64 (memRead m (base + k * 8) 8)] ∧
    (element .v4f32 m base k).length = 4 ∧
    ∀ l, l < 4 →
      (element .v4f32 m base k)[l]? = some (BitVec.ofNat 32 (memRead m (base + k * 16 + 4 * l) 4)) ∧
      (element .v4f32 m base k)[l]? = some (BitVec.ofNat 32 (memRead m (base + k * 16) 16 / 2 ^ (32 * l)))
end

