-- ==== Sys2Proof/Laws/State.lean ====
section
/-! SUPPORT. One lemma per field per state update, each true by unfolding once, so that no later proof unfolds an update. -/

namespace Sys2Proof.Machine

/-! ## Writes of the host registers (10_state.md R29) -/

@[simp] theorem setN_params (v : Nat) (s : State) : (setN v s).params = s.params := rfl
@[simp] theorem setN_n (v : Nat) (s : State) : (setN v s).n = BitVec.ofNat 32 v := rfl
@[simp] theorem setN_base (v : Nat) (s : State) : (setN v s).base = s.base := rfl
@[simp] theorem setN_status (v : Nat) (s : State) : (setN v s).status = s.status := rfl
@[simp] theorem setN_finfo (v : Nat) (s : State) : (setN v s).finfo = s.finfo := rfl
@[simp] theorem setN_phase (v : Nat) (s : State) : (setN v s).phase = s.phase := rfl
@[simp] theorem setN_cnt (v : Nat) (s : State) : (setN v s).cnt = s.cnt := rfl
@[simp] theorem setN_tw (v : Nat) (s : State) : (setN v s).tw = s.tw := rfl
@[simp] theorem setN_vr (v : Nat) (s : State) : (setN v s).vr = s.vr := rfl
@[simp] theorem setN_mem (v : Nat) (s : State) : (setN v s).mem = s.mem := rfl
@[simp] theorem setN_port (v : Nat) (s : State) : (setN v s).port = s.port := rfl
@[simp] theorem setN_reads (v : Nat) (s : State) : (setN v s).reads = s.reads := rfl
@[simp] theorem setN_draws (v : Nat) (s : State) : (setN v s).draws = s.draws := rfl
@[simp] theorem setN_epoch (v : Nat) (s : State) : (setN v s).epoch = s.epoch := rfl

@[simp] theorem setBase_params (v : Nat) (s : State) : (setBase v s).params = s.params := rfl
@[simp] theorem setBase_n (v : Nat) (s : State) : (setBase v s).n = s.n := rfl
@[simp] theorem setBase_base (v : Nat) (s : State) : (setBase v s).base = BitVec.ofNat 64 (v % 2 ^ s.params.aw) := rfl
@[simp] theorem setBase_status (v : Nat) (s : State) : (setBase v s).status = s.status := rfl
@[simp] theorem setBase_finfo (v : Nat) (s : State) : (setBase v s).finfo = s.finfo := rfl
@[simp] theorem setBase_phase (v : Nat) (s : State) : (setBase v s).phase = s.phase := rfl
@[simp] theorem setBase_cnt (v : Nat) (s : State) : (setBase v s).cnt = s.cnt := rfl
@[simp] theorem setBase_tw (v : Nat) (s : State) : (setBase v s).tw = s.tw := rfl
@[simp] theorem setBase_vr (v : Nat) (s : State) : (setBase v s).vr = s.vr := rfl
@[simp] theorem setBase_mem (v : Nat) (s : State) : (setBase v s).mem = s.mem := rfl
@[simp] theorem setBase_port (v : Nat) (s : State) : (setBase v s).port = s.port := rfl
@[simp] theorem setBase_reads (v : Nat) (s : State) : (setBase v s).reads = s.reads := rfl
@[simp] theorem setBase_draws (v : Nat) (s : State) : (setBase v s).draws = s.draws := rfl
@[simp] theorem setBase_epoch (v : Nat) (s : State) : (setBase v s).epoch = s.epoch := rfl

/-! ## The fault entry (60_exceptions.md R141) -/

@[simp] theorem raiseFault_params (c : Cause) (x : Word64) (s : State) : (raiseFault c x s).params = s.params := rfl
@[simp] theorem raiseFault_n (c : Cause) (x : Word64) (s : State) : (raiseFault c x s).n = s.n := rfl
@[simp] theorem raiseFault_base (c : Cause) (x : Word64) (s : State) : (raiseFault c x s).base = s.base := rfl
@[simp] theorem raiseFault_status (c : Cause) (x : Word64) (s : State) : (raiseFault c x s).status = statusOf c := rfl
@[simp] theorem raiseFault_finfo (c : Cause) (x : Word64) (s : State) : (raiseFault c x s).finfo = x := rfl
@[simp] theorem raiseFault_phase (c : Cause) (x : Word64) (s : State) : (raiseFault c x s).phase = .faulted := rfl
@[simp] theorem raiseFault_cnt (c : Cause) (x : Word64) (s : State) : (raiseFault c x s).cnt = s.cnt := rfl
@[simp] theorem raiseFault_tw (c : Cause) (x : Word64) (s : State) : (raiseFault c x s).tw = s.tw := rfl
@[simp] theorem raiseFault_vr (c : Cause) (x : Word64) (s : State) : (raiseFault c x s).vr = s.vr := rfl
@[simp] theorem raiseFault_mem (c : Cause) (x : Word64) (s : State) : (raiseFault c x s).mem = s.mem := rfl
@[simp] theorem raiseFault_port (c : Cause) (x : Word64) (s : State) : (raiseFault c x s).port = s.port := rfl
@[simp] theorem raiseFault_reads (c : Cause) (x : Word64) (s : State) : (raiseFault c x s).reads = s.reads := rfl
@[simp] theorem raiseFault_draws (c : Cause) (x : Word64) (s : State) : (raiseFault c x s).draws = s.draws := rfl
@[simp] theorem raiseFault_epoch (c : Cause) (x : Word64) (s : State) : (raiseFault c x s).epoch = s.epoch := rfl

/-! ## The internal registers unspecified (10_state.md R24): everything else stays -/

@[simp] theorem forgetInternal_params (s : State) : (forgetInternal s).params = s.params := rfl
@[simp] theorem forgetInternal_n (s : State) : (forgetInternal s).n = s.n := rfl
@[simp] theorem forgetInternal_base (s : State) : (forgetInternal s).base = s.base := rfl
@[simp] theorem forgetInternal_status (s : State) : (forgetInternal s).status = s.status := rfl
@[simp] theorem forgetInternal_finfo (s : State) : (forgetInternal s).finfo = s.finfo := rfl
@[simp] theorem forgetInternal_phase (s : State) : (forgetInternal s).phase = s.phase := rfl
@[simp] theorem forgetInternal_mem (s : State) : (forgetInternal s).mem = s.mem := rfl
@[simp] theorem forgetInternal_port (s : State) : (forgetInternal s).port = s.port := rfl
@[simp] theorem forgetInternal_reads (s : State) : (forgetInternal s).reads = s.reads := rfl
@[simp] theorem forgetInternal_draws (s : State) : (forgetInternal s).draws = s.draws := rfl
@[simp] theorem forgetInternal_epoch (s : State) : (forgetInternal s).epoch = s.epoch + 1 := rfl

/-! ## Reset (70_reset_and_hazards.md R160) -/

@[simp] theorem resetEngine_params (s : State) : (resetEngine s).params = s.params := rfl
@[simp] theorem resetEngine_n (s : State) : (resetEngine s).n = 0 := rfl
@[simp] theorem resetEngine_base (s : State) : (resetEngine s).base = 0 := rfl
@[simp] theorem resetEngine_status (s : State) : (resetEngine s).status = 0 := rfl
@[simp] theorem resetEngine_finfo (s : State) : (resetEngine s).finfo = 0 := rfl
@[simp] theorem resetEngine_phase (s : State) : (resetEngine s).phase = .idle := rfl
@[simp] theorem resetEngine_mem (s : State) : (resetEngine s).mem = s.mem := rfl
@[simp] theorem resetEngine_port (s : State) : (resetEngine s).port = s.port := rfl
@[simp] theorem resetEngine_reads (s : State) : (resetEngine s).reads = s.reads := rfl
@[simp] theorem resetEngine_draws (s : State) : (resetEngine s).draws = s.draws := rfl
@[simp] theorem resetEngine_epoch (s : State) : (resetEngine s).epoch = s.epoch + 1 := rfl

/-! ## The end of a command (10_state.md R24) -/

@[simp] theorem finish_params (w : Work) (s : State) : (finish w s).params = s.params := rfl
@[simp] theorem finish_n (w : Work) (s : State) : (finish w s).n = s.n := rfl
@[simp] theorem finish_base (w : Work) (s : State) : (finish w s).base = s.base := rfl
@[simp] theorem finish_status (w : Work) (s : State) : (finish w s).status = s.status := rfl
@[simp] theorem finish_finfo (w : Work) (s : State) : (finish w s).finfo = s.finfo := rfl
@[simp] theorem finish_phase (w : Work) (s : State) : (finish w s).phase = w.phase := rfl
@[simp] theorem finish_mem (w : Work) (s : State) : (finish w s).mem = w.mem := rfl
@[simp] theorem finish_port (w : Work) (s : State) : (finish w s).port = s.port := rfl
@[simp] theorem finish_reads (w : Work) (s : State) : (finish w s).reads = s.reads := rfl
@[simp] theorem finish_draws (w : Work) (s : State) : (finish w s).draws = w.draws := rfl
@[simp] theorem finish_epoch (w : Work) (s : State) : (finish w s).epoch = s.epoch + 1 := rfl

/-! ## Placing a command (log entry 2) -/

@[simp] theorem placeCommand_params (s : State) (v : Nat) : (placeCommand s v).params = s.params := rfl
@[simp] theorem placeCommand_n (s : State) (v : Nat) : (placeCommand s v).n = s.n := rfl
@[simp] theorem placeCommand_base (s : State) (v : Nat) : (placeCommand s v).base = s.base := rfl
@[simp] theorem placeCommand_status (s : State) (v : Nat) : (placeCommand s v).status = s.status := rfl
@[simp] theorem placeCommand_finfo (s : State) (v : Nat) : (placeCommand s v).finfo = s.finfo := rfl
@[simp] theorem placeCommand_phase (s : State) (v : Nat) : (placeCommand s v).phase = s.phase := rfl
@[simp] theorem placeCommand_cnt (s : State) (v : Nat) : (placeCommand s v).cnt = s.cnt := rfl
@[simp] theorem placeCommand_tw (s : State) (v : Nat) : (placeCommand s v).tw = s.tw := rfl
@[simp] theorem placeCommand_vr (s : State) (v : Nat) : (placeCommand s v).vr = s.vr := rfl
@[simp] theorem placeCommand_mem (s : State) (v : Nat) : (placeCommand s v).mem = s.mem := rfl
@[simp] theorem placeCommand_port (s : State) (v : Nat) : (placeCommand s v).port = .write 0 v :: s.port := rfl
@[simp] theorem placeCommand_reads (s : State) (v : Nat) : (placeCommand s v).reads = s.reads := rfl
@[simp] theorem placeCommand_draws (s : State) (v : Nat) : (placeCommand s v).draws = s.draws := rfl
@[simp] theorem placeCommand_epoch (s : State) (v : Nat) : (placeCommand s v).epoch = s.epoch := rfl

/-! ## The state right after reset (10_state.md R26) -/

@[simp] theorem resetOf_params (p : Params) : (State.resetOf p).params = p := rfl
@[simp] theorem resetOf_n (p : Params) : (State.resetOf p).n = 0 := rfl
@[simp] theorem resetOf_base (p : Params) : (State.resetOf p).base = 0 := rfl
@[simp] theorem resetOf_status (p : Params) : (State.resetOf p).status = 0 := rfl
@[simp] theorem resetOf_finfo (p : Params) : (State.resetOf p).finfo = 0 := rfl
@[simp] theorem resetOf_phase (p : Params) : (State.resetOf p).phase = .idle := rfl
@[simp] theorem resetOf_cnt (p : Params) : (State.resetOf p).cnt = Counters.zero := rfl
@[simp] theorem resetOf_tw (p : Params) : (State.resetOf p).tw = TwiddleRegs.zero := rfl
@[simp] theorem resetOf_vr (p : Params) : (State.resetOf p).vr = LaneRegs.zero := rfl
@[simp] theorem resetOf_mem (p : Params) : (State.resetOf p).mem = [] := rfl
@[simp] theorem resetOf_port (p : Params) : (State.resetOf p).port = [] := rfl
@[simp] theorem resetOf_reads (p : Params) : (State.resetOf p).reads = [] := rfl
@[simp] theorem resetOf_draws (p : Params) : (State.resetOf p).draws = 0 := rfl
@[simp] theorem resetOf_epoch (p : Params) : (State.resetOf p).epoch = 0 := rfl

/-! ## What a command reads of the state at its start -/

@[simp] theorem workOf_mem (s : State) : (workOf s).mem = s.mem := rfl
@[simp] theorem workOf_draws (s : State) : (workOf s).draws = s.draws := rfl
@[simp] theorem workOf_phase (s : State) : (workOf s).phase = .check := rfl
@[simp] theorem ctxOf_n (s : State) : (ctxOf s).n = s.n.toNat := rfl
@[simp] theorem ctxOf_base (s : State) : (ctxOf s).base = s.base.toNat := rfl
@[simp] theorem ctxOf_flush (s : State) : (ctxOf s).flush = s.params.flush := rfl

/-! ## FAULTED (10_state.md R16) -/

@[simp] theorem faulted_raiseFault (c : Cause) (x : Word64) (s : State) : faulted (raiseFault c x s) = true := by
  simp only [faulted, raiseFault_status]
  cases c <;> decide

@[simp] theorem faulted_forgetInternal (s : State) : faulted (forgetInternal s) = faulted s := rfl

@[simp] theorem faulted_finish (w : Work) (s : State) : faulted (finish w s) = faulted s := rfl

@[simp] theorem faulted_resetEngine (s : State) : faulted (resetEngine s) = false := by
  simp only [faulted, resetEngine_status]
  decide

@[simp] theorem faulted_setN (v : Nat) (s : State) : faulted (setN v s) = faulted s := rfl

@[simp] theorem faulted_setBase (v : Nat) (s : State) : faulted (setBase v s) = faulted s := rfl

/-- The counters the free values leave fit their width (10_state.md R19). -/
theorem countersFit_forgetInternal (s : State) :
    ∀ x ∈ [(forgetInternal s).cnt.i, (forgetInternal s).cnt.j, (forgetInternal s).cnt.m, (forgetInternal s).cnt.mmax,
      (forgetInternal s).cnt.istep, (forgetInternal s).cnt.k], x < 2 ^ (s.params.log2NMax + 3) := by
  intro x hx
  simp only [List.mem_cons, List.not_mem_nil, or_false] at hx
  rcases hx with rfl | rfl | rfl | rfl | rfl | rfl <;> exact Nat.mod_lt _ (by positivity)

end Sys2Proof.Machine
end

