-- ==== Sys2Proof/Laws/Command.lean ====
section
/-! SUPPORT. What the shared operations over whole states can do: the check sequence, a command, a host transaction, a step. -/

namespace Sys2Proof.Machine

/-! ## The check sequence (60_exceptions.md R137) -/

/-- A footprint meets a hole exactly if one of its bytes is not backed (20_memory.md R37). -/
theorem meetsHole_iff (p : Params) (lo hi : Nat) :
    meetsHole p lo hi = true ↔ ∃ a, lo ≤ a ∧ a < hi ∧ ¬ p.backed a := by
  simp only [meetsHole, List.any_eq_true, decide_eq_true_eq, Params.backed]
  constructor
  · rintro ⟨h, hm, hlt⟩
    refine ⟨max h.1 lo, by omega, by omega, fun hall => hall h hm ⟨by omega, by omega⟩⟩
  · rintro ⟨a, h1, h2, hn⟩
    push Not at hn
    obtain ⟨h, hm, h3, h4⟩ := hn
    exact ⟨h, hm, by omega⟩

/-- The bitwise size test on natural numbers: at least 2 and no bit in common with the predecessor means a power of two. -/
theorem and_pred_eq_zero_iff {n : Nat} (h : n ≠ 0) : n &&& (n - 1) = 0 ↔ ∃ e, n = 2 ^ e :=
  Nat.and_sub_one_eq_zero_iff_isPowerOfTwo h

/-- The size test of `CHECK` refuses exactly the sizes that are not legal (60_exceptions.md R139). -/
theorem badSize_iff (n : Word32) : badSize n = true ↔ ¬ LegalSize n := by
  have hlt := n.isLt
  by_cases h2 : n.toNat < 2
  · simp only [badSize, h2, decide_true, Bool.true_or, true_iff, LegalSize, not_exists, not_and]
    intro e he heq
    have : 2 ^ 1 ≤ 2 ^ e := Nat.pow_le_pow_right (by norm_num) he
    omega
  · have hn : (n &&& (n - 1)).toNat = n.toNat &&& (n.toNat - 1) := by
      rw [BitVec.toNat_and, BitVec.toNat_sub]
      congr 1
      have h1 : (1 : Word32).toNat = 1 := rfl
      rw [h1]
      omega
    have hz : n &&& (n - 1) = 0 ↔ n.toNat &&& (n.toNat - 1) = 0 := by
      rw [← hn]
      exact ⟨fun h => by rw [h]; rfl, fun h => BitVec.eq_of_toNat_eq (by rw [h]; rfl)⟩
    simp only [badSize, h2, decide_false, Bool.false_or, decide_eq_true_eq, ne_eq, hz,
      and_pred_eq_zero_iff (show n.toNat ≠ 0 by omega), LegalSize]
    refine not_congr ⟨fun ⟨e, he⟩ => ⟨e, ?_, he⟩, fun ⟨e, _, he⟩ => ⟨e, he⟩⟩
    rcases e with _ | e
    · simp at he; omega
    · omega

/-- The check sequence passes exactly if every precondition holds. -/
theorem checkFault_eq_none_iff (i : Instr) (s : State) (hf : faulted s = false) :
    checkFault i s = none ↔ Accepts i.lt s := by
  have hb := badSize_iff s.n
  have hm := meetsHole_iff s.params s.base.toNat (s.base.toNat + s.n.toNat * esize i.lt)
  constructor
  · intro h
    unfold checkFault at h
    split_ifs at h with h1 h2 h3 h4 h5 h6
    refine ⟨hf, by simpa using h1, not_not.1 (mt hb.2 h2), Nat.not_lt.1 h3, not_not.1 h4, Nat.not_lt.1 h5, ?_⟩
    intro a ha
    by_contra hn
    exact h6 (hm.2 ⟨a, ha.1, ha.2, hn⟩)
  · rintro ⟨-, h1, h2, h3, h4, h5, h6⟩
    unfold checkFault
    have hb' : badSize s.n = false := by
      rw [← Bool.not_eq_true]; exact fun h => hb.1 h h2
    have hm' : meetsHole s.params s.base.toNat (s.base.toNat + s.n.toNat * esize i.lt) = false := by
      rw [← Bool.not_eq_true]
      exact fun h => by obtain ⟨a, ha1, ha2, ha3⟩ := hm.1 h; exact ha3 (h6 a ⟨ha1, ha2⟩)
    simp [h1, hb', Nat.not_lt.2 h3, h4, Nat.not_lt.2 h5, hm']

/-! ## A command (10_state.md R12, R28) -/

/-- A command whose preconditions hold runs its passes. -/
theorem runCommand_accepted {i : Instr} {s : State} (passes : Ctx → Eng Unit) (h : Accepts i.lt s) :
    runCommand i passes s = finish (passes (ctxOf s) (workOf s)).2 s := by
  simp [runCommand, h.live, (checkFault_eq_none_iff i s h.live).2 h]

/-- Everything a command can do: nothing while FAULTED, a fault entry with the memory as it was, or its passes. -/
theorem runCommand_cases (i : Instr) (passes : Ctx → Eng Unit) (s : State) :
    (faulted s = true ∧ runCommand i passes s = s) ∨
    (faulted s = false ∧ ¬ Accepts i.lt s ∧
      ∃ c x, checkFault i s = some (c, x) ∧ runCommand i passes s = raiseFault c x s) ∨
    (Accepts i.lt s ∧ runCommand i passes s = finish (passes (ctxOf s) (workOf s)).2 s) := by
  cases hf : faulted s
  · refine .inr ?_
    rcases hc : checkFault i s with _ | ⟨c, x⟩
    · exact .inr ⟨(checkFault_eq_none_iff i s hf).1 hc, by simp [runCommand, hf, hc]⟩
    · refine .inl ⟨rfl, fun h => ?_, c, x, rfl, by simp [runCommand, hf, hc]⟩
      rw [(checkFault_eq_none_iff i s hf).2 h] at hc
      simp at hc
  · exact .inl ⟨rfl, by simp [runCommand, hf]⟩

/-- The passes of each command (41_bitrev.md R85, 43_cfft.md R100, 44_realfft.md R115, R116, 45_inverse.md R125, R126). -/
def passesOf : Instr → Ctx → Eng Unit
  | .cfft lt => cfftPasses lt
  | .rfft lt => rfftPasses lt
  | .irfft lt => irfftPasses lt
  | .bitrev lt => bitrevPasses lt
  | .untangle lt => untanglePasses lt
  | .invprep lt => invprepPasses lt

/-- Every command is `runCommand` of its passes, and never stops. -/
theorem exec_eq (i : Instr) (s : State) : exec i s = .next (runCommand i (passesOf i) s) := by
  cases i <;> rfl

/-! ## A host transaction and a step (30_encoding.md R59) -/

/-- A step with nothing to perform waits. -/
theorem step_of_nil {s : State} (h : s.port = []) : step s = .next s := by
  simp [step, nextEvent, h]

/-- A step performs the first transaction to come. -/
theorem step_of_cons {s : State} {e : HostEvent} {rest : List HostEvent} (h : s.port = e :: rest) :
    step s = perform e { s with port := rest } := by
  simp [step, nextEvent, h]

/-- A run of `k + 1` steps that ends is a step and a run of `k` steps. -/
theorem run_succ_iff {k : Nat} {s t : State} :
    Host.Core.run core (k + 1) s = .next t ↔ ∃ u, step s = .next u ∧ Host.Core.run core k u = .next t := by
  have hs : core.step s = step s := rfl
  simp only [Host.Core.run, hs]
  cases step s <;> simp

/-- Everything a write to CMD can do on an engine that is not FAULTED. -/
theorem writeCmd_cases (v : Nat) (s : State) :
    (∃ i, decodeCommand v = .ok i ∧ writeCmd v s = .next (runCommand i (passesOf i) s)) ∨
    (∃ r, decodeCommand v = .error r ∧ writeCmd v s = .next (raiseFault .badCmd (BitVec.ofNat 64 v) s)) := by
  unfold writeCmd
  cases h : decodeCommand v with
  | ok i => exact .inl ⟨i, rfl, exec_eq i s⟩
  | error r => exact .inr ⟨r, rfl, rfl⟩

/-- Everything a write to a register can do. -/
theorem hostWrite_cases (r v : Nat) (s : State) :
    hostWrite r v s = .next s ∨
    (faulted s = false ∧ r = 0 ∧ hostWrite r v s = writeCmd v s) ∨
    (faulted s = false ∧ r = 1 ∧ hostWrite r v s = .next (setN v s)) ∨
    (faulted s = false ∧ r = 2 ∧ hostWrite r v s = .next (setBase v s)) := by
  cases hf : faulted s
  · match r with
    | 0 => exact .inr (.inl ⟨rfl, rfl, by simp [hostWrite, hf]⟩)
    | 1 => exact .inr (.inr (.inl ⟨rfl, rfl, by simp [hostWrite, hf]⟩))
    | 2 => exact .inr (.inr (.inr ⟨rfl, rfl, by simp [hostWrite, hf]⟩))
    | r + 3 => exact .inl (by simp [hostWrite, hf])
  · exact .inl (by simp [hostWrite, hf])

/-- The bytes a CMD write hands to a command: the footprint if the command runs its passes, none otherwise. -/
theorem footprintLen_cases (v : Nat) (s : State) :
    footprintLen v s = 0 ∨
    ∃ i, decodeCommand v = .ok i ∧ Accepts i.lt s ∧ footprintLen v s = s.n.toNat * esize i.lt := by
  unfold footprintLen
  cases hf : faulted s
  · cases hd : decodeCommand v with
    | error r => exact .inl (by simp)
    | ok i =>
      rcases hc : checkFault i s with _ | p
      · exact .inr ⟨i, rfl, (checkFault_eq_none_iff i s hf).1 hc, by simp [hc]⟩
      · exact .inl (by simp [hc])
  · exact .inl (by simp)

/-- Everything a step can do, when it answers a next state: wait, or one host transaction on the state without it. -/
theorem step_cases {s t : State} (h : step s = .next t) :
    (s.port = [] ∧ t = s) ∨
    ∃ e rest, s.port = e :: rest ∧ perform e { s with port := rest } = .next t := by
  rcases hp : s.port with _ | ⟨e, rest⟩
  · rw [step_of_nil hp] at h
    exact .inl ⟨rfl, by simpa using h.symm⟩
  · rw [step_of_cons hp] at h
    exact .inr ⟨e, rest, rfl, h⟩

end Sys2Proof.Machine
end

