-- ==== Sys2Proof/Laws/Memory.lean ====
section
/-! SUPPORT. Data memory: a read after a write, a write leaves every other byte, and every operation keeps the canonical form
(spec/20_memory.md R31, R42). -/

namespace Sys2Proof.Machine

/-! ## One byte -/

theorem memGet_memPut_same (m : Memory) (a : Nat) (b : Byte) : memGet (memPut m a b) a = some b := by
  induction m with
  | nil => simp [memPut, memGet]
  | cons c t ih =>
    obtain ⟨x, y⟩ := c
    simp only [memPut]
    split
    · simp [memGet]
    · split
      · simp [memGet]
      · rename_i h; simp [memGet, h, ih]

theorem memGet_memPut_other (m : Memory) {a a' : Nat} (b : Byte) (h : a' ≠ a) :
    memGet (memPut m a b) a' = memGet m a' := by
  induction m with
  | nil => simp [memPut, memGet, h]
  | cons c t ih =>
    obtain ⟨x, y⟩ := c
    simp only [memPut]
    split
    · simp [memGet, h]
    · split
      · rename_i h2; subst h2; simp [memGet, h]
      · simp only [memGet, ih]

@[simp] theorem memByte_memPut_same (m : Memory) (a : Nat) (b : Byte) : memByte (memPut m a b) a = b := by
  simp [memByte, memGet_memPut_same]

theorem memByte_memPut_other (m : Memory) {a a' : Nat} (b : Byte) (h : a' ≠ a) :
    memByte (memPut m a b) a' = memByte m a' := by
  simp [memByte, memGet_memPut_other m b h]

/-- A byte listed after a put was listed before, or is the byte put. -/
theorem mem_memPut {m : Memory} {a : Nat} {b : Byte} {c : Host.Cell} (h : c ∈ memPut m a b) : c = (a, b) ∨ c ∈ m := by
  induction m with
  | nil => simpa [memPut] using h
  | cons d t ih =>
    obtain ⟨x, y⟩ := d
    simp only [memPut] at h
    split at h
    · simpa using h
    · split at h
      · rcases List.mem_cons.1 h with h | h
        · exact .inl h
        · exact .inr (List.mem_cons_of_mem _ h)
      · rcases List.mem_cons.1 h with h | h
        · exact .inr (h ▸ List.mem_cons_self ..)
        · exact (ih h).imp id (List.mem_cons_of_mem _)

/-! ## The canonical form -/

theorem memWf_cons_iff (x : Nat) (y : Byte) (t : Memory) :
    memWf ((x, y) :: t) = true ↔ (∀ c ∈ t, x < c.1) ∧ memWf t = true := by
  induction t generalizing x y with
  | nil => simp [memWf]
  | cons d t ih =>
    obtain ⟨x', y'⟩ := d
    rw [memWf, Bool.and_eq_true, decide_eq_true_iff]
    constructor
    · rintro ⟨h1, h2⟩
      refine ⟨?_, h2⟩
      intro c hc
      rcases List.mem_cons.1 hc with rfl | hc
      · exact h1
      · exact lt_trans h1 (((ih x' y').1 h2).1 c hc)
    · rintro ⟨h1, h2⟩
      exact ⟨h1 _ (List.mem_cons_self ..), h2⟩

/-- A write of one byte keeps the canonical form. -/
theorem memPut_wf {m : Memory} (a : Nat) (b : Byte) (h : memWf m = true) : memWf (memPut m a b) = true := by
  induction m with
  | nil => rfl
  | cons c t ih =>
    obtain ⟨x, y⟩ := c
    obtain ⟨h1, h2⟩ := (memWf_cons_iff x y t).1 h
    simp only [memPut]
    split
    · rename_i hlt
      refine (memWf_cons_iff _ _ _).2 ⟨?_, h⟩
      intro d hd
      rcases List.mem_cons.1 hd with rfl | hd
      · exact hlt
      · exact lt_trans hlt (h1 d hd)
    · split
      · rename_i heq; subst heq; exact (memWf_cons_iff _ _ _).2 ⟨h1, h2⟩
      · refine (memWf_cons_iff _ _ _).2 ⟨?_, ih h2⟩
        intro d hd
        rcases mem_memPut hd with rfl | hd
        · simp only; omega
        · exact h1 d hd

/-- A little-endian write keeps the canonical form. -/
theorem memWrite_wf {m : Memory} (a k v : Nat) (h : memWf m = true) : memWf (memWrite m a k v) = true := by
  induction k generalizing m a v with
  | zero => exact h
  | succ k ih => exact ih _ _ (memPut_wf _ _ h)

/-- An abandoned footprint keeps the canonical form. -/
theorem abandonBytes_wf {m : Memory} (e a k : Nat) (h : memWf m = true) : memWf (abandonBytes e m a k) = true := by
  induction k generalizing m a with
  | zero => exact h
  | succ k ih => exact ih _ (memPut_wf _ _ h)

/-- A store of an element keeps the canonical form. -/
theorem putElement_wf {lt : LaneType} {m : Memory} (base k : Nat) (v : LaneGroup lt) (h : memWf m = true) :
    memWf (putElement lt m base k v) = true := memWrite_wf _ _ _ h

/-! ## Several bytes -/

/-- A little-endian write leaves every byte outside `[a, a + k)`. -/
theorem memByte_memWrite_outside (m : Memory) (a k v : Nat) {x : Nat} (h : x < a ∨ a + k ≤ x) :
    memByte (memWrite m a k v) x = memByte m x := by
  induction k generalizing m a v with
  | zero => rfl
  | succ k ih =>
    rw [memWrite, ih _ _ _ (by omega), memByte_memPut_other _ _ (by omega)]

/-- An abandoned footprint leaves every byte outside it. -/
theorem memByte_abandonBytes_outside (e : Nat) (m : Memory) (a k : Nat) {x : Nat} (h : x < a ∨ a + k ≤ x) :
    memByte (abandonBytes e m a k) x = memByte m x := by
  induction k generalizing m a with
  | zero => rfl
  | succ k ih =>
    rw [abandonBytes, ih _ _ (by omega), memByte_memPut_other _ _ (by omega)]

/-- A cell listed after a little-endian write was listed before or lies in the bytes written. -/
theorem mem_memWrite {m : Memory} {a k v : Nat} {c : Host.Cell} (h : c ∈ memWrite m a k v) :
    c ∈ m ∨ (a ≤ c.1 ∧ c.1 < a + k) := by
  induction k generalizing m a v with
  | zero => exact .inl h
  | succ k ih =>
    rcases ih h with h | h
    · rcases mem_memPut h with rfl | h
      · exact .inr ⟨le_refl _, by simp⟩
      · exact .inl h
    · exact .inr (by omega)

/-- A cell listed after an abandoned command was listed before or lies in the footprint. -/
theorem mem_abandonBytes {e : Nat} {m : Memory} {a k : Nat} {c : Host.Cell} (h : c ∈ abandonBytes e m a k) :
    c ∈ m ∨ (a ≤ c.1 ∧ c.1 < a + k) := by
  induction k generalizing m a with
  | zero => exact .inl h
  | succ k ih =>
    rcases ih h with h | h
    · rcases mem_memPut h with rfl | h
      · exact .inr ⟨le_refl _, by simp⟩
      · exact .inl h
    · exact .inr (by omega)

/-- A read depends on its own bytes only. -/
theorem memRead_congr {m m' : Memory} {a k : Nat} (h : ∀ x, a ≤ x → x < a + k → memByte m x = memByte m' x) :
    memRead m a k = memRead m' a k := by
  induction k generalizing a with
  | zero => rfl
  | succ k ih =>
    rw [memRead, memRead, h a (le_refl _) (by omega), ih fun x h1 h2 => h x (by omega) (by omega)]

/-- Equal multi-byte reads are equal bytes. -/
theorem memByte_of_memRead_eq {m m' : Memory} {a k : Nat} (h : memRead m a k = memRead m' a k) {x : Nat}
    (h1 : a ≤ x) (h2 : x < a + k) : memByte m x = memByte m' x := by
  induction k generalizing a with
  | zero => omega
  | succ k ih =>
    simp only [memRead] at h
    have hb := (memByte m a).isLt
    have hb' := (memByte m' a).isLt
    rcases Nat.eq_or_lt_of_le h1 with rfl | hlt
    · exact BitVec.eq_of_toNat_eq (by omega)
    · exact ih (a := a + 1) (by omega) (by omega) (by omega)

end Sys2Proof.Machine
end

