-- ==== Sys2Proof/Laws/Engine.lean ====
section
/-! SUPPORT. How sequences of micro-operations run, the loops' induction rules, and the footprint rule of the passes: every pass on a legal
size stores inside the footprint only (spec/20_memory.md R35, spec/40_lane_ops.md R78). -/

namespace Sys2Proof.Machine

/-! ## Running a sequence -/

theorem run_bind {α β : Type} (x : Eng α) (f : α → Eng β) (w : Work) : (x >>= f) w = f (x w).1 (x w).2 := rfl

theorem run_pure {α : Type} (a : α) (w : Work) : (pure a : Eng α) w = (a, w) := rfl

@[simp] theorem run_lload (lt : LaneType) (c : Ctx) (k : Nat) (w : Work) :
    lload lt c k w = (element lt w.mem c.base k, w) := rfl

@[simp] theorem run_lstore (lt : LaneType) (c : Ctx) (k : Nat) (v : LaneGroup lt) (w : Work) :
    lstore lt c k v w = ((), { w with mem := putElement lt w.mem c.base k v }) := rfl

@[simp] theorem run_setPhase (p : Phase) (w : Work) : setPhase p w = ((), { w with phase := p }) := rfl

theorem forFold_nil {β : Type} (b : β) (body : β → Nat → Eng β) (w : Work) : forFold [] b body w = (b, w) := rfl

theorem forFold_cons {β : Type} (x : Nat) (xs : List Nat) (b : β) (body : β → Nat → Eng β) (w : Work) :
    forFold (x :: xs) b body w = forFold xs (body b x w).1 body (body b x w).2 := rfl

/-- A loop keeps what every iteration keeps; `P` may speak of the values already run. -/
theorem forFold_induct {β : Type} (P : List Nat → β → Work → Prop) (body : β → Nat → Eng β) (xs : List Nat)
    (hs : ∀ pre x post b w, xs = pre ++ x :: post → P pre b w → P (pre ++ [x]) (body b x w).1 (body b x w).2)
    (b : β) (w : Work) (h : P [] b w) : P xs (forFold xs b body w).1 (forFold xs b body w).2 := by
  suffices key : ∀ post pre b w, xs = pre ++ post → P pre b w →
      P xs (forFold post b body w).1 (forFold post b body w).2 from key xs [] b w rfl h
  intro post
  induction post with
  | nil => intro pre b w hx hp; simpa [forFold_nil, hx] using hp
  | cons x post ih =>
    intro pre b w hx hp
    rw [forFold_cons]
    exact ih (pre ++ [x]) _ _ (by simp [hx]) (hs pre x post b w hx hp)

/-- The values a counted loop gives its variable (00_scope.md R8). -/
theorem mem_countUp {a st b x : Nat} (hst : 0 < st) :
    x ∈ countUp a st b ↔ ∃ t, x = a + st * t ∧ x < b := by
  simp only [countUp, List.mem_range']
  constructor
  · rintro ⟨t, ht, rfl⟩
    refine ⟨t, rfl, ?_⟩
    have h1 : (t + 1) * st ≤ b - a + st - 1 := (Nat.le_div_iff_mul_le hst).1 ht
    have h2 : (t + 1) * st = st * t + st := by ring
    omega
  · rintro ⟨t, rfl, hlt⟩
    refine ⟨t, ?_, rfl⟩
    have h2 : (t + 1) * st = st * t + st := by ring
    exact (Nat.le_div_iff_mul_le hst).2 (show (t + 1) * st ≤ _ by omega)

/-- The value at a position of a counted loop is determined by how many came before it. -/
theorem countUp_split {a st b x : Nat} {pre post : List Nat} (h : countUp a st b = pre ++ x :: post) :
    x = a + st * pre.length := by
  have h1 : (countUp a st b)[pre.length]? = some x := by rw [h]; simp
  obtain ⟨h2, h3⟩ := List.getElem?_eq_some_iff.1 h1
  simpa [countUp] using h3.symm

/-! ## Staying inside the footprint -/

/-- What a sequence that stores only inside the footprint does to memory. -/
structure Within (lt : LaneType) (c : Ctx) (w w' : Work) : Prop where
  outside : ∀ a, (a < c.base ∨ c.base + c.n * esize lt ≤ a) → memByte w'.mem a = memByte w.mem a
  sorted : memWf w.mem = true → memWf w'.mem = true
  cells : ∀ x ∈ w'.mem, x ∈ w.mem ∨ (c.base ≤ x.1 ∧ x.1 < c.base + c.n * esize lt)

theorem Within.refl (lt : LaneType) (c : Ctx) (w : Work) : Within lt c w w :=
  ⟨fun _ _ => rfl, id, fun _ h => .inl h⟩

theorem Within.trans {lt : LaneType} {c : Ctx} {w w' w'' : Work} (h : Within lt c w w') (h' : Within lt c w' w'') :
    Within lt c w w'' :=
  ⟨fun a ha => (h'.outside a ha).trans (h.outside a ha), fun hw => h'.sorted (h.sorted hw),
    fun x hx => (h'.cells x hx).elim (h.cells x) .inr⟩

/-- A sequence stays inside the footprint from every starting point. -/
def Stays {α : Type} (lt : LaneType) (c : Ctx) (x : Eng α) : Prop := ∀ w, Within lt c w (x w).2

section
variable {α β : Type} {lt : LaneType} {c : Ctx}

theorem stays_pure (a : α) : Stays lt c (pure a : Eng α) := fun w => Within.refl lt c w

theorem stays_bind {x : Eng α} {f : α → Eng β} (hx : Stays lt c x) (hf : ∀ a, Stays lt c (f a)) :
    Stays lt c (x >>= f) := fun w => (hx w).trans (hf (x w).1 (x w).2)

theorem stays_ite {p : Prop} [Decidable p] {x y : Eng α} (hx : p → Stays lt c x) (hy : ¬ p → Stays lt c y) :
    Stays lt c (if p then x else y) := by
  split
  · exact hx ‹_›
  · exact hy ‹_›

theorem stays_setPhase (p : Phase) : Stays lt c (setPhase p) := fun _ => ⟨fun _ _ => rfl, id, fun _ h => .inl h⟩

theorem stays_lload (k : Nat) : Stays lt c (lload lt c k) := fun w => Within.refl lt c w

theorem stays_lanewise (op : Word64 → Lane lt → Lane lt → Lane lt) (a b : LaneGroup lt) :
    Stays lt c (lanewise lt c op a b) := fun _ => ⟨fun _ _ => rfl, id, fun _ h => .inl h⟩

theorem stays_ladd (a b : LaneGroup lt) : Stays lt c (ladd lt c a b) := stays_lanewise _ a b

theorem stays_lsub (a b : LaneGroup lt) : Stays lt c (lsub lt c a b) := stays_lanewise _ a b

theorem stays_lmul (a b : LaneGroup lt) : Stays lt c (lmul lt c a b) := stays_lanewise _ a b

/-- A store to an element below `n` stays inside the footprint. -/
theorem stays_lstore {k : Nat} (v : LaneGroup lt) (hk : k < c.n) : Stays lt c (lstore lt c k v) := by
  intro w
  have h1 : (k + 1) * esize lt ≤ c.n * esize lt := Nat.mul_le_mul_right _ hk
  have h2 : (k + 1) * esize lt = k * esize lt + esize lt := by ring
  refine ⟨fun a ha => ?_, putElement_wf _ _ _, fun x hx => ?_⟩
  · exact memByte_memWrite_outside _ _ _ _ (by simp only [elemAddr]; omega)
  · refine (mem_memWrite hx).imp id fun h => ?_
    simp only [elemAddr] at h
    omega

theorem stays_forFold {xs : List Nat} {init : β} {body : β → Nat → Eng β}
    (h : ∀ b, ∀ x ∈ xs, Stays lt c (body b x)) : Stays lt c (forFold xs init body) := by
  intro w
  refine forFold_induct (fun _ _ w' => Within lt c w w') body xs ?_ init w (Within.refl lt c w)
  intro pre x post b w' hx hp
  exact hp.trans (h b x (by simp [hx]) w')

theorem stays_forEach {xs : List Nat} {body : Nat → Eng Unit} (h : ∀ x ∈ xs, Stays lt c (body x)) :
    Stays lt c (forEach xs body) := stays_forFold fun _ x hx => h x hx

theorem stays_mulSubMul (p q r s : LaneGroup lt) : Stays lt c (mulSubMul lt c p q r s) :=
  stays_bind (stays_lmul _ _) fun _ => stays_bind (stays_lmul _ _) fun _ => stays_lsub _ _

theorem stays_mulAddMul (p q r s : LaneGroup lt) : Stays lt c (mulAddMul lt c p q r s) :=
  stays_bind (stays_lmul _ _) fun _ => stays_bind (stays_lmul _ _) fun _ => stays_ladd _ _

theorem stays_loadPoint (i : Nat) : Stays lt c (loadPoint lt c i) :=
  stays_bind (stays_lload _) fun _ => stays_bind (stays_lload _) fun _ => stays_pure _

theorem stays_storePoint {i : Nat} (z : Point lt) (hi : i + 1 < c.n) : Stays lt c (storePoint lt c i z) :=
  stays_bind (stays_lstore _ (by omega)) fun _ => stays_lstore _ hi

theorem stays_mulPoint (w z : Point lt) : Stays lt c (mulPoint lt c w z) :=
  stays_bind (stays_mulSubMul _ _ _ _) fun _ => stays_bind (stays_mulAddMul _ _ _ _) fun _ => stays_pure _

theorem stays_addPoint (x y : Point lt) : Stays lt c (addPoint lt c x y) :=
  stays_bind (stays_ladd _ _) fun _ => stays_bind (stays_ladd _ _) fun _ => stays_pure _

theorem stays_subPoint (x y : Point lt) : Stays lt c (subPoint lt c x y) :=
  stays_bind (stays_lsub _ _) fun _ => stays_bind (stays_lsub _ _) fun _ => stays_pure _

theorem stays_subTurned (x y : Point lt) : Stays lt c (subTurned lt c x y) :=
  stays_bind (stays_ladd _ _) fun _ => stays_bind (stays_lsub _ _) fun _ => stays_pure _

theorem stays_addTurned (x y : Point lt) : Stays lt c (addTurned lt c x y) :=
  stays_bind (stays_lsub _ _) fun _ => stays_bind (stays_ladd _ _) fun _ => stays_pure _

/-! ## The passes -/

theorem stays_swapPairs {i j : Nat} (hi : i + 1 < c.n) (hj : j + 1 < c.n) : Stays lt c (swapPairs lt c i j) :=
  stays_bind (stays_loadPoint _) fun _ => stays_bind (stays_loadPoint _) fun _ =>
    stays_bind (stays_storePoint _ hi) fun _ => stays_storePoint _ hj

theorem stays_bfly2 {w : Point lt} {i j : Nat} (hi : i + 1 < c.n) (hj : j + 1 < c.n) :
    Stays lt c (bfly2 lt c w i j) :=
  stays_bind (stays_loadPoint _) fun _ => stays_bind (stays_loadPoint _) fun _ =>
    stays_bind (stays_mulPoint _ _) fun _ => stays_bind (stays_subPoint _ _) fun _ =>
      stays_bind (stays_addPoint _ _) fun _ => stays_bind (stays_storePoint _ hj) fun _ => stays_storePoint _ hi

theorem stays_bfly4 {w w2 : Point lt} {i0 i1 i2 i3 : Nat} (h0 : i0 + 1 < c.n) (h1 : i1 + 1 < c.n)
    (h2 : i2 + 1 < c.n) (h3 : i3 + 1 < c.n) : Stays lt c (bfly4 lt c w w2 i0 i1 i2 i3) :=
  stays_bind (stays_loadPoint _) fun _ => stays_bind (stays_loadPoint _) fun _ => stays_bind (stays_loadPoint _) fun _ =>
  stays_bind (stays_loadPoint _) fun _ => stays_bind (stays_mulPoint _ _) fun _ => stays_bind (stays_mulPoint _ _) fun _ =>
  stays_bind (stays_addPoint _ _) fun _ => stays_bind (stays_subPoint _ _) fun _ => stays_bind (stays_addPoint _ _) fun _ =>
  stays_bind (stays_subPoint _ _) fun _ => stays_bind (stays_mulPoint _ _) fun _ => stays_bind (stays_mulPoint _ _) fun _ =>
  stays_bind (stays_addPoint _ _) fun _ => stays_bind (stays_subPoint _ _) fun _ => stays_bind (stays_subTurned _ _) fun _ =>
  stays_bind (stays_addTurned _ _) fun _ => stays_bind (stays_storePoint _ h0) fun _ => stays_bind (stays_storePoint _ h2) fun _ =>
  stays_bind (stays_storePoint _ h1) fun _ => stays_storePoint _ h3

theorem stays_untanglePair {w : Point lt} {vh : LaneGroup lt} {i j : Nat} (hi : i + 1 < c.n) (hj : j + 1 < c.n) :
    Stays lt c (untanglePair lt c w vh i j) := by
  unfold untanglePair
  repeat' (first
    | with_reducible exact stays_storePoint _ (by omega)
    | with_reducible refine stays_bind (stays_loadPoint _) fun _ => ?_
    | with_reducible refine stays_bind (stays_mulPoint _ _) fun _ => ?_
    | with_reducible refine stays_bind (stays_addPoint _ _) fun _ => ?_
    | with_reducible refine stays_bind (stays_ladd _ _) fun _ => ?_
    | with_reducible refine stays_bind (stays_lsub _ _) fun _ => ?_
    | with_reducible refine stays_bind (stays_lmul _ _) fun _ => ?_
    | with_reducible refine stays_bind (stays_storePoint _ (by omega)) fun _ => ?_)

theorem stays_mirrorPair {vs : LaneGroup lt} {i j : Nat} (hi : i + 1 < c.n) (hj : j + 1 < c.n) :
    Stays lt c (mirrorPair lt c vs i j) :=
  stays_bind (stays_loadPoint _) fun _ => stays_bind (stays_loadPoint _) fun _ =>
    stays_bind (stays_lmul _ _) fun _ => stays_bind (stays_lmul _ _) fun _ => stays_bind (stays_lmul _ _) fun _ =>
      stays_bind (stays_lmul _ _) fun _ => stays_bind (stays_storePoint _ hi) fun _ => stays_storePoint _ hj

theorem stays_scaleElement {vs : LaneGroup lt} {k : Nat} (hk : k < c.n) : Stays lt c (scaleElement lt c vs k) :=
  stays_bind (stays_lload _) fun _ => stays_bind (stays_lmul _ _) fun _ => stays_lstore _ hk

theorem stays_dcNyquist (h : 2 ≤ c.n) : Stays lt c (dcNyquist lt c) :=
  stays_bind (stays_lload _) fun _ => stays_bind (stays_lload _) fun _ => stays_bind (stays_ladd _ _) fun _ =>
    stays_bind (stays_lsub _ _) fun _ => stays_bind (stays_lstore _ (by omega)) fun _ => stays_lstore _ (by omega)

theorem stays_middleBin (h : 4 ≤ c.n) : Stays lt c (middleBin lt c) :=
  stays_bind (stays_lload _) fun _ => stays_bind (stays_lmul _ _) fun _ => stays_lstore _ (by omega)

theorem stays_untanglePass (h : 2 ≤ c.n) : Stays lt c (untanglePass lt c) := by
  refine stays_bind (stays_dcNyquist h) fun _ => stays_ite (fun h4 => ?_) fun _ => stays_pure _
  refine stays_bind (stays_forFold fun t k hk => ?_) fun _ => stays_middleBin h4
  obtain ⟨x, rfl, hlt⟩ := (mem_countUp one_pos).1 hk
  exact stays_bind (stays_untanglePair (by omega) (by omega)) fun _ => stays_pure _

theorem stays_invPrep (h : 2 ≤ c.n) : Stays lt c (invPrep lt c) := by
  refine stays_bind (stays_scaleElement (by omega)) fun _ => stays_bind (stays_scaleElement (by omega)) fun _ => ?_
  refine stays_bind (stays_forEach fun k hk => ?_) fun _ => stays_ite (fun h4 => ?_) fun _ => stays_pure _
  · obtain ⟨x, rfl, hlt⟩ := (mem_countUp one_pos).1 hk
    exact stays_mirrorPair (by omega) (by omega)
  · exact stays_bind (stays_scaleElement (by omega)) fun _ => stays_scaleElement (by omega)

/-- `I + MMAX + 1 < n` for every radix-2 butterfly, since `2*MMAX` divides `n` (43_cfft.md R104). -/
theorem stays_radix2Stage {mmax : Nat} (h2 : 2 ∣ mmax) (hpos : 0 < mmax) (hd : 2 * mmax ∣ c.n) :
    Stays lt c (radix2Stage lt c mmax) := by
  refine stays_bind (stays_forFold fun t m hm => ?_) fun _ => stays_pure _
  obtain ⟨x, hx, hlt⟩ := (mem_countUp two_pos).1 hm
  refine stays_bind (stays_forEach fun i hi => ?_) fun _ => stays_pure _
  obtain ⟨y, rfl, hi⟩ := (mem_countUp (by omega)).1 hi
  have hkey : m + 2 * mmax * y + mmax + 1 < c.n := by
    obtain ⟨q, hq⟩ := hd
    obtain ⟨r, hr⟩ := h2
    have hy : y < q := by
      by_contra hn
      have := Nat.mul_le_mul_left (2 * mmax) (Nat.not_lt.1 hn)
      omega
    have := Nat.mul_le_mul_left (2 * mmax) (show y + 1 ≤ q from hy)
    have h3 : 2 * mmax * (y + 1) = 2 * mmax * y + 2 * mmax := by ring
    omega
  exact stays_bfly2 (by omega) hkey

/-- `I + 3*MMAX + 1 < n` for every radix-4 butterfly, since `4*MMAX` divides `n` (43_cfft.md R106). -/
theorem stays_radix4Stage {mmax : Nat} (h2 : 2 ∣ mmax) (hpos : 0 < mmax) (hd : 4 * mmax ∣ c.n) :
    Stays lt c (radix4Stage lt c mmax) := by
  refine stays_bind (stays_forFold fun t m hm => ?_) fun _ => stays_pure _
  obtain ⟨x, hx, hlt⟩ := (mem_countUp two_pos).1 hm
  refine stays_bind (stays_forEach fun i hi => ?_) fun _ => stays_pure _
  obtain ⟨y, rfl, hi⟩ := (mem_countUp (by omega)).1 hi
  have hkey : m + 4 * mmax * y + 3 * mmax + 1 < c.n := by
    obtain ⟨q, hq⟩ := hd
    obtain ⟨r, hr⟩ := h2
    have hy : y < q := by
      by_contra hn
      have := Nat.mul_le_mul_left (4 * mmax) (Nat.not_lt.1 hn)
      omega
    have := Nat.mul_le_mul_left (4 * mmax) (show y + 1 ≤ q from hy)
    have h3 : 4 * mmax * (y + 1) = 4 * mmax * y + 4 * mmax := by ring
    omega
  exact stays_bfly4 (by omega) (by omega) (by omega) (by omega)

/-- The stage loop from a span `2^d` on (43_cfft.md R101). -/
theorem stays_stageLoop {e : Nat} (hn : c.n = 2 ^ e) (turns : Nat) {d : Nat} (hd : 1 ≤ d) :
    Stays lt c (stageLoop lt c turns (2 ^ d)) := by
  have hdvd : ∀ k, 1 ≤ k → 2 ∣ 2 ^ k := fun k hk => dvd_pow_self 2 (by omega)
  induction turns generalizing d with
  | zero => exact stays_pure _
  | succ turns ih =>
    refine stays_ite (fun h4 => ?_) fun _ => stays_ite (fun h2 => ?_) fun _ => stays_pure _
    · have he : d + 1 < e := by
        rw [hn, ← pow_succ'] at h4
        exact (Nat.pow_lt_pow_iff_right (by norm_num)).1 h4
      refine stays_bind (stays_setPhase _) fun _ => stays_bind ?_ fun _ => ?_
      · refine stays_radix4Stage (hdvd d hd) (by positivity) ?_
        rw [hn, show 4 * 2 ^ d = 2 ^ (d + 2) by ring]
        exact pow_dvd_pow 2 (by omega)
      · rw [show 4 * 2 ^ d = 2 ^ (d + 2) by ring]
        exact ih (by omega)
    · have he : d < e := by
        rw [hn] at h2
        exact (Nat.pow_lt_pow_iff_right (by norm_num)).1 h2
      refine stays_bind (stays_setPhase _) fun _ => stays_radix2Stage (hdvd d hd) (by positivity) ?_
      rw [hn, show 2 * 2 ^ d = 2 ^ (d + 1) by ring]
      exact pow_dvd_pow 2 (by omega)

/-! ## The bit-reversal counter (41_bitrev.md R86, R87) -/

open Sys2Proof.Reference in
theorem rev_lt (b p : Nat) : rev b p < 2 ^ b := by
  induction b generalizing p with
  | zero => simp [rev]
  | succ b ih =>
    have h := ih (p / 2)
    have h2 : 2 ^ (b + 1) = 2 * 2 ^ b := by ring
    have h3 : p % 2 * 2 ^ b ≤ 1 * 2 ^ b := Nat.mul_le_mul_right _ (by omega)
    simp only [rev]
    omega

open Sys2Proof.Reference in
/-- The reversed-carry increment steps from the reversal of an index to the reversal of the next one. -/
theorem revCarry_rev (b p turns : Nat) (hb : b ≤ turns) (hp : p + 1 < 2 ^ b) :
    revCarry turns (2 ^ b) (2 * rev b p) = 2 * rev b (p + 1) := by
  induction b generalizing p turns with
  | zero => simp at hp
  | succ b ih =>
    obtain ⟨turns, rfl⟩ : ∃ t, turns = t + 1 := ⟨turns - 1, by omega⟩
    have h2 : 2 ^ (b + 1) = 2 * 2 ^ b := by ring
    have hr := rev_lt b (p / 2)
    have hpos : 0 < 2 ^ b := by positivity
    rcases Nat.mod_two_eq_zero_or_one p with h | h
    · have h4 : (p + 1) / 2 = p / 2 := by omega
      have h5 : (p + 1) % 2 = 1 := by omega
      simp only [revCarry, rev, h, h4, h5]
      rw [if_neg (by omega)]
      omega
    · have h4 : (p + 1) / 2 = p / 2 + 1 := by omega
      have h5 : (p + 1) % 2 = 0 := by omega
      simp only [revCarry, rev, h, h4, h5]
      rw [if_pos (by omega)]
      have h6 : 2 * (1 * 2 ^ b + rev b (p / 2)) - 2 ^ (b + 1) = 2 * rev b (p / 2) := by omega
      have h7 : 2 ^ (b + 1) / 2 = 2 ^ b := by omega
      rw [h6, h7, ih (p / 2) turns (by omega) (by omega)]
      omega

open Sys2Proof.Reference in
/-- Along the bit-reversal loop, `J` is twice the reversal of `I/2` (41_bitrev.md R87). -/
theorem stays_bitrevPass {b : Nat} (hn : c.n = 2 ^ (b + 1)) : Stays lt c (bitrevPass lt c) := by
  refine stays_bind (fun w => ?_) fun _ => stays_pure _
  have h2 : 2 ^ (b + 1) = 2 * 2 ^ b := by ring
  have hhalf : c.n / 2 = 2 ^ b := by omega
  have hturns : b ≤ c.n := by
    have := Nat.lt_pow_self (n := b + 1) (show 1 < 2 by norm_num)
    omega
  refine (forFold_induct (fun pre j w' => Within lt c w w' ∧ (pre.length < 2 ^ b → j = 2 * rev b pre.length))
    _ _ ?_ 0 w ⟨Within.refl lt c w, fun _ => ?_⟩).1
  · intro pre i post j w' hx hp
    have hi : i = 2 * pre.length := by simpa using countUp_split hx
    have hlt : i < c.n := by
      obtain ⟨_, _, h⟩ := (mem_countUp two_pos).1 (show i ∈ countUp 0 2 c.n by rw [hx]; simp)
      exact h
    have hj := hp.2 (by omega)
    have hr := rev_lt b pre.length
    refine ⟨?_, fun hlen => ?_⟩
    · refine hp.1.trans ?_
      exact stays_ite (fun _ => stays_swapPairs (by omega) (by omega)) (fun _ => stays_pure _) w'
    · simp only [List.length_append, List.length_singleton] at hlen ⊢
      show revCarry c.n (c.n / 2) j = _
      rw [hhalf, hj]
      exact revCarry_rev b _ _ hturns hlen
  · have h0 : ∀ b, rev b 0 = 0 := fun b => by induction b with
      | zero => rfl
      | succ b ih => simpa [rev] using ih
    simp [h0]

theorem stays_cfftPhase {b : Nat} (hn : c.n = 2 ^ (b + 1)) : Stays lt c (cfftPhase lt c) :=
  stays_bind (stays_setPhase _) fun _ => stays_bind (stays_bitrevPass hn) fun _ =>
    stays_stageLoop hn c.n (d := 1) (le_refl 1)

end

/-- Every command's passes, on a legal size, store inside the footprint only (20_memory.md R35). -/
theorem stays_passesOf (i : Instr) {c : Ctx} {b : Nat} (hn : c.n = 2 ^ (b + 1)) : Stays i.lt c (passesOf i c) := by
  have h2 : 2 ≤ c.n := by
    rw [hn, show 2 ^ (b + 1) = 2 * 2 ^ b by ring]
    have : 0 < 2 ^ b := by positivity
    omega
  have hb {lt : LaneType} := stays_setPhase (lt := lt) (c := c)
  cases i with
  | cfft lt => exact stays_bind (stays_cfftPhase hn) fun _ => hb _
  | rfft lt =>
    exact stays_bind (stays_cfftPhase hn) fun _ => stays_bind (hb _) fun _ =>
      stays_bind (stays_untanglePass h2) fun _ => hb _
  | irfft lt =>
    exact stays_bind (hb _) fun _ => stays_bind (stays_invPrep h2) fun _ => stays_bind (hb _) fun _ =>
      stays_bind (stays_untanglePass h2) fun _ => stays_bind (stays_cfftPhase hn) fun _ => hb _
  | bitrev lt => exact stays_bind (hb _) fun _ => stays_bind (stays_bitrevPass hn) fun _ => hb _
  | untangle lt => exact stays_bind (hb _) fun _ => stays_bind (stays_untanglePass h2) fun _ => hb _
  | invprep lt => exact stays_bind (hb _) fun _ => stays_bind (stays_invPrep h2) fun _ => hb _

/-- Every command's passes end with PHASE idle. -/
theorem passesOf_phase (i : Instr) (c : Ctx) (w : Work) : (passesOf i c w).2.phase = .idle := by
  cases i <;> rfl

end Sys2Proof.Machine
end

