-- ==== Sys2Proof/Laws/PerInstr.lean ====
section
/-! SUPPORT. Statements about each command as syntax, one lemma per constructor: the command's word holds its OP and LT fields and a zero
ZERO field (spec/30_encoding.md R50, R51, R53). -/

namespace Sys2Proof.Laws.WordFields

/-- The fields of a command's word are the command's: ZERO is 0, LT reads back as its lane type, OP as the command itself. -/
def Statement (i : Instr) : Prop :=
  zeroField (encode i) = 0 ∧ decodeLt (ltField (encode i)) = some i.lt ∧ decodeOp (opField (encode i)) i.lt = some i

theorem cfft (lt : LaneType) : Statement (.cfft lt) := by cases lt <;> exact ⟨by decide, by decide, by decide⟩

theorem rfft (lt : LaneType) : Statement (.rfft lt) := by cases lt <;> exact ⟨by decide, by decide, by decide⟩

theorem irfft (lt : LaneType) : Statement (.irfft lt) := by cases lt <;> exact ⟨by decide, by decide, by decide⟩

theorem bitrev (lt : LaneType) : Statement (.bitrev lt) := by cases lt <;> exact ⟨by decide, by decide, by decide⟩

theorem untangle (lt : LaneType) : Statement (.untangle lt) := by cases lt <;> exact ⟨by decide, by decide, by decide⟩

theorem invprep (lt : LaneType) : Statement (.invprep lt) := by cases lt <;> exact ⟨by decide, by decide, by decide⟩

end Sys2Proof.Laws.WordFields
end

