-- ==== Sys2Proof/Tests/Slice0.lean ====
section
/-! SUPPORT. The model's own tests, expected values from spec/95_test_vectors.md, and for each obligation with hypotheses a state and
operands that meet them. -/

namespace Sys2Proof.Tests

open Sys2Proof.Machine Sys2Proof.Reference

-- one theorem after the other: the kernel evaluations below leave few threads waiting
set_option Elab.async false

/-! ## Helpers -/

/-- Elements of `size` bytes written from an address on. -/
def fill (size a : Nat) : List Nat → Memory → Memory
  | [], m => m
  | x :: rest, m => fill size (a + size) rest (memWrite m a size x)

/-- An engine of the default instance with N, BASE and the elements at BASE. -/
def ready (lt : LaneType) (n base : Nat) (xs : List Nat) : State :=
  { State.reset with n := BitVec.ofNat 32 n, base := BitVec.ofNat 64 base, mem := fill (esize lt) base xs [] }

/-- The same on an instance that flushes subnormals. -/
def readyFlush (lt : LaneType) (n base : Nat) (xs : List Nat) : State :=
  { ready lt n base xs with params := { Params.default with flush := true } }

/-- An instance without V4F32. -/
def noV4 : State := { State.reset with params := { Params.default with hasV4 := false }, n := 8, base := 0x1000 }

/-- X9: an instance without memory at `0x2010 <= a < 0x3000`. -/
def holed : State := { State.reset with params := { Params.default with holes := [(0x2010, 0x3000)] }, n := 8, base := 0x2000 }

/-- The engine FAULTED as X4 leaves it: BAD_N with N = 6. -/
def faultedX4 : State := { State.reset with n := 6, base := 0x1000, status := 0x21, finfo := 6, phase := .faulted }

/-- A state with host transactions to come. -/
def withPort (s : State) (es : List HostEvent) : State := { s with port := es }

/-- The elements of the buffer after an outcome, as bits. -/
def elems (lt : LaneType) (o : Host.Outcome State Fault Refusal) : List Nat :=
  match o with
  | .next s => (List.range s.n.toNat).map fun k => memRead s.mem (s.base.toNat + k * esize lt) (esize lt)
  | _ => []

/-- STATUS, FINFO, N and BASE after an outcome. -/
def regs (o : Host.Outcome State Fault Refusal) : List Nat :=
  match o with
  | .next s => [s.status.toNat, s.finfo.toNat, s.n.toNat, s.base.toNat]
  | _ => []

/-- The values read after an outcome. -/
def readsOf (o : Host.Outcome State Fault Refusal) : List Nat :=
  match o with
  | .next s => s.reads
  | _ => []

/-! ## Well-formedness and decoding (30_encoding.md) -/

theorem test_v4_ill_formed_without_v4 : (Instr.cfft .v4f32).wellFormed { Params.default with hasV4 := false } = false := by decide

theorem test_scalar_well_formed_without_v4 :
    (Instr.cfft .f32).wellFormed { Params.default with hasV4 := false } = true ∧
    (Instr.cfft .f64).wellFormed { Params.default with hasV4 := false } = true := by decide

theorem test_default_params_ok : Params.default.ok := by decide

theorem test_params_out_of_range :
    ¬ Params.ok { Params.default with log2NMax := 0 } ∧ ¬ Params.ok { Params.default with log2NMax := 31 } ∧
    ¬ Params.ok { Params.default with aw := 15 } ∧ ¬ Params.ok { Params.default with aw := 65 } := by decide

-- ZERO = 26 bits of 0, LT, OP (R50, R51, R53)
theorem test_decode_cfft : decodeWord 0b00000000000000000000000000_00_0001 = .ok (.cfft .f32) := rfl
theorem test_decode_rfft : decodeWord 0b00000000000000000000000000_01_0010 = .ok (.rfft .f64) := rfl
theorem test_decode_irfft : decodeWord 0b00000000000000000000000000_10_0011 = .ok (.irfft .v4f32) := rfl
theorem test_decode_bitrev : decodeWord 0b00000000000000000000000000_10_0100 = .ok (.bitrev .v4f32) := rfl
theorem test_decode_untangle : decodeWord 0b00000000000000000000000000_00_0101 = .ok (.untangle .f32) := rfl
theorem test_decode_invprep : decodeWord 0b00000000000000000000000000_01_0110 = .ok (.invprep .f64) := rfl

-- X10, X10b, X10c, X10d, X10e, X10f
theorem test_decode_reserved_op :
    [0x0, 0x7, 0xF].map decodeCommand = [.error .reservedOp, .error .reservedOp, .error .reservedOp] := rfl
theorem test_decode_reserved_lt : decodeCommand 0x31 = .error .reservedLt := rfl
theorem test_decode_zero_field :
    [0x101, 0x80000001, 0x41].map decodeCommand = [.error .zeroField, .error .zeroField, .error .zeroField] := rfl
theorem test_decode_wide : decodeCommand 0x100000001 = .error .wideWord := rfl

theorem test_table_word : decodeTableWord 32 0x15 = some (.untangle .f64) ∧ decodeTableWord 32 0 = none := ⟨rfl, rfl⟩

/-! ## Lane arithmetic (V1 to V9; R72 to R77) -/

-- V1, V2, V4, V6b
theorem test_add_f32 :
    [addF binary32 0 0x3F800000 0x33800000, addF binary32 0 0x3F800000 0x34400000,
      addF binary32 0 0x7F61B1E6 0x7F61B1E6, addF binary32 0 0x3DCCCCCD 0x3E4CCCCD]
    = [0x3F800000, 0x3F800002, 0x7F800000, 0x3E99999A] := by decide +kernel

-- V3, V3b, V6
theorem test_mul_f32 :
    [mulF binary32 0 0x3F000000 0x00000001, mulF binary32 0 0x3F000000 0x00000003, mulF binary32 0 0x3DCCCCCD 0x3E4CCCCD]
    = [0x00000000, 0x00000002, 0x3CA3D70B] := by decide +kernel

-- V6c, V8: the sign of an exact zero
theorem test_sub_f32 :
    [subF binary32 0 0x3DCCCCCD 0x3E4CCCCD, subF binary32 0 0x3F800000 0x3F800000, subF binary32 0 0x80000000 0x80000000,
      subF binary32 0 0x80000000 0x00000000]
    = [0xBDCCCCCD, 0x00000000, 0x00000000, 0x80000000] := by decide +kernel

-- V7, V7b, V7c
theorem test_f64 :
    [addF binary64 0 0x3FB999999999999A 0x3FC999999999999A, mulF binary64 0 0x3FB999999999999A 0x3FC999999999999A,
      subF binary64 0 0x3FB999999999999A 0x3FC999999999999A]
    = [0x3FD3333333333334, 0x3F947AE147AE147C, 0xBFB999999999999A] := by decide +kernel

-- V9: the NaN is the draw's
theorem test_nan_is_a_draw (d : Word64) :
    subF binary32 d 0x7F800000 0x7F800000 = quietNan binary32 d ∧
    mulF binary32 d 0x00000000 0x7F800000 = quietNan binary32 d ∧
    addF binary32 d 0x7FC00001 0x3F800000 = quietNan binary32 d := ⟨rfl, rfl, rfl⟩

-- V28a: an infinity as second operand (R80)
theorem test_infinite_second_operand :
    [mulF binary32 0 0x3F800000 0x7F800000, addF binary32 0 0x3F800000 0x7F800000, subF binary32 0 0x00000000 0x7F800000,
      subF binary32 0 0x7F800000 0x3F800000]
    = [0x7F800000, 0x7F800000, 0xFF800000, 0x7F800000] := by decide +kernel

-- R77, below V9: 0.5 * least normal
theorem test_flush :
    flushed binary32 true (mulF binary32) 0 0x3F000000 0x00800000 = 0 ∧
    flushed binary32 false (mulF binary32) 0 0x3F000000 0x00800000 = 0x00400000 := by decide +kernel

-- V5
theorem test_bcast : bcast .v4f32 0x3FE6A09E667F3BCC = [0x3F3504F3, 0x3F3504F3, 0x3F3504F3, 0x3F3504F3] := by decide +kernel

/-! ## Faults and the host port (X1 to X12; P6) -/

-- X1, through the fetch of the host's interface
theorem test_first_command_after_reset : regs (step (State.reset.withFetchWord 32 1)) = [0x21, 0, 0, 0] := by decide +kernel

-- X3, X6, X6c, X5
theorem test_size_faults :
    [regs (exec (.rfft .f32) (ready .f32 3 0x1000 [])), regs (exec (.cfft .f32) (ready .f32 8192 0x1000 [])),
      regs (exec (.cfft .f32) (ready .f32 0x80000000 0 [])), regs (exec (.bitrev .f32) (ready .f32 0xFFFFFFFF 0x1000 []))]
    = [[0x21, 3, 3, 0x1000], [0x31, 0x2000, 0x2000, 0x1000], [0x31, 0x80000000, 0x80000000, 0],
      [0x21, 0xFFFFFFFF, 0xFFFFFFFF, 0x1000]] := by
  decide +kernel

-- X7, X7d, X8, X9
theorem test_address_faults :
    [regs (exec (.cfft .v4f32) (ready .f32 8 0x1004 [])), regs (exec (.bitrev .f32) (ready .f32 8 0x1002 [])),
      regs (exec (.cfft .f32) (ready .f32 8 0xFFFFFFF0 [])), regs (exec (.cfft .f32) holed)]
    = [[0x41, 0x1004, 8, 0x1004], [0x41, 0x1002, 8, 0x1002], [0x51, 0xFFFFFFF0, 8, 0xFFFFFFF0], [0x61, 0x2000, 8, 0x2000]] := by
  decide +kernel

-- X10f, X10g, X11
theorem test_bad_command :
    [regs (hostWrite 0 0x80000001 (ready .f32 8 0x1000 [])), regs (hostWrite 0 0x21 noV4),
      regs (hostWrite 0 0x31 (ready .f32 6 0x1002 []))]
    = [[0x11, 0x80000001, 8, 0x1000], [0x11, 0x21, 8, 0x1000], [0x11, 0x31, 6, 0x1002]] := by
  decide +kernel

-- X11b, X11c, X11d: priority
theorem test_priority :
    [regs (exec (.cfft .f32) (ready .f32 6 0x1002 [])), regs (exec (.cfft .f32) (ready .f32 8192 0x1002 [])),
      regs (exec (.cfft .f32) (ready .f32 8 0xFFFFFFF2 []))]
    = [[0x21, 6, 6, 0x1002], [0x31, 0x2000, 0x2000, 0x1002], [0x41, 0xFFFFFFF2, 8, 0xFFFFFFF2]] := by
  decide +kernel

-- X12, X12b, X12c
theorem test_faulted_ignores :
    [regs (hostWrite 1 8 faultedX4), regs (hostWrite 2 0x2000 faultedX4), regs (hostWrite 0 1 faultedX4), regs (hostWrite 0 0 faultedX4)]
    = [[0x21, 6, 6, 0x1000], [0x21, 6, 6, 0x1000], [0x21, 6, 6, 0x1000], [0x21, 6, 6, 0x1000]] := by
  decide +kernel

-- X12d, X12e, X12f
theorem test_reads_in_fault :
    [readsOf (hostRead 0 faultedX4), readsOf (hostRead 1 faultedX4), readsOf (hostRead 3 faultedX4), readsOf (hostRead 4 faultedX4),
      readsOf (hostRead 5 faultedX4)] = [[0], [6], [0x21], [6], [0]] := by
  decide +kernel

-- X12g
theorem test_reset_leaves_fault : regs (step (withPort faultedX4 [.reset])) = [0, 0, 0, 0] := by decide +kernel

-- R58
theorem test_pseudo_instruction : realFFT .f32 8 0x1000 = [.write 1 8, .write 2 0x1000, .write 0 2] := rfl

-- R29: BASE keeps AW bits
theorem test_base_width : regs (hostWrite 2 0x123456789 State.reset) = [0, 0, 0, 0x23456789] := by decide +kernel

-- R31
theorem test_little_endian : memRead (memWrite [] 0x10 4 0x3F800000) 0x12 2 = 0x3F80 := by decide +kernel

/-! ## Witnesses: the hypotheses of each obligation can be met together -/

/-- Buffers that every command of every lane type accepts. -/
theorem accepts_ready8 (lt : LaneType) : Accepts lt (ready lt 8 0x1000 []) := by
  cases lt <;>
    exact ⟨rfl, rfl, ⟨3, by decide, rfl⟩, by decide +kernel, by decide, by decide +kernel, fun _ _ _ h => nomatch h⟩

theorem accepts_ready4 (lt : LaneType) : Accepts lt (ready lt 4 0x1000 []) := by
  cases lt <;>
    exact ⟨rfl, rfl, ⟨2, by decide, rfl⟩, by decide +kernel, by decide, by decide +kernel, fun _ _ _ h => nomatch h⟩

theorem accepts_ready2 (lt : LaneType) : Accepts lt (ready lt 2 0x1000 []) := by
  cases lt <;>
    exact ⟨rfl, rfl, ⟨1, by decide, rfl⟩, by decide +kernel, by decide, by decide +kernel, fun _ _ _ h => nomatch h⟩

/-- The largest legal size, X6b. -/
theorem accepts_ready4096 (lt : LaneType) : Accepts lt (ready lt 4096 0x10000 []) := by
  cases lt <;>
    exact ⟨rfl, rfl, ⟨12, by decide, rfl⟩, by decide +kernel, by decide, by decide +kernel, fun _ _ _ h => nomatch h⟩

/-- A footprint that ends at the last byte of the address space, X8b. -/
theorem accepts_top : Accepts .f32 (ready .f32 4 0xFFFFFFF0 []) :=
  ⟨rfl, rfl, ⟨2, by decide, rfl⟩, by decide +kernel, by decide, by decide +kernel, fun _ _ _ h => nomatch h⟩

/-- OnlyEncodedWordsDecode: both sides hold of one value, neither of the next. -/
theorem witness_only_encoded :
    decodeCommand 0x26 = .ok (.invprep .v4f32) ∧ 0x26 = (encode (.invprep .v4f32)).toNat ∧
    decodeCommand 0x100000026 = .error .wideWord := by decide +kernel

/-- IllegalWordRaisesBadCmd: a word for each condition that meets no other, and the legal words at the edges. -/
theorem witness_illegal_words :
    faulted noV4 = false ∧ noV4.params.hasV4 = false ∧ (ready .f32 8 0x1000 []).params.hasV4 = true ∧
    (0x41 : Word32).toNat / 64 ≠ 0 ∧ (0x10 : Word32).toNat % 16 = 0 ∧ 7 ≤ (0x27 : Word32).toNat % 16 ∧
    (0x31 : Word32).toNat / 16 % 4 = 3 ∧ (0x21 : Word32).toNat / 16 % 4 = 2 ∧
    ¬ ((0x26 : Word32).toNat / 64 ≠ 0 ∨ (0x26 : Word32).toNat % 16 = 0 ∨ 7 ≤ (0x26 : Word32).toNat % 16 ∨
      (0x26 : Word32).toNat / 16 % 4 = 3 ∨
      ((0x26 : Word32).toNat / 16 % 4 = 2 ∧ (ready .f32 8 0x1000 []).params.hasV4 = false)) := by decide +kernel

/-- StepRunsDecodedCommand. -/
theorem witness_step_runs :
    (withPort (ready .f64 8 0x1000 []) [.write 0 0x16, .read 3]).port = .write 0 0x16 :: [.read 3] ∧
    faulted (withPort (ready .f64 8 0x1000 []) [.write 0 0x16, .read 3]) = false ∧
    decodeCommand 0x16 = .ok (.invprep .f64) := by decide +kernel

/-- PortWidthRules: an address width below and one at 64 bits, values on both sides of bit 32. -/
theorem witness_port_width :
    faulted State.reset = false ∧ State.reset.params.aw ≤ 64 ∧ ({ Params.default with aw := 64 } : Params).aw ≤ 64 ∧
    2 ^ 32 ≤ 2 ^ 32 ∧ 2 ^ 32 - 1 < 2 ^ 32 := by decide +kernel

/-- UnknownRegistersReadZero: the first number that does not exist. -/
theorem witness_unknown_register : 5 ≤ 5 ∧ ¬ 5 ≤ 4 := by decide

/-- FaultedIgnoresWrites and OnlyResetLeavesFaulted: a FAULTED engine with a write, a read, a store and a reset to come. -/
theorem witness_faulted_write :
    faulted (withPort faultedX4 [.write 1 8]) = true ∧ (withPort faultedX4 [.write 1 8]).port = .write 1 8 :: [] := ⟨rfl, rfl⟩

theorem witness_faulted_read :
    faulted (withPort faultedX4 [.read 4]) = true ∧ (withPort faultedX4 [.read 4]).port = .read 4 :: [] := ⟨rfl, rfl⟩

theorem witness_faulted_store :
    faulted (withPort faultedX4 [.store 0x1000 1]) = true ∧
    ∃ t, step (withPort faultedX4 [.store 0x1000 1]) = .next t ∧ HostEvent.store 0x1000 1 ≠ .reset ∧
      ∀ v, HostEvent.store 0x1000 1 ≠ .resetDuring v := ⟨rfl, _, rfl, by decide, fun _ => nofun⟩

theorem witness_fault_left :
    ∃ t, faulted (withPort faultedX4 [.reset]) = true ∧ step (withPort faultedX4 [.reset]) = .next t ∧ faulted t = false :=
  ⟨_, rfl, rfl, rfl⟩

/-- StepTakesOneTransaction and ParametersNeverChange. -/
theorem witness_one_transaction :
    ∃ t, (withPort State.reset [.write 1 8, .read 1]).port = .write 1 8 :: [.read 1] ∧
      step (withPort State.reset [.write 1 8, .read 1]) = .next t := ⟨_, rfl, rfl⟩

/-- StepTakesOneTransaction, the last clause: a host program of writes and reads. -/
theorem witness_host_program :
    ∀ e ∈ (withPort State.reset [.write 1 8, .write 0 1, .read 3]).port, (∃ r v, e = .write r v) ∨ ∃ r, e = .read r := by
  intro e he
  have he' : e ∈ [HostEvent.write 1 8, .write 0 1, .read 3] := he
  simp only [List.mem_cons, List.not_mem_nil, or_false] at he'
  rcases he' with rfl | rfl | rfl
  · exact .inl ⟨_, _, rfl⟩
  · exact .inl ⟨_, _, rfl⟩
  · exact .inr ⟨_, rfl⟩

/-- StepTakesOneTransaction, the second clause: a run that ends in a next state. -/
theorem witness_run : ∃ t, Host.Core.run core 1 (withPort State.reset [.write 1 8, .read 1]) = .next t :=
  ⟨_, run_succ_iff.2 ⟨_, rfl, rfl⟩⟩

/-- HostStoreWritesOneByte: the last byte of the space, and the two kinds of absent byte. -/
theorem witness_store_backed : 0xFFFFFFFF < 2 ^ State.reset.params.aw ∧ State.reset.params.backed 0xFFFFFFFF := by decide +kernel

theorem witness_store_absent :
    2 ^ State.reset.params.aw ≤ 0x100000000 ∧ ¬ holed.params.backed 0x2010 ∧ ¬ holed.params.backed 0x2FFF ∧
    holed.params.backed 0x200F ∧ holed.params.backed 0x3000 := by decide +kernel

/-- SharedFootprintRefused: the first and last byte of a footprint, and the bytes beside it. -/
theorem witness_shared :
    Accepts (Instr.cfft .f32).lt (ready .f32 8 0x1000 []) ∧
    InFootprint .f32 (ready .f32 8 0x1000 []) 0x1000 ∧ InFootprint .f32 (ready .f32 8 0x1000 []) 0x101F ∧
    ¬ InFootprint .f32 (ready .f32 8 0x1000 []) 0x0FFF ∧ ¬ InFootprint .f32 (ready .f32 8 0x1000 []) 0x1020 :=
  ⟨accepts_ready8 .f32, by decide +kernel, by decide +kernel, by decide +kernel, by decide +kernel⟩

/-- ResetEventEffect. -/
theorem witness_reset_event : (withPort faultedX4 [.reset, .write 1 8]).port = .reset :: [.write 1 8] := rfl

/-- ResetAbandonsCommand: a command that runs its passes, and one that does not. -/
theorem witness_reset_during :
    Accepts (Instr.rfft .v4f32).lt (ready .v4f32 8 0x1000 []) ∧ ¬ InFootprint .v4f32 (ready .v4f32 8 0x1000 []) 0x1080 ∧
    ¬ Accepts (Instr.rfft .v4f32).lt faultedX4 :=
  ⟨accepts_ready8 _, by decide +kernel, fun h => Bool.noConfusion (h.live.symm.trans rfl)⟩

/-- BadSizeFaults: 0, 1, 3, 6 and the largest value. -/
theorem witness_bad_size :
    faulted State.reset = false ∧ (Instr.cfft .v4f32).lt.present State.reset.params = true ∧
    ¬ LegalSize 0 ∧ ¬ LegalSize 1 ∧ ¬ LegalSize 3 ∧ ¬ LegalSize 6 ∧ ¬ LegalSize 0xFFFFFFFF :=
  ⟨rfl, rfl, (badSize_iff _).1 rfl, (badSize_iff _).1 rfl, (badSize_iff _).1 rfl, (badSize_iff _).1 rfl,
    (badSize_iff _).1 (by decide +kernel)⟩

/-- OversizeFaults: the first size above NMAX, X6. -/
theorem witness_oversize :
    faulted (ready .f32 8192 0x1000 []) = false ∧ (Instr.cfft .f32).lt.present (ready .f32 8192 0x1000 []).params = true ∧
    LegalSize (ready .f32 8192 0x1000 []).n ∧
    2 ^ (ready .f32 8192 0x1000 []).params.log2NMax < (ready .f32 8192 0x1000 []).n.toNat :=
  ⟨rfl, rfl, ⟨13, by decide, rfl⟩, by decide +kernel⟩

/-- AddressFaults, first clause: X7b, misaligned by 4 for F64. -/
theorem witness_misaligned :
    LegalSize (ready .f64 8 0x1004 []).n ∧
    (ready .f64 8 0x1004 []).n.toNat ≤ 2 ^ (ready .f64 8 0x1004 []).params.log2NMax ∧
    (ready .f64 8 0x1004 []).base.toNat % align .f64 ≠ 0 := ⟨⟨3, by decide, rfl⟩, by decide +kernel, by decide +kernel⟩

/-- AddressFaults, second clause: X8, one element too far; X8b (`accepts_top`) lies on the bound. -/
theorem witness_addr_range :
    LegalSize (ready .f32 8 0xFFFFFFF0 []).n ∧
    (ready .f32 8 0xFFFFFFF0 []).n.toNat ≤ 2 ^ (ready .f32 8 0xFFFFFFF0 []).params.log2NMax ∧
    (ready .f32 8 0xFFFFFFF0 []).base.toNat % align .f32 = 0 ∧
    2 ^ (ready .f32 8 0xFFFFFFF0 []).params.aw
      < (ready .f32 8 0xFFFFFFF0 []).base.toNat + (ready .f32 8 0xFFFFFFF0 []).n.toNat * esize .f32 :=
  ⟨⟨3, by decide, rfl⟩, by decide +kernel, by decide +kernel, by decide +kernel⟩

/-- AddressFaults, third clause: X9. -/
theorem witness_bus :
    faulted holed = false ∧ LegalSize holed.n ∧ holed.n.toNat ≤ 2 ^ holed.params.log2NMax ∧
    holed.base.toNat % align .f32 = 0 ∧ holed.base.toNat + holed.n.toNat * esize .f32 ≤ 2 ^ holed.params.aw ∧
    ∃ a, InFootprint .f32 holed a ∧ ¬ holed.params.backed a :=
  ⟨rfl, ⟨3, by decide, rfl⟩, by decide +kernel, by decide +kernel, by decide +kernel, 0x2010, by decide +kernel,
    by decide +kernel⟩

/-- FaultsArePrecise: an engine that is not FAULTED and meets the preconditions (`accepts_ready8`), and one that does not. -/
theorem witness_not_accepted : faulted State.reset = false ∧ ¬ Accepts (Instr.bitrev .f32).lt State.reset :=
  ⟨rfl, fun h => (badSize_iff _).1 rfl h.size⟩

/-- BitrevPermutesPairs and CfftComputesItsStages, `b` = 0, 1 (odd) and 2 (even). -/
theorem witness_point_counts (lt : LaneType) :
    (Accepts lt (ready lt 2 0x1000 []) ∧ (ready lt 2 0x1000 []).n.toNat = 2 ^ (0 + 1)) ∧
    (Accepts lt (ready lt 4 0x1000 []) ∧ (ready lt 4 0x1000 []).n.toNat = 2 ^ (1 + 1)) ∧
    (Accepts lt (ready lt 8 0x1000 []) ∧ (ready lt 8 0x1000 []).n.toNat = 2 ^ (2 + 1)) :=
  ⟨⟨accepts_ready2 lt, rfl⟩, ⟨accepts_ready4 lt, rfl⟩, ⟨accepts_ready8 lt, rfl⟩⟩

/-- UntangleResult, InvprepResult, RfftResult, IrfftResult, the sequences and BitrevTwiceRestores: `e` = 1, 3 and 12. -/
theorem witness_sizes (lt : LaneType) :
    (Accepts lt (ready lt 2 0x1000 []) ∧ (ready lt 2 0x1000 []).n.toNat = 2 ^ 1) ∧
    (Accepts lt (ready lt 8 0x1000 []) ∧ (ready lt 8 0x1000 []).n.toNat = 2 ^ 3) ∧
    (Accepts lt (ready lt 4096 0x10000 []) ∧ (ready lt 4096 0x10000 []).n.toNat = 2 ^ 12) :=
  ⟨⟨accepts_ready2 lt, rfl⟩, ⟨accepts_ready8 lt, rfl⟩, ⟨accepts_ready4096 lt, rfl⟩⟩

/-- CfftOfOnePointIsIdentity. -/
theorem witness_one_point (lt : LaneType) : Accepts lt (ready lt 2 0x1000 []) ∧ (ready lt 2 0x1000 []).n = 2 :=
  ⟨accepts_ready2 lt, rfl⟩

/-- CommandWritesFootprintOnly: every command answers a next state in every state. -/
theorem witness_exec_next (i : Instr) (s : State) : ∃ t, exec i s = .next t := ⟨_, exec_eq i s⟩

/-- ResultDependsOnFootprintOnly: two states that differ in an internal register, a read value and a byte outside. -/
theorem witness_same_footprint :
    let s := ready .f32 2 0x1000 [1, 3]
    let t := { ready .f32 2 0x1000 [1, 3, 7] with reads := [5], epoch := 9, cnt := ⟨1, 2, 3, 4, 5, 6⟩ }
    Accepts (Instr.invprep .f32).lt s ∧ t.params = s.params ∧ t.n = s.n ∧ t.base = s.base ∧ faulted t = false ∧
      t.draws = s.draws ∧ (∀ a, InFootprint (Instr.invprep .f32).lt s a → memByte t.mem a = memByte s.mem a) ∧
      memByte t.mem 0x1008 = 7 := by
  refine ⟨⟨rfl, rfl, ⟨1, by decide, rfl⟩, by decide +kernel, by decide, by decide +kernel, fun _ _ _ h => nomatch h⟩, rfl, rfl, rfl, rfl, rfl, ?_, rfl⟩
  rintro a ⟨h1, h2⟩
  have h1' : 0x1000 ≤ a := h1
  have h2' : a < 0x1008 := h2
  have : a = 0x1000 ∨ a = 0x1001 ∨ a = 0x1002 ∨ a = 0x1003 ∨ a = 0x1004 ∨ a = 0x1005 ∨ a = 0x1006 ∨ a = 0x1007 := by omega
  rcases this with rfl | rfl | rfl | rfl | rfl | rfl | rfl | rfl <;> rfl

/-- LanesAreIndependent: lane 3 of two V4F32 elements holds what the F32 buffer holds. -/
theorem witness_lanes :
    let s := ready .v4f32 2 0x1000 [0x40000000000000000000000000000000, 0x40400000000000003F80000000000000]
    let u := ready .f32 2 0x2000 [0x40000000, 0x40400000]
    3 < 4 ∧ Accepts .v4f32 s ∧ Accepts .f32 u ∧ u.n = s.n ∧ u.params.flush = s.params.flush ∧
      ∀ k, k < s.n.toNat → LaneAlike binary32 ((elem .v4f32 s k).getD 3 0) ((elem .f32 u k).getD 0 0) := by
  refine ⟨by decide,
    ⟨rfl, rfl, ⟨1, by decide, rfl⟩, by decide +kernel, by decide, by decide +kernel, fun _ _ _ h => nomatch h⟩,
    ⟨rfl, rfl, ⟨1, by decide, rfl⟩, by decide +kernel, by decide, by decide +kernel, fun _ _ _ h => nomatch h⟩,
    rfl, rfl, ?_⟩
  intro k hk
  have hk' : k < 2 := hk
  have : k = 0 ∨ k = 1 := by omega
  rcases this with rfl | rfl <;> exact .inl (by decide +kernel)

/-- ButterflyOfTwo: neighbours on either side, in every lane type. -/
theorem witness_butterfly (lt : LaneType) :
    (bcast lt const64One).length = laneCount lt ∧ (0 + 1 < 2 ∨ 2 + 1 < 0) ∧ (2 + 1 < 0 ∨ 0 + 1 < 2) := by
  cases lt <;> decide

/-- Radix4StageResult and Radix2StageResult: the smallest stages and the largest of the default instance. -/
theorem witness_stages :
    (1 ≤ 1 ∧ 1 + 1 < 3 ∧ (ctxOf (ready .f32 8 0x1000 [])).n = 2 ^ 3) ∧ (1 ≤ 1 ∧ 1 < 2 ∧ (ctxOf (ready .f32 4 0x1000 [])).n = 2 ^ 2) ∧
    (1 ≤ 9 ∧ 9 + 1 < 12 ∧ (ctxOf (ready .f32 4096 0x1000 [])).n = 2 ^ 12) ∧
    (1 ≤ 11 ∧ 11 < 12 ∧ (ctxOf (ready .f32 4096 0x1000 [])).n = 2 ^ 12) := by decide +kernel

/-- ArithmeticRoundsCorrectly, SpecialSums, SpecialProducts: zero, the least subnormal and the largest finite value are finite. -/
theorem witness_finite :
    (Reference.Finite binary32 0x00000000 ∧ Reference.Finite binary32 0x80000001 ∧ Reference.Finite binary32 0x7F7FFFFF ∧
      isZero binary32 0x80000001 = false ∧ isNan binary32 0x7F800000 = false) ∧
    (Reference.Finite binary64 0x0000000000000000 ∧ Reference.Finite binary64 0x8000000000000001 ∧ Reference.Finite binary64 0x7FEFFFFFFFFFFFFF ∧
      isZero binary64 0x8000000000000001 = false ∧ isNan binary64 0x7FF0000000000000 = false) := by
  unfold Reference.Finite
  decide +kernel

/-- SpecialSums: the infinities an infinity may be added to, or taken from. -/
theorem witness_infinities (f : Fmt) (s : Bool) : infOf f s = infOf f s ∧ infOf f (!s) = infOf f (!s) := ⟨rfl, rfl⟩

/-- SpecialProducts: the least and the largest exponent of each format, and a product that is exact. -/
theorem witness_powers :
    0 + 2 < 2 ^ (binary32.width - binary32.frac - 2) ∧ 125 + 2 < 2 ^ (binary32.width - binary32.frac - 2) ∧
    1021 + 2 < 2 ^ (binary64.width - binary64.frac - 2) ∧
    2 ^ binary32.frac * 2 ^ 125 ≤ (value binary32 0x3F800000).natAbs := by decide +kernel

/-- NanOperandsGiveQuietNans: a NaN, infinities of equal and of opposite sign, a zero, a quiet NaN, lane groups of full length. -/
theorem witness_invalid :
    isNan binary32 0x7F800001 = true ∧ isInf binary32 0x7F800000 = true ∧ isInf binary32 0xFF800000 = true ∧
    isNeg binary32 0x7F800000 ≠ isNeg binary32 0xFF800000 ∧ isZero binary32 0x80000000 = true ∧
    IsQuietNan binary32 0xFFC00000 ∧ ¬ IsQuietNan binary32 0x7F800001 ∧
    ([0, 1, 2, 3] : LaneGroup .v4f32).length = laneCount .v4f32 := by
  unfold IsQuietNan
  decide +kernel

/-- FlushReplacesSubnormals: the largest subnormal, the least normal, a subnormal result of normal operands. -/
theorem witness_subnormal :
    isSubnormal binary32 0x807FFFFF = true ∧ isSubnormal binary32 0x00800000 = false ∧
    isSubnormal binary32 0x3F000000 = false ∧ isSubnormal binary32 (mulF binary32 0 0x3F000000 0x00800000) = true ∧
    isSubnormal binary32 (mulF binary32 0 0x3F000000 0x01000000) = false := by decide +kernel

/-- LoadAfterStore: a full lane group, another element, the bytes beside the element. -/
theorem witness_store (lt : LaneType) :
    (bcast lt const64One).length = laneCount lt ∧ (1 : Nat) ≠ 0 ∧
    0x0FFF < elemAddr lt 0x1000 0 ∧ elemAddr lt 0x1000 0 + esize lt ≤ 0x1010 := by
  cases lt <;> decide

/-- FirstTwiddleAdvance, TwiddleInitFormulas: the ends of the range; the increment's imaginary part is a zero for `q = 1` alone of these. -/
theorem witness_twiddle :
    (1 ≤ 1 ∧ 1 ≤ 30) ∧ (1 ≤ 30 ∧ 30 ≤ 30) ∧ isZero binary64 (twInit 1).wpim = true ∧
    isZero binary64 (twInit 2).wpim = false ∧ isZero binary64 (twInit 30).wpim = false := by decide +kernel

/-- TwiddleUnitFormulas, the last clause: registers of a stage in use, and the bound 2.5 itself outside. -/
theorem witness_small_registers :
    ∃ t : Rotor, t = rotor 3 1 ∧
      (∀ x ∈ [t.wre, t.wim, t.wpre, t.wpim], magOf binary64 x < 0x4004000000000000) ∧
      ¬ magOf binary64 0xC004000000000000 < 0x4004000000000000 :=
  ⟨⟨0x3FE6A09E667F3BCC, 0xBFE6A09E667F3BCD, 0x3FD2BEC333018867, 0xBFE6A09E667F3BCD⟩, by decide +kernel, by
    rintro x hx
    simp only [List.mem_cons, List.not_mem_nil, or_false] at hx
    rcases hx with rfl | rfl | rfl | rfl <;> decide +kernel, by decide +kernel⟩

/-- SineRomIsNearest: the last row, and a finite value to compare with; ElementLayout: the last lane. -/
theorem witness_rom_row : 30 ≤ 30 ∧ Reference.Finite binary64 0x3FF0000000000000 ∧ 3 < 4 := by
  unfold Reference.Finite
  decide +kernel

/-- StepKeepsInvariant: a state right after reset with a transaction to come, and a FAULTED one. -/
theorem witness_invariant_reset :
    ∃ t, Inv (withPort State.reset [.write 0 1]) ∧ step (withPort State.reset [.write 0 1]) = .next t :=
  ⟨_, ⟨rfl, by decide, by decide, .inl ⟨rfl, rfl, rfl⟩, by unfold CountersFit; decide⟩, rfl⟩

theorem witness_invariant_faulted :
    ∃ t, Inv (withPort faultedX4 [.write 1 8]) ∧ step (withPort faultedX4 [.write 1 8]) = .next t :=
  ⟨_, ⟨rfl, by decide, by decide,
    .inr ⟨.badN, rfl, rfl, rfl, (badSize_iff _).1 rfl⟩, by unfold CountersFit; decide⟩, rfl⟩

/-! ## The twiddle unit (V15, V17, V19) -/

theorem test_twiddle_v15 : twAdv (twInit 1) = ⟨0xBFF0000000000000, 0, 0x4000000000000000, 0x8000000000000000⟩ := by
  decide +kernel

theorem test_twiddle_v17 :
    rotor 3 3 = ⟨0xBFE6A09E667F3BCE, 0xBFE6A09E667F3BCB, 0x3FD2BEC333018867, 0xBFE6A09E667F3BCD⟩ ∧
    twSqRe (rotor 3 3) = 0x3CC0000000000000 ∧ twSqIm (rotor 3 3) = 0x3FF0000000000000 := by
  decide +kernel

theorem test_twiddle_v19 :
    (rotor 12 1).wre = 0x3FEFFFFD88586EE6 ∧ (rotor 12 1).wim = 0xBF5921FAAEE6472E ∧
    twSqRe (rotor 12 1) = 0x3FEFFFF621621D01 ∧ twSqIm (rotor 12 1) = 0xBF6921F8BECCA4BB := by
  decide +kernel

/-! ## The commands (two vectors each) -/

-- V22
theorem test_cfft_f32 :
    elems .f32 (exec (.cfft .f32) (ready .f32 8 0x1000 [0x3F800000, 0x40000000, 0x40400000, 0x40800000,
      0x40A00000, 0x40C00000, 0x40E00000, 0x41000000]))
    = [0x41800000, 0x41A00000, 0xC1000000, 0x00000000, 0xC0800000, 0xC0800000, 0x00000000, 0xC1000000] := by
  decide +kernel

-- V26: a radix-4 stage, then a radix-2 stage with four twiddles
theorem test_cfft_both_stages :
    elems .f32 (exec (.cfft .f32) (ready .f32 16 0x1000 [0x3F800000, 0x40000000, 0x40400000, 0x40800000,
      0x40A00000, 0x40C00000, 0x40E00000, 0x41000000, 0x41100000, 0x41200000, 0x41300000, 0x41400000,
      0x41500000, 0x41600000, 0x41700000, 0x41800000]))
    = [0x42800000, 0x42900000, 0xC1DA827A, 0x413504F3, 0xC1800000, 0x00000000, 0xC13504F3, 0xC095F61A,
      0xC1000000, 0xC1000000, 0xC095F61A, 0xC13504F3, 0x00000000, 0xC1800000, 0x413504F3, 0xC1DA827A] := by
  decide +kernel

-- V34
theorem test_rfft_f32 :
    elems .f32 (exec (.rfft .f32) (ready .f32 8 0x1000 [0x3F800000, 0x40000000, 0x40400000, 0x40800000,
      0x40A00000, 0x40C00000, 0x40E00000, 0x41000000]))
    = [0x42100000, 0xC0800000, 0xC0800000, 0x411A827A, 0xC0800000, 0x40800000, 0xC0800000, 0x3FD413CC] := by
  decide +kernel

-- V51, elements as 128-bit numbers, lane 0 lowest (R33)
theorem test_rfft_v4f32 :
    elems .v4f32 (exec (.rfft .v4f32) (ready .v4f32 4 0x3000 [0xBF8000003F800000000000003F800000,
      0x3F000000000000000000000040000000, 0x40000000000000003F80000040400000, 0xC0400000000000000000000040800000]))
    = [0xBFC000003F8000003F80000041200000, 0x406000003F8000003F800000C0000000, 0xC04000003F800000BF800000C0000000,
      0xC0600000800000008000000040000000] := by
  decide +kernel

-- V42
theorem test_irfft_f64 :
    elems .f64 (exec (.irfft .f64) (ready .f64 4 0x2000 [0x4024000000000000, 0xC000000000000000, 0xC000000000000000,
      0x4000000000000000]))
    = [0x3FF0000000000000, 0x4000000000000000, 0x4008000000000000, 0x4010000000000000] := by
  decide +kernel

-- V41: only the DC/Nyquist steps
theorem test_irfft_n2 :
    elems .f32 (exec (.irfft .f32) (ready .f32 2 0x1000 [0x41000000, 0xC0000000])) = [0x40400000, 0x40A00000] := by
  decide +kernel

-- V11
theorem test_bitrev_f32 :
    elems .f32 (exec (.bitrev .f32) (ready .f32 8 0x1000 [0x41200000, 0x41300000, 0x41A00000, 0x41A80000,
      0x41F00000, 0x41F80000, 0x42200000, 0x42240000]))
    = [0x41200000, 0x41300000, 0x41F00000, 0x41F80000, 0x41A00000, 0x41A80000, 0x42200000, 0x42240000] := by
  decide +kernel

-- V13, element k holding the number k
theorem test_bitrev_f64 :
    elems .f64 (exec (.bitrev .f64) (ready .f64 16 0x1000 [0, 1, 2, 3, 4, 5, 6, 7, 8, 9, 10, 11, 12, 13, 14, 15]))
    = [0, 1, 8, 9, 4, 5, 12, 13, 2, 3, 10, 11, 6, 7, 14, 15] := by
  decide +kernel

-- V36b: the middle bin's zero changes sign
theorem test_untangle_middle :
    elems .f32 (exec (.untangle .f32) (ready .f32 4 0x1000 [0, 0, 0x40A00000, 0])) = [0, 0, 0x40A00000, 0x80000000] := by
  decide +kernel

-- V38: one bin pair
theorem test_untangle_pair :
    elems .f64 (exec (.untangle .f64) (ready .f64 8 0x1000 [0x3FF0000000000000, 0x4000000000000000, 0x4008000000000000,
      0x4010000000000000, 0x4014000000000000, 0x4018000000000000, 0x401C000000000000, 0x4020000000000000]))
    = [0x4008000000000000, 0xBFF0000000000000, 0x4025504F333F9DE6, 0xC013504F333F9DE7, 0x4014000000000000,
      0xC018000000000000, 0xBFE504F333F9DE60, 0xBFEA827999FCEF38] := by
  decide +kernel

-- V40c
theorem test_invprep_mirror :
    elems .f32 (exec (.invprep .f32) (ready .f32 8 0x1000 [0x41000000, 0x41800000, 0x3F800000, 0x40000000,
      0x40400000, 0x40800000, 0x40A00000, 0x40C00000]))
    = [0x3F800000, 0x40000000, 0x3FA00000, 0x3FC00000, 0x3F400000, 0x3F800000, 0x3E800000, 0x3F000000] := by
  decide +kernel

-- V40e, with and without FLUSH_SUBNORMALS
theorem test_invprep_subnormals :
    elems .f32 (exec (.invprep .f32) (ready .f32 2 0x1000 [1, 3])) = [0, 2] ∧
    elems .f32 (exec (.invprep .f32) (readyFlush .f32 2 0x1000 [1, 3])) = [0, 0] := by
  decide +kernel

end Sys2Proof.Tests
end

section
/-! The host transactions: what each answers, which fields of the state it keeps, and the
obligations about the registers, the host's stores and the values after reset (spec/10_state.md). -/

namespace Sys2Proof.Machine

/-! ## An accepted command (60_exceptions.md R137, R142) -/

/-- The size of an accepted buffer, as the passes' lemmas take it (60_exceptions.md R139). -/
theorem Accepts.exists_size {lt : LaneType} {s : State} (h : Accepts lt s) : ∃ b, s.n.toNat = 2 ^ (b + 1) := by
  obtain ⟨e, he, hn⟩ := h.size
  exact ⟨e - 1, by rw [hn, Nat.sub_add_cancel he]⟩

/-- Acceptance is decided by STATUS.FAULT, the parameters, N and BASE alone (60_exceptions.md R137). -/
theorem Accepts.congr {lt : LaneType} {s t : State} (h : Accepts lt s) (hp : t.params = s.params) (hn : t.n = s.n)
    (hb : t.base = s.base) (hf : faulted t = false) : Accepts lt t := by
  obtain ⟨-, hlane, hsize, hrange, haligned, hspace, hbacked⟩ := h
  refine ⟨hf, ?_, ?_, ?_, ?_, ?_, ?_⟩ <;> simpa only [InFootprint, hp, hn, hb]

/-- An accepted command answers the end of its passes. -/
theorem exec_accepted {i : Instr} {s : State} (h : Accepts i.lt s) :
    exec i s = .next (finish (passesOf i (ctxOf s) (workOf s)).2 s) := by
  rw [exec_eq, runCommand_accepted _ h]

/-! ## Writes and reads of the registers (10_state.md R11 to R17, R27 to R29) -/

theorem hostWrite_faulted {s : State} (r v : Nat) (hf : faulted s = true) : hostWrite r v s = .next s := by
  simp [hostWrite, hf]

theorem hostWrite_cmd {s : State} (v : Nat) (hf : faulted s = false) : hostWrite 0 v s = writeCmd v s := by
  simp [hostWrite, hf]

theorem hostWrite_n {s : State} (v : Nat) (hf : faulted s = false) : hostWrite 1 v s = .next (setN v s) := by
  simp [hostWrite, hf]

theorem hostWrite_base {s : State} (v : Nat) (hf : faulted s = false) : hostWrite 2 v s = .next (setBase v s) := by
  simp [hostWrite, hf]

/-- STATUS, FINFO and the unknown numbers ignore writes, FAULTED or not. -/
theorem hostWrite_ignored (s : State) {r : Nat} (v : Nat) (hr : 3 ≤ r) : hostWrite r v s = .next s := by
  rcases hostWrite_cases r v s with h | ⟨-, rfl, -⟩ | ⟨-, rfl, -⟩ | ⟨-, rfl, -⟩
  · exact h
  all_goals omega

theorem writeCmd_ok {v : Nat} {i : Instr} (s : State) (hd : decodeCommand v = .ok i) : writeCmd v s = exec i s := by
  simp [writeCmd, hd]

theorem writeCmd_error {v : Nat} {r : DecodeError} (s : State) (hd : decodeCommand v = .error r) :
    writeCmd v s = .next (raiseFault .badCmd (BitVec.ofNat 64 v) s) := by
  simp [writeCmd, hd]

theorem decodeCommand_of_lt {v : Nat} (hv : v < 2 ^ 32) : decodeCommand v = decodeWord (BitVec.ofNat 32 v) := if_pos hv

theorem decodeCommand_of_le {v : Nat} (hv : 2 ^ 32 ≤ v) : decodeCommand v = .error .wideWord := if_neg (Nat.not_lt.2 hv)

theorem ofNat_mod_two_pow (w v : Nat) : BitVec.ofNat w (v % 2 ^ w) = BitVec.ofNat w v :=
  BitVec.eq_of_toNat_eq (by simp only [BitVec.toNat_ofNat, Nat.mod_mod])

theorem hostReg_unknown (s : State) {r : Nat} (hr : 5 ≤ r) : hostReg s r = 0 := by
  obtain ⟨k, rfl⟩ := Nat.exists_eq_add_of_le' hr
  rfl

/-! ## The decoder on a command's own word (30_encoding.md R56) -/

theorem wordFields (i : Instr) : Laws.WordFields.Statement i := by
  cases i with
  | cfft lt => exact Laws.WordFields.cfft lt
  | rfft lt => exact Laws.WordFields.rfft lt
  | irfft lt => exact Laws.WordFields.irfft lt
  | bitrev lt => exact Laws.WordFields.bitrev lt
  | untangle lt => exact Laws.WordFields.untangle lt
  | invprep lt => exact Laws.WordFields.invprep lt

theorem decodeWord_encode (i : Instr) : decodeWord (encode i) = .ok i := by
  obtain ⟨hzero, hlt, hop⟩ := wordFields i
  simp [decodeWord, hzero, hlt, hop]

theorem decodeCommand_encode (i : Instr) : decodeCommand (encode i).toNat = .ok i := by
  rw [decodeCommand_of_lt (encode i).isLt, BitVec.ofNat_toNat, BitVec.setWidth_eq, decodeWord_encode]

/-! ## Stores and shared accesses (10_state.md R10, 20_memory.md R30, R37, R47) -/

/-- A host access finds memory exactly at the backed addresses of the space (20_memory.md R30, R37). -/
theorem hasMemory_iff (p : Params) (a : Nat) : hasMemory p a = true ↔ a < 2 ^ p.aw ∧ p.backed a := by
  have hbyte : meetsHole p a (a + 1) = true ↔ ¬ p.backed a := by
    rw [meetsHole_iff]
    constructor
    · rintro ⟨x, hlo, hhi, hx⟩
      rwa [show a = x by omega]
    · exact fun h => ⟨a, le_rfl, Nat.lt_succ_self a, h⟩
  rw [hasMemory, Bool.and_eq_true, decide_eq_true_iff, Bool.not_eq_true', ← Bool.not_eq_true, hbyte, not_not]

/-- A host store that does not stop changes data memory alone. -/
theorem hostStore_cases {a : Nat} {b : Byte} {s t : State} (h : hostStore a b s = .next t) :
    hasMemory s.params a = true ∧ t = { s with mem := memPut s.mem a b } := by
  unfold hostStore at h
  split at h
  · exact ⟨‹_›, by simpa using h.symm⟩
  · simp at h

/-- The write to CMD is all that a shared write that is not refused does (20_memory.md R47). -/
theorem writeShared_cases {v a : Nat} {s t : State} (h : writeShared v a s = .next t) : hostWrite 0 v s = .next t := by
  unfold writeShared at h
  split at h
  · simp at h
  · exact h

/-! ## A FAULTED engine (10_state.md R28, 60_exceptions.md R143) -/

theorem footprintLen_faulted {s : State} (v : Nat) (hf : faulted s = true) : footprintLen v s = 0 := by
  simp [footprintLen, hf]

theorem writeShared_faulted {s : State} (v a : Nat) (hf : faulted s = true) : writeShared v a s = .next s := by
  rw [writeShared, footprintLen_faulted v hf, if_neg (by omega), hostWrite_faulted 0 v hf]

/-- A transaction on a FAULTED engine that is no reset keeps the host registers and PHASE. -/
theorem perform_faulted {e : HostEvent} {s t : State} (hf : faulted s = true) (h : perform e s = .next t) (hr : e ≠ .reset)
    (hd : ∀ v, e ≠ .resetDuring v) :
    t.n = s.n ∧ t.base = s.base ∧ t.status = s.status ∧ t.finfo = s.finfo ∧ t.phase = s.phase := by
  cases e with
  | write r v =>
    rw [perform, hostWrite_faulted r v hf] at h
    cases h
    exact ⟨rfl, rfl, rfl, rfl, rfl⟩
  | read r =>
    cases h
    exact ⟨rfl, rfl, rfl, rfl, rfl⟩
  | store a b =>
    obtain ⟨-, rfl⟩ := hostStore_cases h
    exact ⟨rfl, rfl, rfl, rfl, rfl⟩
  | reset => exact absurd rfl hr
  | resetDuring v => exact absurd rfl (hd v)
  | writeShared v a =>
    rw [perform, writeShared_faulted v a hf] at h
    cases h
    exact ⟨rfl, rfl, rfl, rfl, rfl⟩

/-! ## The parameters (10_state.md R25) -/

theorem runCommand_params (i : Instr) (passes : Ctx → Eng Unit) (s : State) : (runCommand i passes s).params = s.params := by
  rcases runCommand_cases i passes s with ⟨-, h⟩ | ⟨-, -, c, x, -, h⟩ | ⟨-, h⟩
  · rw [h]
  · rw [h, raiseFault_params]
  · rw [h, finish_params]

theorem hostWrite_params {r v : Nat} {s t : State} (h : hostWrite r v s = .next t) : t.params = s.params := by
  rcases hostWrite_cases r v s with hw | ⟨-, -, hw⟩ | ⟨-, -, hw⟩ | ⟨-, -, hw⟩ <;> rw [hw] at h
  · cases h; rfl
  · rcases writeCmd_cases v s with ⟨i, -, hc⟩ | ⟨r, -, hc⟩ <;> rw [hc] at h <;> cases h
    · exact runCommand_params _ _ _
    · rfl
  · cases h; rfl
  · cases h; rfl

theorem perform_params {e : HostEvent} {s t : State} (h : perform e s = .next t) : t.params = s.params := by
  cases e with
  | write r v => exact hostWrite_params h
  | read r => cases h; rfl
  | store a b => obtain ⟨-, rfl⟩ := hostStore_cases h; rfl
  | reset => cases h; rfl
  | resetDuring v => cases h; rfl
  | writeShared v a => exact hostWrite_params (writeShared_cases h)

/-! ## The obligations about the registers -/

/-- Settles O9: a write is ignored, a read appends the register, and `perform_faulted` gives the rest. -/
theorem faultedIgnoresWrites : Obligations.FaultedIgnoresWrites := by
  intro s e rest hf hport
  have hstep := step_of_cons hport
  have hf' : faulted { s with port := rest } = true := hf
  refine ⟨?_, ?_, fun t ht hr hd => (perform_faulted hf' (hstep.symm.trans ht) hr hd :)⟩
  · rintro r v rfl
    rw [hstep, perform, hostWrite_faulted r v hf']
  · rintro r rfl
    refine ⟨hostReg s r, hstep, ?_, ?_, ?_, ?_, ?_⟩
    iterate 4 · rintro rfl; rfl
    · rintro (rfl | hr)
      · rfl
      · exact hostReg_unknown s hr

/-- Settles O49: a step that does not wait performs one transaction, and none of them changes the parameters. -/
theorem parametersNeverChange : Obligations.ParametersNeverChange := by
  intro s t h
  rcases step_cases h with ⟨-, rfl⟩ | ⟨e, rest, -, hp⟩
  · rfl
  · exact (perform_params hp :)

/-- Settles O5: the step performs the write, which is that of a legal word to CMD. -/
theorem stepRunsDecodedCommand : Obligations.StepRunsDecodedCommand := by
  intro s v rest i hport hf hd
  rw [step_of_cons hport, perform, hostWrite_cmd v (by exact hf), writeCmd_ok _ hd]

/-- Settles O6: N and BASE are cut to their width, a CMD value above 32 bits has no command, and reads are `hostReg`. -/
theorem portWidthRules : Obligations.PortWidthRules := by
  intro s v
  refine ⟨fun hf => ⟨?_, fun haw => ?_, fun hv => ?_⟩, decodeCommand_of_lt, rfl, rfl, rfl, rfl⟩
  · rw [hostWrite_n v hf, setN, ofNat_mod_two_pow]
  · refine ⟨BitVec.ofNat 64 (v % 2 ^ s.params.aw), ?_, hostWrite_base v hf⟩
    have hlt : v % 2 ^ s.params.aw < 2 ^ 64 :=
      (Nat.mod_lt v (by positivity)).trans_le (Nat.pow_le_pow_right (by norm_num) haw)
    rw [BitVec.toNat_ofNat, Nat.mod_eq_of_lt hlt]
  · rw [hostWrite_cmd v hf, writeCmd_error s (decodeCommand_of_le hv), ofNat_mod_two_pow]
    rfl

/-- Settles O7: numbers from 5 on are no register. -/
theorem unknownRegistersReadZero : Obligations.UnknownRegistersReadZero := by
  intro s r v hr
  exact ⟨by rw [hostRead, hostReg_unknown s hr], hostWrite_ignored s v (by omega)⟩

/-- Settles O8: CMD has no value to read, and the writes to STATUS and FINFO are among the ignored ones. -/
theorem readOnlyRegisters : Obligations.ReadOnlyRegisters := by
  intro s v
  exact ⟨rfl, hostWrite_ignored s v le_rfl, hostWrite_ignored s v (by norm_num)⟩

/-- Settles O12: `hasMemory` decides between the two outcomes, and `memPut` changes one byte. -/
theorem hostStoreWritesOneByte : Obligations.HostStoreWritesOneByte := by
  intro s a b
  constructor
  · intro hlt hback
    refine ⟨memPut s.mem a b, if_pos ((hasMemory_iff _ _).2 ⟨hlt, hback⟩), memByte_memPut_same _ _ _, ?_⟩
    exact fun x hx => memByte_memPut_other _ _ hx
  · intro h
    refine if_neg fun hm => ?_
    obtain ⟨hlt, hback⟩ := (hasMemory_iff _ _).1 hm
    exact h.elim (Nat.not_le.2 hlt) (· hback)

/-- Settles O14: each value is the one `State.resetOf` names, and its memory lists no byte. -/
theorem resetStateValues : Obligations.ResetStateValues := by
  intro p
  refine ⟨resetOf_n p, resetOf_base p, resetOf_status p, ?_, ?_, resetOf_finfo p, resetOf_phase p, rfl, fun a => ?_⟩
  · rw [resetOf_status]; decide
  · rw [resetOf_status]; decide
  · rw [resetOf_mem]; rfl

end Sys2Proof.Machine
end

section
/-! The invariant of every state between transactions: one rule for each operation over states, then the step (O47, O48). -/

namespace Sys2Proof.Machine

/-! ## The invariant: the rules for its parts -/

/-- Of an engine that is not FAULTED the record is the empty one. -/
theorem Inv.idle {s : State} (h : Inv s) (hf : faulted s = false) : s.status = 0 ∧ s.finfo = 0 ∧ s.phase = .idle := by
  rcases h.record with hidle | ⟨c, hc, -, -⟩
  · exact hidle
  · have hset : statusFault (statusOf c) = true := by cases c <;> decide
    rw [faulted, hc, hset] at hf
    cases hf

/-- The invariant speaks of no host list and no counter of the model's own. -/
theorem Inv.lists {s : State} (h : Inv s) (port : List HostEvent) (reads : List Nat) (draws : Nat) :
    Inv { s with port := port, reads := reads, draws := draws } :=
  ⟨h.memSorted, h.memBacked, h.baseWidth, h.record, h.counters⟩

/-- A new memory in canonical form whose added bytes are backed keeps the invariant. -/
theorem Inv.withMem {s : State} (h : Inv s) {m : Memory} (hsorted : memWf m = true)
    (hcells : ∀ c ∈ m, c ∈ s.mem ∨ (c.1 < 2 ^ s.params.aw ∧ s.params.backed c.1)) : Inv { s with mem := m } :=
  ⟨hsorted, fun c hc => (hcells c hc).elim (h.memBacked c) id, h.baseWidth, h.record, h.counters⟩

/-- The free values of the internal registers fit their width (10_state.md R19, R24). -/
theorem Inv.forget {s : State} (h : Inv s) : Inv (forgetInternal s) :=
  ⟨h.memSorted, h.memBacked, h.baseWidth, h.record, countersFit_forgetInternal s⟩

/-- Bytes of the footprint of an accepted command lie in the backed space (20_memory.md R36, R37). -/
theorem Accepts.backed_lt {lt : LaneType} {s : State} (h : Accepts lt s) {a : Nat} (ha : InFootprint lt s a) :
    a < 2 ^ s.params.aw ∧ s.params.backed a := ⟨ha.2.trans_le h.inSpace, h.backed a ha⟩

/-! ## The invariant: the operations -/

/-- The cause that `CHECK` answers is explained by what it records (60_exceptions.md R136, R137). -/
theorem explained_of_checkFault {i : Instr} {s : State} {c : Cause} {x : Word64} (h : checkFault i s = some (c, x)) :
    Explained (raiseFault c x s) c := by
  have hsize := badSize_iff s.n
  unfold checkFault at h
  split_ifs at h with hlane hbad hrange halign hspace hhole <;> cases h
  · refine ⟨(encode i).toNat, by rw [raiseFault_finfo, BitVec.ofNat_toNat], fun j hj => ?_⟩
    rw [decodeCommand_encode, Except.ok.injEq] at hj
    exact hj ▸ hlane
  · exact ⟨rfl, hsize.1 hbad⟩
  · exact ⟨rfl, not_not.1 (mt hsize.2 hbad), hrange⟩
  · exact ⟨rfl, i.lt, halign⟩
  · exact ⟨rfl, i.lt, hspace⟩
  · obtain ⟨a, hlo, hhi, ha⟩ := (meetsHole_iff _ _ _).1 hhole
    exact ⟨rfl, i.lt, a, ⟨hlo, hhi⟩, ha⟩

/-- A fault entry that is explained keeps the invariant. -/
theorem Inv.fault {s : State} (h : Inv s) {c : Cause} {x : Word64} (hx : Explained (raiseFault c x s) c) :
    Inv (raiseFault c x s) :=
  ⟨h.memSorted, h.memBacked, h.baseWidth, .inr ⟨c, rfl, rfl, hx⟩, h.counters⟩

/-- The passes of an accepted command add cells inside the footprint only, and end with PHASE idle. -/
theorem Inv.finish {i : Instr} {s : State} (h : Inv s) (ha : Accepts i.lt s) :
    Inv (finish (passesOf i (ctxOf s) (workOf s)).2 s) := by
  obtain ⟨b, hb⟩ := ha.exists_size
  obtain ⟨-, hsorted, hcells⟩ := stays_passesOf i (c := ctxOf s) hb (workOf s)
  obtain ⟨hstatus, hfinfo, -⟩ := h.idle ha.live
  have hmem := h.withMem (hsorted h.memSorted) fun c hc => (hcells c hc).imp id ha.backed_lt
  exact Inv.forget ⟨hmem.memSorted, hmem.memBacked, h.baseWidth, .inl ⟨hstatus, hfinfo, passesOf_phase i _ _⟩, h.counters⟩

theorem Inv.runCommand {s : State} (h : Inv s) (i : Instr) : Inv (runCommand i (passesOf i) s) := by
  rcases runCommand_cases i (passesOf i) s with ⟨-, hr⟩ | ⟨-, -, c, x, hc, hr⟩ | ⟨ha, hr⟩ <;> rw [hr]
  · exact h
  · exact h.fault (explained_of_checkFault hc)
  · exact h.finish ha

theorem Inv.writeCmd {v : Nat} {s t : State} (h : Inv s) (ht : writeCmd v s = .next t) : Inv t := by
  rcases writeCmd_cases v s with ⟨i, -, hc⟩ | ⟨r, hd, hc⟩ <;> rw [hc] at ht <;> cases ht
  · exact h.runCommand i
  · exact h.fault ⟨v, rfl, fun i hi => by rw [hd] at hi; cases hi⟩

theorem Inv.setN {s : State} (h : Inv s) (v : Nat) (hf : faulted s = false) : Inv (setN v s) :=
  ⟨h.memSorted, h.memBacked, h.baseWidth, .inl (h.idle hf), h.counters⟩

/-- BASE keeps AW bits at most (10_state.md R15). -/
theorem Inv.setBase {s : State} (h : Inv s) (v : Nat) (hf : faulted s = false) : Inv (setBase v s) :=
  ⟨h.memSorted, h.memBacked, (Nat.mod_le _ _).trans_lt (Nat.mod_lt v (by positivity)), .inl (h.idle hf), h.counters⟩

theorem Inv.hostWrite {r v : Nat} {s t : State} (h : Inv s) (ht : hostWrite r v s = .next t) : Inv t := by
  rcases hostWrite_cases r v s with hw | ⟨-, -, hw⟩ | ⟨hf, -, hw⟩ | ⟨hf, -, hw⟩ <;> rw [hw] at ht
  · cases ht; exact h
  · exact h.writeCmd ht
  · cases ht; exact h.setN v hf
  · cases ht; exact h.setBase v hf

theorem Inv.hostStore {a : Nat} {b : Byte} {s t : State} (h : Inv s) (ht : hostStore a b s = .next t) : Inv t := by
  obtain ⟨hm, rfl⟩ := hostStore_cases ht
  refine h.withMem (memPut_wf a b h.memSorted) fun c hc => ?_
  rcases mem_memPut hc with rfl | hc
  · exact .inr ((hasMemory_iff _ _).1 hm)
  · exact .inl hc

theorem Inv.resetEngine {s : State} (h : Inv s) : Inv (resetEngine s) :=
  Inv.forget ⟨h.memSorted, h.memBacked, Nat.two_pow_pos _, .inl ⟨rfl, rfl, rfl⟩, h.counters⟩

/-- The bytes that a reset during a command leaves unspecified are those of an accepted footprint (70_reset_and_hazards.md R161). -/
theorem Inv.abandon {s : State} (h : Inv s) (e v : Nat) :
    Inv { s with mem := abandonBytes e s.mem s.base.toNat (footprintLen v s) } := by
  refine h.withMem (abandonBytes_wf _ _ _ h.memSorted) fun c hc => (mem_abandonBytes hc).imp id fun hin => ?_
  rcases footprintLen_cases v s with hlen | ⟨i, -, ha, hlen⟩ <;> rw [hlen] at hin
  · omega
  · exact ha.backed_lt hin

theorem Inv.perform {e : HostEvent} {s t : State} (h : Inv s) (ht : perform e s = .next t) : Inv t := by
  cases e with
  | write r v => exact h.hostWrite ht
  | read r => cases ht; exact h.lists _ _ _
  | store a b => exact h.hostStore ht
  | reset => cases ht; exact h.resetEngine
  | resetDuring v => cases ht; exact (h.abandon _ v).resetEngine
  | writeShared v a => exact h.hostWrite (writeShared_cases ht)

/-- Settles O48: a step waits or performs one transaction on the state without it, and each transaction keeps the invariant. -/
theorem stepKeepsInvariant : Obligations.StepKeepsInvariant := by
  intro s t h hstep
  rcases step_cases hstep with ⟨-, rfl⟩ | ⟨e, rest, -, hp⟩
  · exact h
  · exact (h.lists rest s.reads s.draws).perform hp

/-- Settles O47: memory is empty, the registers are 0, and so are the counters (log entry 6). -/
theorem invariantAtReset : Obligations.InvariantAtReset := by
  intro p
  refine ⟨rfl, fun c hc => ?_, Nat.two_pow_pos _, .inl ⟨resetOf_status p, resetOf_finfo p, resetOf_phase p⟩, fun x hx => ?_⟩
  · rw [resetOf_mem] at hc
    cases hc
  · have hzero : x = 0 := by simpa [Counters.zero] using hx
    rw [hzero]
    positivity

end Sys2Proof.Machine
end

section
/-! Two runs of the same command in lockstep. A simulation is given by a relation on lane groups and one on the work that loads, stores,
lane operations, broadcasts and PHASE keep; every command then keeps it, whatever the two lane types and base addresses are. No pass
takes a branch or an index from data, so the two runs always stand at the same micro-operation (O32). -/

namespace Sys2Proof.Machine

/-! ## The rules of lockstep -/

/-- From related work the two sequences give related results and related work. -/
def Lockstep {α β : Type} (R : Work → Work → Prop) (S : α → β → Prop) (x : Eng α) (y : Eng β) : Prop :=
  ∀ w w', R w w' → S (x w).1 (y w').1 ∧ R (x w).2 (y w').2

section
variable {α β γ δ : Type} {R : Work → Work → Prop} {S : α → β → Prop} {T : γ → δ → Prop}

theorem lockstep_pure {a : α} {b : β} (h : S a b) : Lockstep R S (pure a) (pure b) := fun _ _ hw => ⟨h, hw⟩

theorem lockstep_bind {x : Eng α} {y : Eng β} {f : α → Eng γ} {g : β → Eng δ} (hx : Lockstep R S x y)
    (hf : ∀ a b, S a b → Lockstep R T (f a) (g b)) : Lockstep R T (x >>= f) (y >>= g) := fun w w' hw =>
  hf _ _ (hx w w' hw).1 _ _ (hx w w' hw).2

/-- A first part with equal results: those of a store, and of a loop's carried value. -/
theorem lockstep_bind_eq {x y : Eng α} {f : α → Eng γ} {g : α → Eng δ} (hx : Lockstep R Eq x y)
    (hf : ∀ a, Lockstep R T (f a) (g a)) : Lockstep R T (x >>= f) (y >>= g) :=
  lockstep_bind hx fun a _ hab => hab ▸ hf a

theorem lockstep_ite {p : Prop} [Decidable p] {x x' : Eng α} {y y' : Eng β} (hx : p → Lockstep R S x y)
    (hy : ¬ p → Lockstep R S x' y') : Lockstep R S (if p then x else x') (if p then y else y') := by
  split
  · exact hx ‹_›
  · exact hy ‹_›

/-- A loop whose iterations carry equal values; `P` may speak of the values already run and of the carried value. -/
theorem lockstep_forFold_of_invariant {xs : List Nat} {init : α} {body body' : α → Nat → Eng α} (P : List Nat → α → Prop)
    (h0 : P [] init)
    (hs : ∀ pre x post a, xs = pre ++ x :: post → P pre a →
      Lockstep R (fun r r' => r = r' ∧ P (pre ++ [x]) r) (body a x) (body' a x)) :
    Lockstep R Eq (forFold xs init body) (forFold xs init body') := by
  suffices key : ∀ post pre a, xs = pre ++ post → P pre a →
      Lockstep R Eq (forFold post a body) (forFold post a body') from key xs [] init rfl h0
  intro post
  induction post with
  | nil => exact fun _ _ _ _ => lockstep_pure rfl
  | cons x post ih =>
    intro pre a hx hp
    refine lockstep_bind (hs pre x post a hx hp) ?_
    rintro r _ ⟨rfl, hr⟩
    exact ih (pre ++ [x]) r (by simp [hx]) hr

theorem lockstep_forFold {xs : List Nat} {init : α} {body body' : α → Nat → Eng α}
    (h : ∀ a, ∀ x ∈ xs, Lockstep R Eq (body a x) (body' a x)) :
    Lockstep R Eq (forFold xs init body) (forFold xs init body') :=
  lockstep_forFold_of_invariant (fun _ _ => True) trivial fun _ x _ a hx _ w w' hw =>
    ⟨⟨(h a x (by simp [hx]) w w' hw).1, trivial⟩, (h a x (by simp [hx]) w w' hw).2⟩

theorem lockstep_forEach {xs : List Nat} {body body' : Nat → Eng Unit}
    (h : ∀ x ∈ xs, Lockstep R Eq (body x) (body' x)) : Lockstep R Eq (forEach xs body) (forEach xs body') :=
  lockstep_forFold fun _ x hx => h x hx

end

/-! ## A simulation between two runs -/

/-- `G` relates the lane groups and `R` the work of two runs on `n` elements, and every primitive of the datapath keeps them. -/
structure Simulation (lt lt' : LaneType) (c c' : Ctx) (G : LaneGroup lt → LaneGroup lt' → Prop) (R : Work → Work → Prop) :
    Prop where
  size : c'.n = c.n
  load : ∀ {k}, k < c.n → Lockstep R G (lload lt c k) (lload lt' c' k)
  store : ∀ {k v v'}, k < c.n → G v v' → Lockstep R Eq (lstore lt c k v) (lstore lt' c' k v')
  add : ∀ {a b a' b'}, G a a' → G b b' → Lockstep R G (ladd lt c a b) (ladd lt' c' a' b')
  sub : ∀ {a b a' b'}, G a a' → G b b' → Lockstep R G (lsub lt c a b) (lsub lt' c' a' b')
  mul : ∀ {a b a' b'}, G a a' → G b b' → Lockstep R G (lmul lt c a b) (lmul lt' c' a' b')
  bcast : ∀ v, G (bcast lt v) (bcast lt' v)
  phase : ∀ p, Lockstep R Eq (setPhase p) (setPhase p)

/-- Both parts of two complex points are related. -/
def BothParts {lt lt' : LaneType} (G : LaneGroup lt → LaneGroup lt' → Prop) (z : Point lt) (z' : Point lt') : Prop :=
  G z.1 z'.1 ∧ G z.2 z'.2

/-- The last element of the `k`-th point of a butterfly lies below `n`: its span `MMAX` is even and `r*MMAX` divides `n`
(43_cfft.md R104, R106). -/
theorem butterfly_point_lt {n r mmax m y k : Nat} (h2 : 2 ∣ mmax) (hd : r * mmax ∣ n) (hm : 2 ∣ m) (hlt : m < mmax)
    (hi : m + r * mmax * y < n) (hk : k < r) : m + r * mmax * y + k * mmax + 1 < n := by
  obtain ⟨q, rfl⟩ := hd
  have hy : y + 1 ≤ q := by
    by_contra hn
    have := Nat.mul_le_mul_left (r * mmax) (show q ≤ y by omega)
    omega
  have hpoint : m + k * mmax + 1 < (k + 1) * mmax := by rw [Nat.succ_mul]; omega
  calc m + r * mmax * y + k * mmax + 1 < r * mmax * y + (k + 1) * mmax := by omega
    _ ≤ r * mmax * y + r * mmax := Nat.add_le_add_left (Nat.mul_le_mul_right _ hk) _
    _ = r * mmax * (y + 1) := by ring
    _ ≤ r * mmax * q := Nat.mul_le_mul_left _ hy

open Sys2Proof.Reference in
theorem rev_zero (b : Nat) : rev b 0 = 0 := by
  induction b with
  | zero => rfl
  | succ b ih => simpa [rev] using ih

namespace Simulation
variable {lt lt' : LaneType} {c c' : Ctx} {G : LaneGroup lt → LaneGroup lt' → Prop} {R : Work → Work → Prop}
  (h : Simulation lt lt' c c' G R)
include h

/-! ## Points -/

theorem loadPoint {i : Nat} (hi : i + 1 < c.n) : Lockstep R (BothParts G) (loadPoint lt c i) (loadPoint lt' c' i) :=
  lockstep_bind (h.load (by omega)) fun _ _ hre => lockstep_bind (h.load hi) fun _ _ him => lockstep_pure ⟨hre, him⟩

theorem storePoint {i : Nat} {z : Point lt} {z' : Point lt'} (hi : i + 1 < c.n) (hz : BothParts G z z') :
    Lockstep R Eq (storePoint lt c i z) (storePoint lt' c' i z') :=
  lockstep_bind_eq (h.store (by omega) hz.1) fun _ => h.store hi hz.2

theorem mulSubMul {p q r u : LaneGroup lt} {p' q' r' u' : LaneGroup lt'} (hp : G p p') (hq : G q q') (hr : G r r')
    (hu : G u u') : Lockstep R G (mulSubMul lt c p q r u) (mulSubMul lt' c' p' q' r' u') :=
  lockstep_bind (h.mul hp hq) fun _ _ hx => lockstep_bind (h.mul hr hu) fun _ _ hy => h.sub hx hy

theorem mulAddMul {p q r u : LaneGroup lt} {p' q' r' u' : LaneGroup lt'} (hp : G p p') (hq : G q q') (hr : G r r')
    (hu : G u u') : Lockstep R G (mulAddMul lt c p q r u) (mulAddMul lt' c' p' q' r' u') :=
  lockstep_bind (h.mul hp hq) fun _ _ hx => lockstep_bind (h.mul hr hu) fun _ _ hy => h.add hx hy

theorem mulPoint {w z : Point lt} {w' z' : Point lt'} (hw : BothParts G w w') (hz : BothParts G z z') :
    Lockstep R (BothParts G) (mulPoint lt c w z) (mulPoint lt' c' w' z') :=
  lockstep_bind (h.mulSubMul hw.1 hz.1 hw.2 hz.2) fun _ _ hre =>
  lockstep_bind (h.mulAddMul hw.1 hz.2 hw.2 hz.1) fun _ _ him => lockstep_pure ⟨hre, him⟩

section
variable {x y : Point lt} {x' y' : Point lt'} (hx : BothParts G x x') (hy : BothParts G y y')
include hx hy

theorem addPoint : Lockstep R (BothParts G) (addPoint lt c x y) (addPoint lt' c' x' y') :=
  lockstep_bind (h.add hx.1 hy.1) fun _ _ hre => lockstep_bind (h.add hx.2 hy.2) fun _ _ him => lockstep_pure ⟨hre, him⟩

theorem subPoint : Lockstep R (BothParts G) (subPoint lt c x y) (subPoint lt' c' x' y') :=
  lockstep_bind (h.sub hx.1 hy.1) fun _ _ hre => lockstep_bind (h.sub hx.2 hy.2) fun _ _ him => lockstep_pure ⟨hre, him⟩

theorem subTurned : Lockstep R (BothParts G) (subTurned lt c x y) (subTurned lt' c' x' y') :=
  lockstep_bind (h.add hx.1 hy.2) fun _ _ hre => lockstep_bind (h.sub hx.2 hy.1) fun _ _ him => lockstep_pure ⟨hre, him⟩

theorem addTurned : Lockstep R (BothParts G) (addTurned lt c x y) (addTurned lt' c' x' y') :=
  lockstep_bind (h.sub hx.1 hy.2) fun _ _ hre => lockstep_bind (h.add hx.2 hy.1) fun _ _ him => lockstep_pure ⟨hre, him⟩

end

/-! ## The bodies of the loops -/

theorem swapPairs {i j : Nat} (hi : i + 1 < c.n) (hj : j + 1 < c.n) :
    Lockstep R Eq (swapPairs lt c i j) (swapPairs lt' c' i j) :=
  lockstep_bind (h.loadPoint hi) fun _ _ ha => lockstep_bind (h.loadPoint hj) fun _ _ hb =>
  lockstep_bind_eq (h.storePoint hi hb) fun _ => h.storePoint hj ha

theorem bfly2 {w : Point lt} {w' : Point lt'} {i j : Nat} (hw : BothParts G w w') (hi : i + 1 < c.n) (hj : j + 1 < c.n) :
    Lockstep R Eq (bfly2 lt c w i j) (bfly2 lt' c' w' i j) :=
  lockstep_bind (h.loadPoint hi) fun _ _ ha => lockstep_bind (h.loadPoint hj) fun _ _ hb =>
  lockstep_bind (h.mulPoint hw hb) fun _ _ ht => lockstep_bind (h.subPoint ha ht) fun _ _ hy =>
  lockstep_bind (h.addPoint ha ht) fun _ _ hx => lockstep_bind_eq (h.storePoint hj hy) fun _ => h.storePoint hi hx

theorem bfly4 {w w2 : Point lt} {w' w2' : Point lt'} {i0 i1 i2 i3 : Nat} (hw : BothParts G w w') (hw2 : BothParts G w2 w2')
    (h0 : i0 + 1 < c.n) (h1 : i1 + 1 < c.n) (h2 : i2 + 1 < c.n) (h3 : i3 + 1 < c.n) :
    Lockstep R Eq (bfly4 lt c w w2 i0 i1 i2 i3) (bfly4 lt' c' w' w2' i0 i1 i2 i3) :=
  lockstep_bind (h.loadPoint h0) fun _ _ ha => lockstep_bind (h.loadPoint h1) fun _ _ hb =>
  lockstep_bind (h.loadPoint h2) fun _ _ hc => lockstep_bind (h.loadPoint h3) fun _ _ hd =>
  lockstep_bind (h.mulPoint hw2 hb) fun _ _ htb => lockstep_bind (h.mulPoint hw2 hd) fun _ _ htd =>
  lockstep_bind (h.addPoint ha htb) fun _ _ he0 => lockstep_bind (h.subPoint ha htb) fun _ _ he1 =>
  lockstep_bind (h.addPoint hc htd) fun _ _ hf0 => lockstep_bind (h.subPoint hc htd) fun _ _ hf1 =>
  lockstep_bind (h.mulPoint hw hf0) fun _ _ hu0 => lockstep_bind (h.mulPoint hw hf1) fun _ _ hu1 =>
  lockstep_bind (h.addPoint he0 hu0) fun _ _ hx0 => lockstep_bind (h.subPoint he0 hu0) fun _ _ hx2 =>
  lockstep_bind (h.subTurned he1 hu1) fun _ _ hx1 => lockstep_bind (h.addTurned he1 hu1) fun _ _ hx3 =>
  lockstep_bind_eq (h.storePoint h0 hx0) fun _ => lockstep_bind_eq (h.storePoint h2 hx2) fun _ =>
  lockstep_bind_eq (h.storePoint h1 hx1) fun _ => h.storePoint h3 hx3

theorem untanglePair {w : Point lt} {w' : Point lt'} {vh : LaneGroup lt} {vh' : LaneGroup lt'} {i j : Nat}
    (hw : BothParts G w w') (hvh : G vh vh') (hi : i + 1 < c.n) (hj : j + 1 < c.n) :
    Lockstep R Eq (untanglePair lt c w vh i j) (untanglePair lt' c' w' vh' i j) :=
  lockstep_bind (h.loadPoint hi) fun _ _ hp => lockstep_bind (h.loadPoint hj) fun _ _ hq =>
  lockstep_bind (h.add hp.1 hq.1) fun _ _ hsac => lockstep_bind (h.mul hvh hsac) fun _ _ her =>
  lockstep_bind (h.sub hp.2 hq.2) fun _ _ hdbd => lockstep_bind (h.mul hvh hdbd) fun _ _ hei =>
  lockstep_bind (h.add hp.2 hq.2) fun _ _ hsbd => lockstep_bind (h.mul hvh hsbd) fun _ _ hor =>
  lockstep_bind (h.sub hq.1 hp.1) fun _ _ hdca => lockstep_bind (h.mul hvh hdca) fun _ _ hoi =>
  lockstep_bind (h.mulPoint hw ⟨hor, hoi⟩) fun _ _ ht => lockstep_bind (h.addPoint ⟨her, hei⟩ ht) fun _ _ hx =>
  lockstep_bind (h.sub her ht.1) fun _ _ hyr => lockstep_bind (h.sub ht.2 hei) fun _ _ hyi =>
  lockstep_bind_eq (h.storePoint hi hx) fun _ => h.storePoint hj ⟨hyr, hyi⟩

theorem mirrorPair {vs : LaneGroup lt} {vs' : LaneGroup lt'} {i j : Nat} (hvs : G vs vs') (hi : i + 1 < c.n)
    (hj : j + 1 < c.n) : Lockstep R Eq (mirrorPair lt c vs i j) (mirrorPair lt' c' vs' i j) :=
  lockstep_bind (h.loadPoint hi) fun _ _ hp => lockstep_bind (h.loadPoint hj) fun _ _ hq =>
  lockstep_bind (h.mul hq.1 hvs) fun _ _ h1 => lockstep_bind (h.mul hq.2 hvs) fun _ _ h2 =>
  lockstep_bind (h.mul hp.1 hvs) fun _ _ h3 => lockstep_bind (h.mul hp.2 hvs) fun _ _ h4 =>
  lockstep_bind_eq (h.storePoint hi ⟨h1, h2⟩) fun _ => h.storePoint hj ⟨h3, h4⟩

theorem scaleElement {vs : LaneGroup lt} {vs' : LaneGroup lt'} {k : Nat} (hvs : G vs vs') (hk : k < c.n) :
    Lockstep R Eq (scaleElement lt c vs k) (scaleElement lt' c' vs' k) :=
  lockstep_bind (h.load hk) fun _ _ hx => lockstep_bind (h.mul hx hvs) fun _ _ hy => h.store hk hy

theorem dcNyquist (hn : 2 ≤ c.n) : Lockstep R Eq (dcNyquist lt c) (dcNyquist lt' c') :=
  lockstep_bind (h.load (by omega)) fun _ _ hre => lockstep_bind (h.load (by omega)) fun _ _ him =>
  lockstep_bind (h.add hre him) fun _ _ hx => lockstep_bind (h.sub hre him) fun _ _ hy =>
  lockstep_bind_eq (h.store (by omega) hx) fun _ => h.store (by omega) hy

theorem middleBin (hn : 4 ≤ c.n) : Lockstep R Eq (middleBin lt c) (middleBin lt' c') := by
  have hk : c.n / 2 + 1 < c.n := by omega
  unfold Machine.middleBin
  rw [h.size]
  exact lockstep_bind (h.load hk) fun _ _ hx => lockstep_bind (h.mul (h.bcast _) hx) fun _ _ hy => h.store hk hy

/-! ## The passes -/

theorem untanglePass (hn : 2 ≤ c.n) : Lockstep R Eq (untanglePass lt c) (untanglePass lt' c') := by
  simp only [Machine.untanglePass, h.size]
  refine lockstep_bind_eq (h.dcNyquist hn) fun _ => lockstep_ite (fun h4 => ?_) fun _ => lockstep_pure rfl
  refine lockstep_bind_eq (lockstep_forFold fun t k hk => ?_) fun _ => h.middleBin h4
  obtain ⟨x, rfl, hlt⟩ := (mem_countUp one_pos).1 hk
  exact lockstep_bind_eq (h.untanglePair ⟨h.bcast _, h.bcast _⟩ (h.bcast _) (by omega) (by omega)) fun _ => lockstep_pure rfl

theorem invPrep (hn : 2 ≤ c.n) : Lockstep R Eq (invPrep lt c) (invPrep lt' c') := by
  simp only [Machine.invPrep, h.size]
  refine lockstep_bind_eq (h.scaleElement (h.bcast _) (by omega)) fun _ =>
    lockstep_bind_eq (h.scaleElement (h.bcast _) (by omega)) fun _ =>
    lockstep_bind_eq (lockstep_forEach fun k hk => ?_) fun _ => lockstep_ite (fun h4 => ?_) fun _ => lockstep_pure rfl
  · obtain ⟨x, rfl, hlt⟩ := (mem_countUp one_pos).1 hk
    exact h.mirrorPair (h.bcast _) (by omega) (by omega)
  · exact lockstep_bind_eq (h.scaleElement (h.bcast _) (by omega)) fun _ => h.scaleElement (h.bcast _) (by omega)

theorem radix2Stage {mmax : Nat} (h2 : 2 ∣ mmax) (hd : 2 * mmax ∣ c.n) :
    Lockstep R Eq (radix2Stage lt c mmax) (radix2Stage lt' c' mmax) := by
  simp only [Machine.radix2Stage, h.size]
  refine lockstep_bind_eq (lockstep_forFold fun t m hm => ?_) fun _ => lockstep_pure rfl
  obtain ⟨x, hx, hlt⟩ := (mem_countUp two_pos).1 hm
  refine lockstep_bind_eq (lockstep_forEach fun i hi => ?_) fun _ => lockstep_pure rfl
  obtain ⟨y, rfl, hi⟩ := (mem_countUp (by omega)).1 hi
  have p1 := butterfly_point_lt (k := 1) h2 hd ⟨x, by omega⟩ hlt hi (by norm_num)
  exact h.bfly2 ⟨h.bcast _, h.bcast _⟩ (by omega) (by omega)

theorem radix4Stage {mmax : Nat} (h2 : 2 ∣ mmax) (hd : 4 * mmax ∣ c.n) :
    Lockstep R Eq (radix4Stage lt c mmax) (radix4Stage lt' c' mmax) := by
  simp only [Machine.radix4Stage, h.size]
  refine lockstep_bind_eq (lockstep_forFold fun t m hm => ?_) fun _ => lockstep_pure rfl
  obtain ⟨x, hx, hlt⟩ := (mem_countUp two_pos).1 hm
  refine lockstep_bind_eq (lockstep_forEach fun i hi => ?_) fun _ => lockstep_pure rfl
  obtain ⟨y, rfl, hi⟩ := (mem_countUp (by omega)).1 hi
  have p3 := butterfly_point_lt (k := 3) h2 hd ⟨x, by omega⟩ hlt hi (by norm_num)
  exact h.bfly4 ⟨h.bcast _, h.bcast _⟩ ⟨h.bcast _, h.bcast _⟩ (by omega) (by omega) (by omega) (by omega)

/-- The stage loop from a span `2^d` on (43_cfft.md R101). -/
theorem stageLoop {e : Nat} (hn : c.n = 2 ^ e) (turns : Nat) {d : Nat} (hd : 1 ≤ d) :
    Lockstep R Eq (stageLoop lt c turns (2 ^ d)) (stageLoop lt' c' turns (2 ^ d)) := by
  induction turns generalizing d with
  | zero => exact lockstep_pure rfl
  | succ turns ih =>
    have heven : 2 ∣ 2 ^ d := dvd_pow_self 2 (by omega)
    have h2 : 2 * 2 ^ d = 2 ^ (d + 1) := by ring
    have h4 : 4 * 2 ^ d = 2 ^ (d + 2) := by ring
    simp only [Machine.stageLoop, h.size, hn]
    refine lockstep_ite (fun hlt => ?_) fun _ => lockstep_ite (fun hlt => ?_) fun _ => lockstep_pure rfl
    · have hde : d + 1 < e := (Nat.pow_lt_pow_iff_right (by norm_num)).1 (h2 ▸ hlt)
      refine lockstep_bind_eq (h.phase _) fun _ => lockstep_bind_eq (h.radix4Stage heven ?_) fun _ => ?_
      · rw [hn, h4]
        exact pow_dvd_pow 2 hde
      · rw [h4]
        exact ih (by omega)
    · have hde : d < e := (Nat.pow_lt_pow_iff_right (by norm_num)).1 hlt
      refine lockstep_bind_eq (h.phase _) fun _ => h.radix2Stage heven ?_
      rw [hn, h2]
      exact pow_dvd_pow 2 hde

open Sys2Proof.Reference in
/-- Along the loop `J` is twice the reversal of `I/2` in both runs, so both exchange the same pairs (41_bitrev.md R86, R87). -/
theorem bitrevPass {b : Nat} (hn : c.n = 2 ^ (b + 1)) : Lockstep R Eq (bitrevPass lt c) (bitrevPass lt' c') := by
  have h2 : 2 ^ (b + 1) = 2 * 2 ^ b := by ring
  have hhalf : c.n / 2 = 2 ^ b := by omega
  have hturns : b ≤ c.n := by
    have := Nat.lt_pow_self (n := b + 1) (show 1 < 2 by norm_num)
    omega
  simp only [Machine.bitrevPass, h.size]
  refine lockstep_bind_eq (lockstep_forFold_of_invariant
    (fun pre j => pre.length < 2 ^ b → j = 2 * rev b pre.length) (fun _ => by simp [rev_zero]) ?_) fun _ => lockstep_pure rfl
  intro pre i post j hx hj
  have hi : i = 2 * pre.length := by simpa using countUp_split hx
  obtain ⟨_, _, hlt⟩ := (mem_countUp two_pos).1 (show i ∈ countUp 0 2 c.n by rw [hx]; simp)
  have hj := hj (by omega)
  have hr := rev_lt b pre.length
  refine lockstep_bind_eq (lockstep_ite (fun _ => h.swapPairs (by omega) (by omega)) fun _ => lockstep_pure rfl) fun _ =>
    lockstep_pure ⟨rfl, fun hlen => ?_⟩
  simp only [List.length_append, List.length_singleton] at hlen ⊢
  rw [hhalf, hj]
  exact revCarry_rev b _ _ hturns hlen

theorem cfftPhase {b : Nat} (hn : c.n = 2 ^ (b + 1)) : Lockstep R Eq (cfftPhase lt c) (cfftPhase lt' c') := by
  simp only [Machine.cfftPhase, h.size]
  exact lockstep_bind_eq (h.phase _) fun _ => lockstep_bind_eq (h.bitrevPass hn) fun _ => h.stageLoop hn c.n (d := 1) le_rfl

open Sys2Proof.Reference in
/-- A command in two lane types, on a legal size, keeps every simulation. -/
theorem passesOf (i : Instr) {b : Nat} (hn : c.n = 2 ^ (b + 1)) :
    Lockstep R Eq (passesOf (withLt i lt) c) (passesOf (withLt i lt') c') := by
  have h2 : 2 ≤ c.n := by
    have := Nat.one_le_two_pow (n := b)
    rw [hn, pow_succ]
    omega
  cases i with
  | cfft => exact lockstep_bind_eq (h.cfftPhase hn) fun _ => h.phase _
  | rfft =>
    exact lockstep_bind_eq (h.cfftPhase hn) fun _ => lockstep_bind_eq (h.phase _) fun _ =>
      lockstep_bind_eq (h.untanglePass h2) fun _ => h.phase _
  | irfft =>
    exact lockstep_bind_eq (h.phase _) fun _ => lockstep_bind_eq (h.invPrep h2) fun _ => lockstep_bind_eq (h.phase _) fun _ =>
      lockstep_bind_eq (h.untanglePass h2) fun _ => lockstep_bind_eq (h.cfftPhase hn) fun _ => h.phase _
  | bitrev => exact lockstep_bind_eq (h.phase _) fun _ => lockstep_bind_eq (h.bitrevPass hn) fun _ => h.phase _
  | untangle => exact lockstep_bind_eq (h.phase _) fun _ => lockstep_bind_eq (h.untanglePass h2) fun _ => h.phase _
  | invprep => exact lockstep_bind_eq (h.phase _) fun _ => lockstep_bind_eq (h.invPrep h2) fun _ => h.phase _

end Simulation

/-! ## The simulation between two runs that agree on the footprint -/

/-- The two works have given out the same number of draws and hold the same bytes in the footprint. -/
structure SameFootprint (lt : LaneType) (c : Ctx) (w w' : Work) : Prop where
  draws : w'.draws = w.draws
  bytes : ∀ a, c.base ≤ a → a < c.base + c.n * esize lt → memByte w'.mem a = memByte w.mem a

/-- Element `k` of `n` stands inside the footprint (20_memory.md R32, R35). -/
theorem elemAddr_bounds {lt : LaneType} {n k : Nat} (base : Nat) (hk : k < n) :
    base ≤ elemAddr lt base k ∧ elemAddr lt base k + esize lt ≤ base + n * esize lt := by
  have hle : k * esize lt + esize lt ≤ n * esize lt := by
    rw [← Nat.succ_mul]
    exact Nat.mul_le_mul_right _ hk
  simp only [elemAddr]
  omega

/-- The same write leaves equal bytes where the bytes were equal. -/
theorem memByte_memWrite_congr {m m' : Memory} {x : Nat} (a k v : Nat) (h : memByte m' x = memByte m x) :
    memByte (memWrite m' a k v) x = memByte (memWrite m a k v) x := by
  induction k generalizing m m' a v with
  | zero => exact h
  | succ k ih =>
    refine ih _ _ ?_
    rcases eq_or_ne x a with rfl | hne
    · simp
    · rw [memByte_memPut_other _ _ hne, memByte_memPut_other _ _ hne, h]

theorem lockstep_lanewise_sameFootprint {lt : LaneType} {c : Ctx} {op : Word64 → Lane lt → Lane lt → Lane lt}
    {a b a' b' : LaneGroup lt} (ha : a = a') (hb : b = b') :
    Lockstep (SameFootprint lt c) Eq (lanewise lt c op a b) (lanewise lt c op a' b') := by
  subst ha hb
  rintro w w' ⟨hd, hm⟩
  exact ⟨by simp only [lanewise, hd], by simp only [lanewise, hd], hm⟩

/-- Runs on one context that agree on the footprint and the draws stay so: loads and stores are inside the footprint, and a lane
operation uses its operands and draws only. -/
theorem simulation_sameFootprint (lt : LaneType) (c : Ctx) : Simulation lt lt c c Eq (SameFootprint lt c) where
  size := rfl
  load {k} hk w w' hw := by
    obtain ⟨hlo, hhi⟩ := elemAddr_bounds (lt := lt) c.base hk
    refine ⟨?_, hw⟩
    simp only [run_lload, element]
    rw [memRead_congr fun x hx hx' => (hw.bytes x (by omega) (by omega)).symm]
  store {k v v'} _ hv w w' hw := ⟨rfl, hw.draws, fun a hlo hhi => by
    subst hv
    exact memByte_memWrite_congr _ _ _ (hw.bytes a hlo hhi)⟩
  add := lockstep_lanewise_sameFootprint
  sub := lockstep_lanewise_sameFootprint
  mul := lockstep_lanewise_sameFootprint
  bcast _ := rfl
  phase _ _ _ hw := ⟨rfl, hw.draws, hw.bytes⟩

/-! ## The command's result -/

open Sys2Proof.Reference in
theorem withLt_lt (i : Instr) : withLt i i.lt = i := by cases i <;> rfl

/-- Settles O32: both runs pass `CHECK`, start from works with the same footprint and draws, and the passes keep them so. -/
theorem resultDependsOnFootprintOnly : Obligations.ResultDependsOnFootprintOnly := by
  intro i s t hs hp hn hb hf hd hm
  obtain ⟨b, hsize⟩ := hs.exists_size
  have hrun := exec_accepted (hs.congr hp hn hb hf)
  rw [show ctxOf t = ctxOf s by simp only [ctxOf, hp, hn, hb]] at hrun
  have hstart : SameFootprint i.lt (ctxOf s) (workOf s) (workOf t) := ⟨hd, fun a hlo hhi => hm a ⟨hlo, hhi⟩⟩
  have hpasses := (simulation_sameFootprint i.lt (ctxOf s)).passesOf i hsize
  rw [withLt_lt] at hpasses
  obtain ⟨-, hdraws, hbytes⟩ := hpasses _ _ hstart
  exact ⟨_, _, exec_accepted hs, hrun, fun a ha => hbytes a ha.1 ha.2, hdraws⟩

end Sys2Proof.Machine
end

section
/-! Data memory as numbers: the little-endian reads and writes and their slices, the lanes of an element, and the footprint of a command
(spec/20_memory.md R31 to R33, R35, R47). -/

namespace Sys2Proof.Machine

/-! ## Little-endian accesses (20_memory.md R31) -/

/-- The lowest byte of the value stands first. -/
theorem memByte_memWrite_first (m : Memory) (a k v : Nat) : memByte (memWrite m a (k + 1) v) a = BitVec.ofNat 8 v := by
  rw [memWrite, memByte_memWrite_outside _ _ _ _ (.inl (Nat.lt_succ_self a)), memByte_memPut_same]

/-- A read after a write of the same bytes gives the low `k` bytes of the value. -/
theorem memRead_memWrite (m : Memory) (a k v : Nat) : memRead (memWrite m a k v) a k = v % 256 ^ k := by
  induction k generalizing m a v with
  | zero => rw [memRead, pow_zero, Nat.mod_one]
  | succ k ih =>
    rw [memRead, memByte_memWrite_first, BitVec.toNat_ofNat, memWrite, ih, pow_succ' 256, Nat.mod_mul]

/-- The byte at offset `t` of a write is the value's byte number `t`. -/
theorem memByte_memWrite_inside (m : Memory) (a k v : Nat) {t : Nat} (ht : t < k) :
    (memByte (memWrite m a k v) (a + t)).toNat = v / 256 ^ t % 256 := by
  induction k generalizing m a v t with
  | zero => omega
  | succ k ih =>
    cases t with
    | zero => rw [add_zero, memByte_memWrite_first, BitVec.toNat_ofNat, pow_zero, Nat.div_one]
    | succ t =>
      rw [memWrite, show a + (t + 1) = a + 1 + t by omega, ih _ _ _ (by omega), Nat.div_div_eq_div_mul, pow_succ']

/-- A read is the sum of its bytes, each at its weight. -/
theorem memRead_eq_sum (m : Memory) (a k : Nat) :
    memRead m a k = ∑ t ∈ Finset.range k, (memByte m (a + t)).toNat * 256 ^ t := by
  induction k generalizing a with
  | zero => rfl
  | succ k ih =>
    have hshift : ∀ t, (memByte m (a + (t + 1))).toNat * 256 ^ (t + 1) = 256 * ((memByte m (a + 1 + t)).toNat * 256 ^ t) := by
      intro t
      rw [show a + (t + 1) = a + 1 + t by omega]
      ring
    rw [memRead, ih, Finset.sum_range_succ', Finset.mul_sum, Finset.sum_congr rfl fun t _ => hshift t, add_zero, pow_zero,
      mul_one, add_comm]

/-- A read of `j + k` bytes holds the read of the first `j` below that of the next `k`. -/
theorem memRead_add (m : Memory) (a j k : Nat) : memRead m a (j + k) = memRead m a j + 256 ^ j * memRead m (a + j) k := by
  induction j generalizing a with
  | zero => simp [memRead]
  | succ j ih =>
    rw [Nat.succ_add, memRead, memRead, ih, show a + 1 + j = a + (j + 1) by omega, pow_succ']
    ring

theorem memRead_lt (m : Memory) (a k : Nat) : memRead m a k < 256 ^ k := by
  induction k generalizing a with
  | zero => exact Nat.one_pos
  | succ k ih =>
    have hbyte := (memByte m a).isLt
    have hrest := ih (a + 1)
    rw [memRead, pow_succ']
    omega

/-- The `k` bytes at offset `j` of a longer read, cut out of its value, are the read at that offset. -/
theorem memRead_slice (m : Memory) (a : Nat) {j k n : Nat} (h : j + k ≤ n) :
    memRead m a n / 256 ^ j % 256 ^ k = memRead m (a + j) k := by
  obtain ⟨r, rfl⟩ := Nat.exists_eq_add_of_le h
  rw [add_assoc, memRead_add, Nat.add_mul_div_left _ _ (by positivity), Nat.div_eq_of_lt (memRead_lt m a j), zero_add,
    memRead_add, Nat.add_mul_mod_self_left, Nat.mod_eq_of_lt (memRead_lt _ _ _)]

/-! ## The lanes of an element (20_memory.md R32, R33; 40_lane_ops.md R70) -/

theorem length_lanesOf (lt : LaneType) (n bits : Nat) : (lanesOf lt n bits).length = n := by
  induction n generalizing bits with
  | zero => rfl
  | succ n ih => rw [lanesOf, List.length_cons, ih]

/-- Lane `l` is the field of the lane's width above `l` lanes. -/
theorem getElem?_lanesOf (lt : LaneType) {n l : Nat} (bits : Nat) (hl : l < n) :
    (lanesOf lt n bits)[l]? = some (BitVec.ofNat _ (bits / 2 ^ ((laneFmt lt).width * l))) := by
  induction n generalizing bits l with
  | zero => omega
  | succ n ih =>
    cases l with
    | zero => rw [lanesOf, List.getElem?_cons_zero, mul_zero, pow_zero, Nat.div_one]
    | succ l => rw [lanesOf, List.getElem?_cons_succ, ih _ (by omega), Nat.div_div_eq_div_mul, ← pow_add, Nat.mul_succ, add_comm]

/-- Bits `32l+31:32l` of a read are the read of the four bytes there. -/
theorem ofNat_memRead_word (m : Memory) (a : Nat) {l n : Nat} (h : 4 * l + 4 ≤ n) :
    BitVec.ofNat 32 (memRead m a n / 2 ^ (32 * l)) = BitVec.ofNat 32 (memRead m (a + 4 * l) 4) := by
  have hword : 2 ^ 32 = 256 ^ 4 := by norm_num
  rw [← ofNat_mod_two_pow, pow_mul, hword, ← pow_mul, memRead_slice m a h]

/-! ## The footprint of an accepted command (20_memory.md R35) -/

/-- A command that runs its passes has its whole footprint. -/
theorem footprintLen_accepted {i : Instr} {s : State} (h : Accepts i.lt s) :
    footprintLen (encode i).toNat s = s.n.toNat * esize i.lt := by
  simp [footprintLen, h.live, decodeCommand_encode, (checkFault_eq_none_iff i s h.live).2 h]

/-- The passes of an accepted command end with PHASE idle and keep the host registers, the lists and the bytes outside the footprint. -/
theorem Accepts.commandFrame {i : Instr} {s : State} (h : Accepts i.lt s) :
    CommandFrame i.lt s (finish (passesOf i (ctxOf s) (workOf s)).2 s) := by
  obtain ⟨b, hsize⟩ := h.exists_size
  refine ⟨rfl, rfl, rfl, rfl, rfl, passesOf_phase i _ _, rfl, rfl, fun a ha => ?_⟩
  refine (stays_passesOf i (c := ctxOf s) hsize (workOf s)).outside a ?_
  simp only [ctxOf]
  omega

/-! ## The obligations about memory -/

/-- Settles O13: the footprint that the write hands to the command is the accepted one, and elsewhere only the CMD write is left. -/
theorem sharedFootprintRefused : Obligations.SharedFootprintRefused := by
  intro s i a h
  rw [writeShared, footprintLen_accepted h]
  refine ⟨fun ha => if_pos ha, fun ha => ?_⟩
  rw [if_neg ha, hostWrite_cmd _ h.live, writeCmd_ok s (decodeCommand_encode i)]

/-- Settles O31: a command does nothing, raises a fault or runs passes that stay inside the footprint. -/
theorem commandWritesFootprintOnly : Obligations.CommandWritesFootprintOnly := by
  intro i s t h
  rw [exec_eq] at h
  cases h
  rcases runCommand_cases i (passesOf i) s with ⟨-, hrun⟩ | ⟨-, -, c, x, -, hrun⟩ | ⟨hacc, hrun⟩ <;> rw [hrun]
  · exact ⟨rfl, rfl, rfl, rfl, rfl, fun _ _ => rfl⟩
  · exact ⟨rfl, rfl, rfl, rfl, rfl, fun _ _ => rfl⟩
  · obtain ⟨hparams, hn, hbase, -, -, -, hport, hreads, houtside⟩ := hacc.commandFrame
    exact ⟨hparams, hn, hbase, hport, hreads, houtside⟩

/-- Settles O45: the read after the write, each byte of it, and the sum are the rules above. -/
theorem memoryIsLittleEndian : Obligations.MemoryIsLittleEndian := by
  intro m a k v
  exact ⟨memRead_memWrite m a k v, fun t => memByte_memWrite_inside m a k v, memRead_eq_sum m a k⟩

/-- Settles O55: one lane holds the whole element; of four, lane `l` is a word of the element's bits and so of its bytes. -/
theorem elementLayout : Obligations.ElementLayout := by
  intro m base k
  refine ⟨rfl, rfl, length_lanesOf _ _ _, fun l hl => ?_⟩
  have hlane : (element .v4f32 m base k)[l]? = some (BitVec.ofNat 32 (memRead m (base + k * 16) 16 / 2 ^ (32 * l))) :=
    getElem?_lanesOf .v4f32 _ hl
  exact ⟨by rw [hlane, ofNat_memRead_word _ _ (by omega)], hlane⟩

end Sys2Proof.Machine
end

section
/-! The command word and the host's transactions: which words decode and to what, what a write of a word to CMD does, and that a step
performs the first transaction to come (spec/30_encoding.md R50 to R59). -/

namespace Sys2Proof.Machine

/-! ## The fields of a word (30_encoding.md R50) -/

theorem toNat_opField (w : Word32) : (opField w).toNat = w.toNat % 16 := by
  simp [opField]

theorem toNat_ltField (w : Word32) : (ltField w).toNat = w.toNat / 16 % 4 := by
  simp [ltField, Nat.shiftRight_eq_div_pow]

theorem toNat_zeroField (w : Word32) : (zeroField w).toNat = w.toNat / 64 := by
  have hlt := w.isLt
  simp only [zeroField, BitVec.extractLsb'_toNat, Nat.shiftRight_eq_div_pow]
  omega

theorem eq_of_fields_eq {w u : Word32} (hzero : zeroField w = zeroField u) (hlt : ltField w = ltField u)
    (hop : opField w = opField u) : w = u := by
  rw [← BitVec.toNat_inj, toNat_zeroField, toNat_zeroField] at hzero
  rw [← BitVec.toNat_inj, toNat_ltField, toNat_ltField] at hlt
  rw [← BitVec.toNat_inj, toNat_opField, toNat_opField] at hop
  exact BitVec.eq_of_toNat_eq (by omega)

/-! ## The fields' decoders (30_encoding.md R51, R53, R54) -/

theorem decodeLt_inj {b b' : BitVec 2} {lt : LaneType} : decodeLt b = some lt → decodeLt b' = some lt → b = b' := by
  cases lt <;> revert b b' <;> decide

theorem decodeOp_inj {b b' : BitVec 4} {i : Instr} : decodeOp b i.lt = some i → decodeOp b' i.lt = some i → b = b' := by
  rcases i with lt | lt | lt | lt | lt | lt <;> cases lt <;> revert b b' <;> decide

theorem lt_of_decodeOp {b : BitVec 4} {lt : LaneType} {i : Instr} (h : decodeOp b lt = some i) : i.lt = lt := by
  unfold decodeOp at h
  split at h <;> cases h <;> rfl

theorem exists_decodeLt_iff (b : BitVec 2) : (∃ lt, decodeLt b = some lt) ↔ b.toNat ≠ 3 := by
  rw [← Option.isSome_iff_exists]
  revert b
  decide

theorem exists_decodeOp_iff (b : BitVec 4) (lt : LaneType) :
    (∃ i, decodeOp b lt = some i) ↔ b.toNat ≠ 0 ∧ b.toNat < 7 := by
  rw [← Option.isSome_iff_exists]
  cases lt <;> revert b <;> decide

/-- Only the lane type of field value 2 depends on HAS_V4. -/
theorem present_iff_of_decodeLt {b : BitVec 2} {lt : LaneType} (h : decodeLt b = some lt) (p : Params) :
    lt.present p = true ↔ ¬ (b.toNat = 2 ∧ p.hasV4 = false) := by
  unfold decodeLt at h
  split at h <;> cases h <;> simp [LaneType.present, *]

/-! ## The decoder (30_encoding.md R54, R56) -/

/-- A word decodes to a command exactly if its three fields are that command's. -/
theorem decodeWord_eq_ok_iff {w : Word32} {i : Instr} :
    decodeWord w = .ok i ↔ zeroField w = 0 ∧ decodeLt (ltField w) = some i.lt ∧ decodeOp (opField w) i.lt = some i := by
  constructor
  · intro h
    unfold decodeWord at h
    split at h
    · cases h
    next hzero =>
    split at h
    · cases h
    next lt hlt =>
    split at h
    · cases h
    next j hop =>
    cases h
    obtain rfl := lt_of_decodeOp hop
    exact ⟨not_not.1 hzero, hlt, hop⟩
  · rintro ⟨hzero, hlt, hop⟩
    simp [decodeWord, hzero, hlt, hop]

theorem decodeWord_eq_ok_iff_eq_encode {w : Word32} {i : Instr} : decodeWord w = .ok i ↔ w = encode i := by
  constructor
  · intro h
    obtain ⟨hzero, hlt, hop⟩ := decodeWord_eq_ok_iff.1 h
    obtain ⟨hzero', hlt', hop'⟩ := wordFields i
    exact eq_of_fields_eq (hzero.trans hzero'.symm) (decodeLt_inj hlt hlt') (decodeOp_inj hop hop')
  · rintro rfl
    exact decodeWord_encode i

theorem decodeCommand_toNat (w : Word32) : decodeCommand w.toNat = decodeWord w := by
  rw [decodeCommand_of_lt w.isLt, BitVec.ofNat_toNat, BitVec.setWidth_eq]

/-- The words that 30_encoding.md R54 calls illegal on an engine with these parameters. -/
def IllegalWord (p : Params) (w : Word32) : Prop :=
  w.toNat / 64 ≠ 0 ∨ w.toNat % 16 = 0 ∨ 7 ≤ w.toNat % 16 ∨ w.toNat / 16 % 4 = 3 ∨ (w.toNat / 16 % 4 = 2 ∧ p.hasV4 = false)

/-- A word is legal exactly if it decodes to a command the engine has. -/
theorem exists_command_iff (p : Params) (w : Word32) :
    (∃ i, decodeCommand w.toNat = .ok i ∧ i.lt.present p = true) ↔ ¬ IllegalWord p w := by
  have hzero : zeroField w = 0 ↔ (zeroField w).toNat = 0 := BitVec.toNat_inj.symm
  simp only [decodeCommand_toNat, decodeWord_eq_ok_iff, IllegalWord, ← toNat_zeroField, ← toNat_opField, ← toNat_ltField,
    not_or, not_not, not_le, hzero]
  constructor
  · rintro ⟨i, ⟨h0, hlt, hop⟩, hp⟩
    obtain ⟨hop0, hop7⟩ := (exists_decodeOp_iff _ _).1 ⟨i, hop⟩
    exact ⟨h0, hop0, hop7, (exists_decodeLt_iff _).1 ⟨_, hlt⟩, (present_iff_of_decodeLt hlt p).1 hp⟩
  · rintro ⟨h0, hop0, hop7, hlt3, hv4⟩
    obtain ⟨lt, hlt⟩ := (exists_decodeLt_iff _).2 hlt3
    obtain ⟨i, hop⟩ := (exists_decodeOp_iff _ lt).2 ⟨hop0, hop7⟩
    obtain rfl := lt_of_decodeOp hop
    exact ⟨i, ⟨h0, hlt, hop⟩, (present_iff_of_decodeLt hlt p).2 hv4⟩

/-! ## A write of a word to CMD (30_encoding.md R54, 60_exceptions.md R137) -/

/-- A command of a lane type the engine lacks faults with BAD_CMD and its word (log entry 18). -/
theorem exec_not_present {i : Instr} {s : State} (hf : faulted s = false) (hp : i.lt.present s.params = false) :
    exec i s = .next (raiseFault .badCmd ((encode i).setWidth 64) s) := by
  simp [exec_eq, runCommand, hf, checkFault, hp]

/-- A word that gives the engine no command faults with BAD_CMD, in the decoder or in CHECK. -/
theorem hostWrite_badCmd {w : Word32} {s : State} (hf : faulted s = false)
    (h : ¬ ∃ i, decodeCommand w.toNat = .ok i ∧ i.lt.present s.params = true) :
    hostWrite 0 w.toNat s = .next (raiseFault .badCmd (w.setWidth 64) s) := by
  rw [hostWrite_cmd _ hf]
  cases hd : decodeCommand w.toNat with
  | error r => rw [writeCmd_error s hd, BitVec.ofNat_toNat]
  | ok i =>
    have hp : i.lt.present s.params = false := Bool.eq_false_iff.2 fun hp => h ⟨i, hd, hp⟩
    rw [decodeCommand_toNat, decodeWord_eq_ok_iff_eq_encode] at hd
    rw [hd, writeCmd_ok s (decodeCommand_encode i), exec_not_present hf hp]

/-! ## The transactions to come (30_encoding.md R59; log entry 2) -/

theorem exec_port {i : Instr} {s t : State} (h : exec i s = .next t) : t.port = s.port := by
  obtain ⟨-, -, -, hport, -⟩ := commandWritesFootprintOnly i s t h
  exact hport

theorem hostWrite_port {r v : Nat} {s t : State} (h : hostWrite r v s = .next t) : t.port = s.port := by
  rcases hostWrite_cases r v s with hw | ⟨-, -, hw⟩ | ⟨-, -, hw⟩ | ⟨-, -, hw⟩ <;> rw [hw] at h
  · cases h; rfl
  · cases hd : decodeCommand v with
    | ok i => exact exec_port (writeCmd_ok s hd ▸ h)
    | error r => rw [writeCmd_error s hd] at h; cases h; rfl
  · cases h; rfl
  · cases h; rfl

theorem perform_port {e : HostEvent} {s t : State} (h : perform e s = .next t) : t.port = s.port := by
  cases e with
  | write r v => exact hostWrite_port h
  | read r => cases h; rfl
  | store a b => obtain ⟨-, rfl⟩ := hostStore_cases h; rfl
  | reset => cases h; rfl
  | resetDuring v => cases h; rfl
  | writeShared v a => exact hostWrite_port (writeShared_cases h)

theorem step_port {s t : State} (h : step s = .next t) : t.port = s.port.tail := by
  rcases step_cases h with ⟨hport, rfl⟩ | ⟨e, rest, hport, hp⟩
  · rw [hport, List.tail_nil]
  · rw [hport, List.tail_cons]
    exact perform_port hp

theorem run_port {k : Nat} {s t : State} (h : Host.Core.run core k s = .next t) : t.port = s.port.drop k := by
  induction k generalizing s with
  | zero => cases h; rfl
  | succ k ih =>
    obtain ⟨u, hstep, hrun⟩ := run_succ_iff.1 h
    rw [ih hrun, step_port hstep, List.drop_tail]

/-! ## Host programs of writes and reads (30_encoding.md R57, R59) -/

/-- The lines `WR` and `RD` of a host program. -/
def IsWriteOrRead (e : HostEvent) : Prop := (∃ r v, e = .write r v) ∨ ∃ r, e = .read r

theorem exists_hostWrite_next (r v : Nat) (s : State) : ∃ t, hostWrite r v s = .next t := by
  rcases hostWrite_cases r v s with hw | ⟨-, -, hw⟩ | ⟨-, -, hw⟩ | ⟨-, -, hw⟩ <;> rw [hw]
  · exact ⟨_, rfl⟩
  · rcases writeCmd_cases v s with ⟨i, -, hc⟩ | ⟨r, -, hc⟩ <;> exact ⟨_, hc⟩
  · exact ⟨_, rfl⟩
  · exact ⟨_, rfl⟩

theorem exists_perform_next {e : HostEvent} (he : IsWriteOrRead e) (s : State) : ∃ t, perform e s = .next t := by
  obtain ⟨r, v, rfl⟩ | ⟨r, rfl⟩ := he
  · exact exists_hostWrite_next r v s
  · exact ⟨_, rfl⟩

/-- A program of writes and reads runs to its end with no stop. -/
theorem exists_run_next {es : List HostEvent} {s : State} (hs : s.port = es) (hes : ∀ e ∈ es, IsWriteOrRead e) :
    ∃ t, Host.Core.run core es.length s = .next t := by
  induction es generalizing s with
  | nil => exact ⟨s, rfl⟩
  | cons e es ih =>
    obtain ⟨he, hes⟩ := List.forall_mem_cons.1 hes
    obtain ⟨u, hu⟩ := exists_perform_next he { s with port := es }
    obtain ⟨t, ht⟩ := ih (perform_port hu) hes
    exact ⟨t, run_succ_iff.2 ⟨u, by rw [step_of_cons hs, hu], ht⟩⟩

/-! ## The obligations about the encoding -/

/-- Settles O1: the decoder evaluates on each word of the table of R56 to the command of its row and column. -/
theorem legalWordsDecode : Obligations.LegalWordsDecode := ⟨rfl, rfl, rfl⟩

/-- Settles O2: the three fields of a command's word are the command's. -/
theorem decodeOfEncode : Obligations.DecodeOfEncode := decodeWord_encode

/-- Settles O3: a wide value has no command and is no word's number, and a word with a command's fields is that command's word. -/
theorem onlyEncodedWordsDecode : Obligations.OnlyEncodedWordsDecode := by
  intro v i
  constructor
  · intro h
    rcases Nat.lt_or_ge v (2 ^ 32) with hv | hv
    · rw [decodeCommand_of_lt hv, decodeWord_eq_ok_iff_eq_encode] at h
      rw [← h, BitVec.toNat_ofNat, Nat.mod_eq_of_lt hv]
    · rw [decodeCommand_of_le hv] at h
      cases h
  · rintro rfl
    exact decodeCommand_encode i

/-- Settles O4: a word is legal exactly if it gives the engine a command, which the write then runs. -/
theorem illegalWordRaisesBadCmd : Obligations.IllegalWordRaisesBadCmd := by
  intro w s hf
  have hlegal := exists_command_iff s.params w
  refine ⟨fun hbad => hostWrite_badCmd hf fun h => hlegal.1 h hbad, fun hgood => ?_⟩
  obtain ⟨i, hd, hp⟩ := hlegal.2 hgood
  exact ⟨i, hd, hp, by rw [hostWrite_cmd _ hf, writeCmd_ok s hd]⟩

/-- Settles O11: a step is `perform` of the first transaction, each step drops one, and no write or read stops the run. -/
theorem stepTakesOneTransaction : Obligations.StepTakesOneTransaction := by
  refine ⟨fun s e rest hport => ?_, fun k s t => run_port, fun s hes => ?_⟩
  · have hstep := step_of_cons hport
    refine ⟨?_, ?_, ?_, ?_, ?_, ?_, fun t ht => (perform_port (hstep.symm.trans ht) :)⟩
    · rintro r v rfl; exact hstep
    · rintro r rfl; exact hstep
    · rintro a b rfl; exact hstep
    · rintro rfl; exact hstep
    · rintro v rfl; exact hstep
    · rintro v a rfl; exact hstep
  · obtain ⟨t, ht⟩ := exists_run_next rfl hes
    exact ⟨t, ht, (run_port ht).trans List.drop_length⟩

end Sys2Proof.Machine
end

section
/-! Lane groups in data memory: the bits of a lane group, and a load of an element after a store (40_lane_ops.md R70, R71;
20_memory.md R32, R42; O44). -/

namespace Sys2Proof.Machine

theorem bitsOf_lt (lt : LaneType) (v : LaneGroup lt) : bitsOf lt v < 2 ^ ((laneFmt lt).width * v.length) := by
  induction v with
  | nil => simp [bitsOf]
  | cons x v ih =>
    have hx := x.isLt
    have hstep : 2 ^ (laneFmt lt).width * (bitsOf lt v + 1) ≤ 2 ^ (laneFmt lt).width * 2 ^ ((laneFmt lt).width * v.length) :=
      Nat.mul_le_mul_left _ ih
    rw [bitsOf, List.length_cons, Nat.mul_succ, Nat.add_comm (_ * _), pow_add]
    rw [Nat.mul_succ] at hstep
    omega

/-- Cutting the bits of a lane group into lanes gives the group back (R70, R71). -/
theorem lanesOf_bitsOf (lt : LaneType) (v : LaneGroup lt) : lanesOf lt v.length (bitsOf lt v) = v := by
  induction v with
  | nil => rfl
  | cons x v ih =>
    have hlow : BitVec.ofNat (laneFmt lt).width (bitsOf lt (x :: v)) = x :=
      BitVec.eq_of_toNat_eq (by rw [bitsOf, BitVec.toNat_ofNat, Nat.add_mul_mod_self_left, Nat.mod_eq_of_lt x.isLt])
    have hhigh : bitsOf lt (x :: v) / 2 ^ (laneFmt lt).width = bitsOf lt v := by
      rw [bitsOf, Nat.add_mul_div_left _ _ (by positivity), Nat.div_eq_of_lt x.isLt, zero_add]
    rw [List.length_cons, lanesOf, hlow, hhigh, ih]

theorem two_pow_lanes (lt : LaneType) : 2 ^ ((laneFmt lt).width * laneCount lt) = 256 ^ esize lt := by
  cases lt <;> norm_num [laneCount, esize]

theorem length_element (lt : LaneType) (m : Memory) (base k : Nat) : (element lt m base k).length = laneCount lt :=
  length_lanesOf lt _ _

section
variable {lt : LaneType} (m : Memory) (base : Nat) {k : Nat} (v : LaneGroup lt)

theorem element_putElement_same (hv : v.length = laneCount lt) : element lt (putElement lt m base k v) base k = v := by
  have hfits : bitsOf lt v < 256 ^ esize lt := by
    rw [← two_pow_lanes, ← hv]
    exact bitsOf_lt lt v
  rw [element, putElement, memRead_memWrite, Nat.mod_eq_of_lt hfits, ← hv, lanesOf_bitsOf]

theorem memByte_putElement_outside {a : Nat} (ha : a < elemAddr lt base k ∨ elemAddr lt base k + esize lt ≤ a) :
    memByte (putElement lt m base k v) a = memByte m a :=
  memByte_memWrite_outside _ _ _ _ ha

/-- Distinct elements have no byte in common (20_memory.md R32). -/
theorem elemAddr_disjoint {j k : Nat} (h : j ≠ k) :
    elemAddr lt base j + esize lt ≤ elemAddr lt base k ∨ elemAddr lt base k + esize lt ≤ elemAddr lt base j := by
  rcases Nat.lt_or_gt_of_ne h with h | h
  · exact .inl ((elemAddr_bounds base h).2)
  · exact .inr ((elemAddr_bounds base h).2)

theorem element_putElement_other {j : Nat} (h : j ≠ k) :
    element lt (putElement lt m base k v) base j = element lt m base j := by
  have hdisjoint := elemAddr_disjoint (lt := lt) base h
  rw [element, element, memRead_congr fun a hlo hhi => memByte_putElement_outside m base v (by omega)]

end

/-- Settles O44: the group's bits fit the element and are cut into the same lanes, and other elements share no byte with it. -/
theorem loadAfterStore : Obligations.LoadAfterStore := fun _ m base _ v hv =>
  ⟨element_putElement_same m base v hv, fun _ => element_putElement_other m base v,
    fun _ => memByte_putElement_outside m base v⟩

end Sys2Proof.Machine
end

section
/-! Patterns of a binary format: a pattern is its sign and its magnitude, the classes of patterns, quiet NaNs, and the operations
where no rounding takes place: NaN operands, FLUSH_SUBNORMALS, lanes (40_lane_ops.md R66 to R68, R76, R77; O41, O42). -/

namespace Sys2Proof.Machine

open Sys2Proof.Reference

/-! ## The formats (40_lane_ops.md R67, R68) -/

/-- What binary32 and binary64 have in common: a fraction field that a 64-bit draw fills, and at least two exponent bits. -/
structure IsFormat (f : Fmt) : Prop where
  frac_pos : 1 ≤ f.frac
  frac_le : f.frac ≤ 64
  exponent : f.frac + 3 ≤ f.width

theorem isFormat_binary32 : IsFormat binary32 := ⟨by decide, by decide, by decide⟩

theorem isFormat_binary64 : IsFormat binary64 := ⟨by decide, by decide, by decide⟩

theorem isFormat_of_mem {f : Fmt} (hf : f ∈ [binary32, binary64]) : IsFormat f := by
  rcases List.mem_pair.1 hf with rfl | rfl
  · exact isFormat_binary32
  · exact isFormat_binary64

namespace IsFormat
variable {f : Fmt} (hf : IsFormat f)
include hf

theorem two_pow_frac : 2 ^ f.frac = 2 * 2 ^ (f.frac - 1) := by
  rw [← pow_succ', Nat.sub_add_cancel hf.frac_pos]

/-- The sign bit stands above the exponent field, whose values number `2 * (bias + 1)`. -/
theorem signUnit_eq : signUnit f = 2 * 2 ^ (f.width - f.frac - 2) * 2 ^ f.frac := by
  have := hf.exponent
  rw [signUnit, ← pow_succ', ← pow_add]
  congr 1
  omega

theorem two_pow_width : 2 ^ f.width = 2 * signUnit f := by
  have := hf.exponent
  rw [signUnit, ← pow_succ']
  congr 1
  omega

/-- Infinity is the largest exponent with a zero fraction. -/
theorem infMag_eq : infMag f = (2 * 2 ^ (f.width - f.frac - 2) - 1) * 2 ^ f.frac := by
  rw [Nat.sub_mul, one_mul, ← hf.signUnit_eq, infMag, signUnit]

theorem infMag_add : infMag f + 2 ^ f.frac = signUnit f := by
  have := Nat.one_le_two_pow (n := f.width - f.frac - 2)
  rw [hf.infMag_eq, hf.signUnit_eq, ← Nat.succ_mul]
  congr 1
  omega

theorem infMag_lt_signUnit : infMag f < signUnit f := by
  have := hf.infMag_add
  have := Nat.one_le_two_pow (n := f.frac)
  omega

/-- The exponent field has at least two bits. -/
theorem two_le_exponents : 2 ≤ 2 ^ (f.width - f.frac - 2) :=
  Nat.pow_le_pow_right (n := 2) (i := 1) two_pos (by have := hf.exponent; omega)

/-- There are normal numbers. -/
theorem two_mul_le_infMag : 2 * 2 ^ f.frac ≤ infMag f := by
  have hexp := hf.two_le_exponents
  rw [hf.infMag_eq]
  exact Nat.mul_le_mul_right _ (by omega)

theorem infMag_pos : 0 < infMag f := lt_of_lt_of_le (by positivity) hf.two_mul_le_infMag

end IsFormat

/-! ## Sign and magnitude of a pattern -/

theorem signUnit_pos (f : Fmt) : 0 < signUnit f := Nat.two_pow_pos _

theorem magOf_lt (f : Fmt) (x : BitVec f.width) : magOf f x < signUnit f := Nat.mod_lt _ (signUnit_pos f)

section
variable {f : Fmt} (hf : IsFormat f)
include hf

theorem toNat_packMag (s : Bool) {m : Nat} (hm : m < signUnit f) :
    (packMag f s m).toNat = (if s then signUnit f else 0) + m := by
  rw [packMag, BitVec.toNat_ofNat, hf.two_pow_width]
  refine Nat.mod_eq_of_lt ?_
  cases s <;> simp <;> omega

theorem isNeg_packMag (s : Bool) {m : Nat} (hm : m < signUnit f) : isNeg f (packMag f s m) = s := by
  rw [isNeg, toNat_packMag hf s hm]
  cases s <;> simp [hm]

theorem magOf_packMag (s : Bool) {m : Nat} (hm : m < signUnit f) : magOf f (packMag f s m) = m := by
  rw [magOf, toNat_packMag hf s hm]
  cases s <;> simp [Nat.mod_eq_of_lt hm]

/-- A pattern is its sign bit above its magnitude. -/
theorem toNat_eq_sign_add_magOf (x : BitVec f.width) : x.toNat = (if isNeg f x then signUnit f else 0) + magOf f x := by
  have hx := x.isLt
  rw [hf.two_pow_width] at hx
  cases h : isNeg f x <;> simp only [isNeg, decide_eq_false_iff_not, decide_eq_true_eq, not_le] at h <;> rw [magOf]
  · rw [if_neg (by decide), zero_add, Nat.mod_eq_of_lt h]
  · rw [if_pos rfl, Nat.mod_eq_sub_mod h, Nat.mod_eq_of_lt (by omega)]
    omega

theorem packMag_isNeg_magOf (x : BitVec f.width) : packMag f (isNeg f x) (magOf f x) = x :=
  BitVec.eq_of_toNat_eq (by rw [toNat_packMag hf _ (magOf_lt f x), ← toNat_eq_sign_add_magOf hf])

theorem isNeg_packMag_zero (s : Bool) : isNeg f (packMag f s 0) = s := isNeg_packMag hf s (signUnit_pos f)

theorem magOf_packMag_zero (s : Bool) : magOf f (packMag f s 0) = 0 := magOf_packMag hf s (signUnit_pos f)

theorem isNeg_infOf (s : Bool) : isNeg f (infOf f s) = s := isNeg_packMag hf s hf.infMag_lt_signUnit

theorem magOf_infOf (s : Bool) : magOf f (infOf f s) = infMag f := magOf_packMag hf s hf.infMag_lt_signUnit

theorem isNeg_negate (x : BitVec f.width) : isNeg f (negate f x) = !isNeg f x := isNeg_packMag hf _ (magOf_lt f x)

theorem magOf_negate (x : BitVec f.width) : magOf f (negate f x) = magOf f x := magOf_packMag hf _ (magOf_lt f x)

/-! ## Quiet NaNs (40_lane_ops.md R76) -/

/-- The fraction of a produced NaN: the top bit and the draw's bits below it. -/
theorem quietNan_mag_lt (d : Word64) : infMag f + 2 ^ (f.frac - 1) + d.toNat % 2 ^ (f.frac - 1) < signUnit f := by
  have hlow := Nat.mod_lt d.toNat (Nat.two_pow_pos (f.frac - 1))
  rw [← hf.infMag_add, hf.two_pow_frac]
  omega

theorem isQuietNan_iff (x : BitVec f.width) :
    IsQuietNan f x ↔ ∃ r < 2 ^ (f.frac - 1), magOf f x = infMag f + 2 ^ (f.frac - 1) + r := by
  have hlt := magOf_lt f x
  have hsum := hf.infMag_add
  have hfrac := hf.two_pow_frac
  have hhalf := Nat.two_pow_pos (f.frac - 1)
  have hbit : x.getLsbD (f.frac - 1) = decide (magOf f x / 2 ^ (f.frac - 1) % 2 = 1) := by
    have hsign : (if isNeg f x then signUnit f else 0) =
        2 ^ (f.frac - 1) * (2 * (if isNeg f x then 2 * 2 ^ (f.width - f.frac - 2) else 0)) := by
      rw [hf.signUnit_eq, hfrac]
      split <;> ring
    rw [BitVec.getLsbD, Nat.testBit_eq_decide_div_mod_eq, toNat_eq_sign_add_magOf hf, hsign,
      Nat.mul_add_div hhalf, Nat.mul_add_mod]
  have htop : ∀ t, (infMag f + t) / 2 ^ (f.frac - 1) % 2 = t / 2 ^ (f.frac - 1) % 2 := by
    intro t
    rw [hf.infMag_eq, hfrac, ← mul_assoc, mul_comm, Nat.mul_add_div hhalf, Nat.mul_add_mod']
  rw [IsQuietNan, isNan, hbit, decide_eq_true_eq, decide_eq_true_eq]
  constructor
  · rintro ⟨hnan, hone⟩
    obtain ⟨t, ht⟩ := Nat.exists_eq_add_of_lt hnan
    rw [ht, add_assoc, htop] at hone
    have hle : 2 ^ (f.frac - 1) ≤ t + 1 := by
      by_contra hlow
      rw [Nat.div_eq_of_lt (by omega)] at hone
      omega
    exact ⟨t + 1 - 2 ^ (f.frac - 1), by omega, by omega⟩
  · rintro ⟨r, hr, hm⟩
    refine ⟨by omega, ?_⟩
    rw [hm, add_assoc, htop, Nat.add_div_left _ hhalf, Nat.div_eq_of_lt hr]

theorem isQuietNan_quietNan (d : Word64) : IsQuietNan f (quietNan f d) :=
  (isQuietNan_iff hf _).2 ⟨_, Nat.mod_lt _ (Nat.two_pow_pos _), magOf_packMag hf _ (quietNan_mag_lt hf d)⟩

/-- Every quiet NaN is some draw's: its sign at bit 63 and its low fraction bits below. -/
theorem exists_quietNan_eq {x : BitVec f.width} (hx : IsQuietNan f x) : ∃ d, quietNan f d = x := by
  obtain ⟨r, hr, hm⟩ := (isQuietNan_iff hf x).1 hx
  have hr63 : r < 2 ^ 63 := hr.trans_le (Nat.pow_le_pow_right two_pos (by have := hf.frac_le; omega))
  let n := (isNeg f x).toNat * 2 ^ 63 + r
  have hlow : n % 2 ^ (f.frac - 1) = r := by
    have hdvd : 2 ^ (f.frac - 1) ∣ 2 ^ 63 := pow_dvd_pow 2 (by have := hf.frac_le; omega)
    rw [Nat.add_mod, Nat.mod_eq_zero_of_dvd (hdvd.mul_left _), zero_add, Nat.mod_mod, Nat.mod_eq_of_lt hr]
  have hn : (BitVec.ofNat 64 n).toNat = n := by
    rw [BitVec.toNat_ofNat]
    refine Nat.mod_eq_of_lt ?_
    have := (isNeg f x).toNat_le
    omega
  have hsign : (BitVec.ofNat 64 n).getLsbD 63 = isNeg f x := by
    rw [BitVec.getLsbD, hn, Nat.testBit_eq_decide_div_mod_eq, Nat.add_div_of_dvd_right (Nat.dvd_mul_left _ _),
      Nat.mul_div_cancel _ (by positivity), Nat.div_eq_of_lt hr63]
    cases isNeg f x <;> rfl
  exact ⟨BitVec.ofNat 64 n, by rw [quietNan, hsign, hn, hlow, ← hm, packMag_isNeg_magOf hf]⟩

end

end Sys2Proof.Machine
end

section
/-! The lane operations where no rounding takes place: one rule for each kind of operands, NaN operands and invalid operations,
FLUSH_SUBNORMALS, and one lane of a lane operation (40_lane_ops.md R66, R76, R77, R80; O41, O42). -/

namespace Sys2Proof.Machine

open Sys2Proof.Reference

/-! ## The classes of patterns exclude each other -/

section
variable {f : Fmt} {x : BitVec f.width}

theorem isNan_iff : isNan f x = true ↔ infMag f < magOf f x := decide_eq_true_iff

theorem isInf_iff : isInf f x = true ↔ magOf f x = infMag f := decide_eq_true_iff

theorem isZero_iff : isZero f x = true ↔ magOf f x = 0 := decide_eq_true_iff

theorem isSubnormal_eq_false_of_isZero (h : isZero f x = true) : isSubnormal f x = false := by
  rw [isZero_iff] at h
  simp [isSubnormal, h]

theorem isNan_eq_false_of_isInf (h : isInf f x = true) : isNan f x = false := by
  rw [isInf_iff] at h
  simp [isNan, h]

theorem isNan_eq_false_of_finite (h : Finite f x) : isNan f x = false := decide_eq_false (not_lt.2 (le_of_lt h))

theorem isInf_eq_false_of_finite (h : Finite f x) : isInf f x = false := decide_eq_false (ne_of_lt h)

/-- A pattern that is no NaN is finite or infinite. -/
theorem finite_or_isInf (h : isNan f x = false) : Finite f x ∨ isInf f x = true := by
  rw [isInf_iff]
  exact lt_or_eq_of_le (not_lt.1 (of_decide_eq_false h))

end

section
variable {f : Fmt} (hf : IsFormat f)
include hf

theorem isSubnormal_eq_false_of_infMag_le {x : BitVec f.width} (h : infMag f ≤ magOf f x) : isSubnormal f x = false := by
  have := hf.two_mul_le_infMag
  exact decide_eq_false (by omega)

theorem isSubnormal_eq_false_of_isNan {x : BitVec f.width} (h : isNan f x = true) : isSubnormal f x = false :=
  isSubnormal_eq_false_of_infMag_le hf (isNan_iff.1 h).le

theorem isSubnormal_eq_false_of_isInf {x : BitVec f.width} (h : isInf f x = true) : isSubnormal f x = false :=
  isSubnormal_eq_false_of_infMag_le hf (isInf_iff.1 h).ge

theorem finite_packMag_zero (s : Bool) : Finite f (packMag f s 0) := by
  rw [Reference.Finite, magOf_packMag_zero hf]
  exact hf.infMag_pos

theorem isZero_packMag_zero (s : Bool) : isZero f (packMag f s 0) = true := isZero_iff.2 (magOf_packMag_zero hf s)

theorem isInf_infOf (s : Bool) : isInf f (infOf f s) = true := isInf_iff.2 (magOf_infOf hf s)

theorem isZero_eq_false_of_isInf {x : BitVec f.width} (h : isInf f x = true) : isZero f x = false := by
  have := hf.infMag_pos
  exact decide_eq_false (by rw [isInf_iff.1 h]; omega)

theorem isNan_quietNan (d : Word64) : isNan f (quietNan f d) = true := (isQuietNan_quietNan hf d).1

theorem isNan_negate (x : BitVec f.width) : isNan f (negate f x) = isNan f x := by rw [isNan, isNan, magOf_negate hf]

theorem isInf_negate (x : BitVec f.width) : isInf f (negate f x) = isInf f x := by rw [isInf, isInf, magOf_negate hf]

theorem finite_negate {x : BitVec f.width} (h : Finite f x) : Finite f (negate f x) := by
  rwa [Reference.Finite, magOf_negate hf]

theorem negate_infOf (s : Bool) : negate f (infOf f s) = infOf f (!s) := by
  rw [negate, isNeg_infOf hf, magOf_infOf hf, infOf]

theorem negate_packMag_zero (s : Bool) : negate f (packMag f s 0) = packMag f (!s) 0 := by
  rw [negate, isNeg_packMag_zero hf, magOf_packMag_zero hf]

end

/-! ## Addition and subtraction (40_lane_ops.md R76, R80) -/

section
variable {f : Fmt} (d : Word64) {a b : BitVec f.width}

theorem addF_of_isNan (h : isNan f a = true ∨ isNan f b = true) : addF f d a b = quietNan f d :=
  if_pos (by simpa using h)

theorem addF_eq_sumOf (ha : isNan f a = false) (hb : isNan f b = false) :
    addF f d a b = sumOf f d (isNeg f a) (magOf f a) (isNeg f b) (magOf f b) := if_neg (by simp [ha, hb])

theorem addF_of_opposite_inf (ha : isInf f a = true) (hb : isInf f b = true) (h : isNeg f a ≠ isNeg f b) :
    addF f d a b = quietNan f d := by
  rw [addF_eq_sumOf d (isNan_eq_false_of_isInf ha) (isNan_eq_false_of_isInf hb), sumOf, if_pos (isInf_iff.1 ha),
    if_pos ⟨isInf_iff.1 hb, h⟩]

/-- An infinity that the other operand does not cancel stays. -/
theorem addF_of_isInf (ha : isInf f a = true) (hb : isNan f b = false) (h : isInf f b = true → isNeg f a = isNeg f b) :
    addF f d a b = infOf f (isNeg f a) := by
  rw [addF_eq_sumOf d (isNan_eq_false_of_isInf ha) hb, sumOf, if_pos (isInf_iff.1 ha), if_neg]
  exact fun hc => hc.2 (h (isInf_iff.2 hc.1))

/-- Subtraction is the addition of the negated operand, NaNs included. -/
theorem subF_eq_addF_negate (hf : IsFormat f) : subF f d a b = addF f d a (negate f b) := by
  rw [subF, addF, isNan_negate hf, isNeg_negate hf, magOf_negate hf]

theorem subF_of_isNan (hf : IsFormat f) (h : isNan f a = true ∨ isNan f b = true) : subF f d a b = quietNan f d := by
  rw [subF_eq_addF_negate d hf, addF_of_isNan d (by rwa [isNan_negate hf])]

theorem subF_of_equal_inf (hf : IsFormat f) (ha : isInf f a = true) (hb : isInf f b = true) (h : isNeg f a = isNeg f b) :
    subF f d a b = quietNan f d := by
  rw [subF_eq_addF_negate d hf, addF_of_opposite_inf d ha (by rwa [isInf_negate hf]) (by simp [isNeg_negate hf, h])]

/-! ## Multiplication (40_lane_ops.md R74, R76, R80) -/

theorem mulF_of_isNan (h : isNan f a = true ∨ isNan f b = true) : mulF f d a b = quietNan f d :=
  if_pos (by simpa using h)

theorem mulF_comm : mulF f d a b = mulF f d b a := by
  simp only [mulF, Bool.or_comm (isNan f b), Bool.or_comm (isInf f b), Bool.or_comm (isZero f b), Bool.xor_comm (isNeg f b),
    Nat.mul_comm (quanta f (magOf f b))]

theorem mulF_of_isZero_of_isInf (ha : isZero f a = true) (hb : isInf f b = true) : mulF f d a b = quietNan f d := by
  rw [mulF, ha, hb, isNan_eq_false_of_isInf hb, Bool.true_or, Bool.or_true, Bool.or_false]
  simp

end

/-! ## FLUSH_SUBNORMALS (40_lane_ops.md R77) -/

section
variable {f : Fmt} {x : BitVec f.width}

theorem flushF_off (x : BitVec f.width) : flushF f false x = x := rfl

theorem flushF_of_subnormal (h : isSubnormal f x = true) : flushF f true x = packMag f (isNeg f x) 0 := if_pos h

theorem flushF_of_not_subnormal (on : Bool) (h : isSubnormal f x = false) : flushF f on x = x :=
  if_neg (by simp [h])

variable (hf : IsFormat f)
include hf

theorem isSubnormal_packMag_zero (s : Bool) : isSubnormal f (packMag f s 0) = false :=
  isSubnormal_eq_false_of_isZero (isZero_packMag_zero hf s)

theorem isSubnormal_flushF (x : BitVec f.width) : isSubnormal f (flushF f true x) = false := by
  cases h : isSubnormal f x
  · rwa [flushF_of_not_subnormal true h]
  · rw [flushF_of_subnormal h, isSubnormal_packMag_zero hf]

theorem isNan_flushF (on : Bool) (x : BitVec f.width) : isNan f (flushF f on x) = isNan f x := by
  cases on
  · rw [flushF_off]
  · cases h : isSubnormal f x
    · rw [flushF_of_not_subnormal true h]
    · have hnan : isNan f x = false := by
        by_contra hne
        simp [isSubnormal_eq_false_of_isNan hf (by simpa using hne)] at h
      rw [flushF_of_subnormal h, hnan, isNan_eq_false_of_finite (finite_packMag_zero hf _)]

theorem flushF_quietNan (on : Bool) (d : Word64) : flushF f on (quietNan f d) = quietNan f d :=
  flushF_of_not_subnormal on (isSubnormal_eq_false_of_isNan hf (isNan_quietNan hf d))

/-- A flushed operation is a NaN where the operation on the flushed operands is the produced NaN. -/
theorem isQuietNan_flushed {on : Bool} {op : Word64 → BitVec f.width → BitVec f.width → BitVec f.width} {d : Word64}
    {a b : BitVec f.width} (h : op d (flushF f on a) (flushF f on b) = quietNan f d) :
    IsQuietNan f (flushed f on op d a b) := by
  rw [flushed, h, flushF_quietNan hf]
  exact isQuietNan_quietNan hf d

end

/-- Settles O42: each clause is the flush of the operands, then of the result. -/
theorem flushReplacesSubnormals : Obligations.FlushReplacesSubnormals := by
  intro f hmem op d a b
  have hf := isFormat_of_mem hmem
  have hzero : ∀ s, flushF f true (packMag f s 0) = packMag f s 0 :=
    fun s => flushF_of_not_subnormal true (isSubnormal_packMag_zero hf s)
  refine ⟨rfl, isSubnormal_flushF hf _, fun ha => ?_, fun hb => ?_, fun ha hb => ⟨fun hr => ?_, fun hr => ?_⟩⟩
  · rw [flushed, flushed, flushF_of_subnormal ha, hzero]
  · rw [flushed, flushed, flushF_of_subnormal hb, hzero]
  · rw [flushed, flushF_of_not_subnormal true ha, flushF_of_not_subnormal true hb, flushF_of_not_subnormal true hr]
  · rw [flushed, flushF_of_not_subnormal true ha, flushF_of_not_subnormal true hb, flushF_of_subnormal hr]

/-! ## One lane of a lane operation (40_lane_ops.md R66) -/

/-- Lane `l` of a lane operation is the operation on the two lanes `l`, with its own draw. -/
theorem getElem?_laneMap {α : Type} (op : Word64 → α → α → α) (d : Nat) (a b : List α) (l : Nat) :
    (laneMap op d a b)[l]? = Option.map₂ (op (Config.freeNan (d + l))) a[l]? b[l]? := by
  induction a generalizing d b l with
  | nil => simp [laneMap]
  | cons x a ih =>
    cases b with
    | nil => simp [laneMap]
    | cons y b =>
      cases l with
      | zero => rfl
      | succ l =>
        rw [laneMap, List.getElem?_cons_succ, ih, List.getElem?_cons_succ, List.getElem?_cons_succ, Nat.add_right_comm,
          Nat.add_assoc]

theorem length_laneMap {α : Type} (op : Word64 → α → α → α) (d : Nat) {a b : List α} (h : a.length = b.length) :
    (laneMap op d a b).length = a.length := by
  induction a generalizing d b with
  | nil => simp [laneMap]
  | cons x a ih =>
    cases b with
    | nil => simp at h
    | cons y b => rw [laneMap, List.length_cons, List.length_cons, ih _ (by simpa using h)]

/-- Settles O41: a NaN operand is kept by the flush, and so are infinities and zeros, so each of these operations gives the produced
NaN; the draw of a quiet NaN is read off its pattern; a lane's result is written from that lane alone. -/
theorem nanOperandsGiveQuietNans : Obligations.NanOperandsGiveQuietNans := by
  refine ⟨fun f hmem on d a b => ?_, fun f hmem x => exists_quietNan_eq (isFormat_of_mem hmem), ?_⟩
  · have hf := isFormat_of_mem hmem
    have hinf : ∀ {x : BitVec f.width}, isInf f x = true → flushF f on x = x :=
      fun hx => flushF_of_not_subnormal on (isSubnormal_eq_false_of_isInf hf hx)
    have hzero : ∀ {x : BitVec f.width}, isZero f x = true → flushF f on x = x :=
      fun hx => flushF_of_not_subnormal on (isSubnormal_eq_false_of_isZero hx)
    refine ⟨fun hnan => ?_, fun ha hb => ⟨fun hs => ?_, fun hs => ?_⟩, fun ha hb => ⟨?_, ?_⟩⟩
    · have hnan' : isNan f (flushF f on a) = true ∨ isNan f (flushF f on b) = true := by
        rwa [isNan_flushF hf, isNan_flushF hf]
      exact ⟨isQuietNan_flushed hf (addF_of_isNan d hnan'), isQuietNan_flushed hf (subF_of_isNan d hf hnan'),
        isQuietNan_flushed hf (mulF_of_isNan d hnan')⟩
    · exact isQuietNan_flushed hf (by rw [hinf ha, hinf hb, addF_of_opposite_inf d ha hb hs])
    · exact isQuietNan_flushed hf (by rw [hinf ha, hinf hb, subF_of_equal_inf d hf ha hb hs])
    · exact isQuietNan_flushed hf (by rw [hzero ha, hinf hb, mulF_of_isZero_of_isInf d ha hb])
    · exact isQuietNan_flushed hf (by rw [hzero ha, hinf hb, mulF_comm, mulF_of_isZero_of_isInf d ha hb])
  · intro lt op d l a b a' b' _ _ _ _ ha hb
    rw [getElem?_laneMap, getElem?_laneMap, ha, hb]

end Sys2Proof.Machine
end

section
/-! Lane `l` of a V4F32 run and the one lane of an F32 run in lockstep, up to the choice of a NaN: the relation is kept by loads, stores,
broadcasts and every lane operation, so it is a simulation (40_lane_ops.md R76, R79; O33). -/

namespace Sys2Proof.Machine

open Sys2Proof.Reference

/-! ## Lane values up to the choice of a NaN -/

section
variable {f : Fmt} {x x' y y' : BitVec f.width}

theorem laneAlike_ite {p : Prop} [Decidable p] (hx : LaneAlike f x x') (hy : LaneAlike f y y') :
    LaneAlike f (if p then x else y) (if p then x' else y') := by
  split
  · exact hx
  · exact hy

theorem laneAlike_quietNan (hf : IsFormat f) (d d' : Word64) : LaneAlike f (quietNan f d) (quietNan f d') :=
  .inr ⟨isNan_quietNan hf d, isNan_quietNan hf d'⟩

theorem laneAlike_flushF (hf : IsFormat f) (on : Bool) (h : LaneAlike f x x') : LaneAlike f (flushF f on x) (flushF f on x') := by
  rcases h with rfl | ⟨hx, hx'⟩
  · exact .inl rfl
  · exact .inr ⟨by rwa [isNan_flushF hf], by rwa [isNan_flushF hf]⟩

end

/-- A NaN operand gives a NaN, and the draw decides at most which NaN (R76). -/
structure NanOnlyFromDraw (f : Fmt) (op : Word64 → BitVec f.width → BitVec f.width → BitVec f.width) : Prop where
  nan : ∀ d a b, isNan f a = true ∨ isNan f b = true → isNan f (op d a b) = true
  draw : ∀ d d' a b, LaneAlike f (op d a b) (op d' a b)

section
variable {f : Fmt} {op : Word64 → BitVec f.width → BitVec f.width → BitVec f.width}

theorem NanOnlyFromDraw.laneAlike (h : NanOnlyFromDraw f op) (d d' : Word64) {a a' b b' : BitVec f.width}
    (ha : LaneAlike f a a') (hb : LaneAlike f b b') : LaneAlike f (op d a b) (op d' a' b') := by
  rcases ha with rfl | ⟨ha, ha'⟩
  · rcases hb with rfl | ⟨hb, hb'⟩
    · exact h.draw d d' a b
    · exact .inr ⟨h.nan _ _ _ (.inr hb), h.nan _ _ _ (.inr hb')⟩
  · exact .inr ⟨h.nan _ _ _ (.inl ha), h.nan _ _ _ (.inl ha')⟩

variable (hf : IsFormat f)
include hf

theorem NanOnlyFromDraw.flushed (h : NanOnlyFromDraw f op) (on : Bool) : NanOnlyFromDraw f (flushed f on op) where
  nan d a b hab := by
    rw [Machine.flushed, isNan_flushF hf]
    exact h.nan _ _ _ (by rwa [isNan_flushF hf, isNan_flushF hf])
  draw d d' a b := laneAlike_flushF hf on (h.draw _ _ _ _)

theorem nanOnlyFromDraw_addF : NanOnlyFromDraw f (addF f) where
  nan d a b hab := by rw [addF_of_isNan d hab, isNan_quietNan hf]
  draw d d' a b :=
    have hnan := laneAlike_quietNan hf d d'
    laneAlike_ite hnan (laneAlike_ite (laneAlike_ite hnan (.inl rfl)) (.inl rfl))

theorem nanOnlyFromDraw_subF : NanOnlyFromDraw f (subF f) where
  nan d a b hab := by rw [subF_of_isNan d hf hab, isNan_quietNan hf]
  draw d d' a b := by
    rw [subF_eq_addF_negate d hf, subF_eq_addF_negate d' hf]
    exact (nanOnlyFromDraw_addF hf).draw d d' a _

theorem nanOnlyFromDraw_mulF : NanOnlyFromDraw f (mulF f) where
  nan d a b hab := by rw [mulF_of_isNan d hab, isNan_quietNan hf]
  draw d d' a b :=
    have hnan := laneAlike_quietNan hf d d'
    laneAlike_ite hnan (laneAlike_ite (laneAlike_ite hnan (.inl rfl)) (.inl rfl))

end

/-! ## The simulation of one lane -/

/-- A V4F32 lane group whose lane `l` is, up to the choice of a NaN, the lane of an F32 lane group. -/
structure SameLane (l : Nat) (v : LaneGroup .v4f32) (v' : LaneGroup .f32) : Prop where
  length : v.length = laneCount .v4f32
  length' : v'.length = laneCount .f32
  lane : LaneAlike binary32 (v.getD l 0) (v'.getD 0 0)

/-- Every element of the two buffers is related in that sense. -/
def SameLaneBuffers (l : Nat) (c c' : Ctx) (w w' : Work) : Prop :=
  ∀ k < c.n, SameLane l (element .v4f32 w.mem c.base k) (element .f32 w'.mem c'.base k)

theorem getD_laneMap {w : Nat} (op : Word64 → BitVec w → BitVec w → BitVec w) (d : Nat) {a b : List (BitVec w)} {l : Nat}
    (ha : l < a.length) (hb : l < b.length) :
    (laneMap op d a b).getD l 0 = op (Config.freeNan (d + l)) (a.getD l 0) (b.getD l 0) := by
  rw [List.getD_eq_getElem?_getD, getElem?_laneMap, List.getElem?_eq_getElem ha, List.getElem?_eq_getElem hb,
    List.getD_eq_getElem _ _ ha, List.getD_eq_getElem _ _ hb]
  rfl

theorem lockstep_lanewise_sameLane {l : Nat} (hl : l < 4) {c c' : Ctx} (hflush : c'.flush = c.flush)
    {op : Word64 → BitVec 32 → BitVec 32 → BitVec 32} (hop : NanOnlyFromDraw binary32 op)
    {a b : LaneGroup .v4f32} {a' b' : LaneGroup .f32} (ha : SameLane l a a') (hb : SameLane l b b') :
    Lockstep (SameLaneBuffers l c c') (SameLane l) (lanewise .v4f32 c op a b) (lanewise .f32 c' op a' b') := by
  intro w w' hw
  refine ⟨⟨?_, ?_, ?_⟩, hw⟩
  · exact (length_laneMap _ _ (ha.length.trans hb.length.symm)).trans ha.length
  · exact (length_laneMap _ _ (ha.length'.trans hb.length'.symm)).trans ha.length'
  · simp only [lanewise, hflush]
    rw [getD_laneMap _ _ (ha.length ▸ hl) (hb.length ▸ hl), getD_laneMap _ _ (ha.length' ▸ one_pos) (hb.length' ▸ one_pos)]
    exact (hop.flushed isFormat_binary32 c.flush).laneAlike _ _ ha.lane hb.lane

/-- The runs of the two forms of a command keep lane `l` of the one buffer the other buffer's lane. -/
theorem simulation_sameLane {l : Nat} (hl : l < 4) {c c' : Ctx} (hn : c'.n = c.n) (hflush : c'.flush = c.flush) :
    Simulation .v4f32 .f32 c c' (SameLane l) (SameLaneBuffers l c c') where
  size := hn
  load hk w w' hw := ⟨hw _ hk, hw⟩
  store {k v v'} hk hv w w' hw := by
    refine ⟨rfl, fun j hj => ?_⟩
    simp only [run_lstore]
    rcases eq_or_ne j k with rfl | hjk
    · rwa [element_putElement_same _ _ _ hv.length, element_putElement_same _ _ _ hv.length']
    · rw [element_putElement_other _ _ _ hjk, element_putElement_other _ _ _ hjk]
      exact hw j hj
  add := lockstep_lanewise_sameLane hl hflush (nanOnlyFromDraw_addF isFormat_binary32)
  sub := lockstep_lanewise_sameLane hl hflush (nanOnlyFromDraw_subF isFormat_binary32)
  mul := lockstep_lanewise_sameLane hl hflush (nanOnlyFromDraw_mulF isFormat_binary32)
  bcast v := by
    refine ⟨List.length_replicate, List.length_replicate, .inl ?_⟩
    exact (List.getD_replicate _ hl).trans (List.getD_replicate _ one_pos).symm
  phase _ _ _ hw := ⟨rfl, hw⟩

/-! ## The command's result -/

theorem lt_withLt (i : Instr) (lt : LaneType) : (withLt i lt).lt = lt := by cases i <;> rfl

/-- Settles O33: both forms pass `CHECK`, start from related buffers, and the passes keep them related. -/
theorem lanesAreIndependent : Obligations.LanesAreIndependent := by
  intro i s u l hl hs hu hn hflush hlane
  have hs' : Accepts (withLt i .v4f32).lt s := by rwa [lt_withLt]
  have hu' : Accepts (withLt i .f32).lt u := by rwa [lt_withLt]
  obtain ⟨b, hsize⟩ := hs.exists_size
  have hstart : SameLaneBuffers l (ctxOf s) (ctxOf u) (workOf s) (workOf u) :=
    fun k hk => ⟨length_element _ _ _ _, length_element _ _ _ _, hlane k hk⟩
  have hsim := simulation_sameLane hl (c := ctxOf s) (c' := ctxOf u) (by simp only [ctxOf, hn]) hflush
  obtain ⟨-, hend⟩ := hsim.passesOf i hsize _ _ hstart
  exact ⟨_, _, exec_accepted hs', exec_accepted hu', fun k hk => (hend k hk).lane⟩

end Sys2Proof.Machine
end

section
/-! Rounding: the magnitude patterns rise with their values, `roundMag` picks the pattern on the right side of every midpoint, and so the
operations return the exact result rounded once (40_lane_ops.md R67 to R69, R73 to R75; O38). -/

namespace Sys2Proof.Machine

open Sys2Proof.Reference

/-! ## The values of the magnitude patterns (40_lane_ops.md R67, R68) -/

/-- The pattern `e * 2^frac + q` has the value `q * 2^e`, where `q` fills the precision or `e` is the least exponent. -/
theorem quanta_eq (f : Fmt) {e q : Nat} (he : e = 0 ∨ 2 ^ f.frac ≤ q) (hq : q < 2 * 2 ^ f.frac) :
    quanta f (e * 2 ^ f.frac + q) = q * 2 ^ e := by
  have hpos := Nat.two_pow_pos f.frac
  rcases Nat.lt_or_ge q (2 ^ f.frac) with hlow | hhigh
  · obtain rfl : e = 0 := by omega
    rw [quanta, zero_mul, zero_add, if_pos (Nat.div_eq_of_lt hlow), Nat.mod_eq_of_lt hlow, pow_zero, mul_one]
  · obtain ⟨r, rfl⟩ := Nat.exists_eq_add_of_le hhigh
    have hr : r < 2 ^ f.frac := by omega
    have hm : e * 2 ^ f.frac + (2 ^ f.frac + r) = (e + 1) * 2 ^ f.frac + r := by ring
    have hdiv : ((e + 1) * 2 ^ f.frac + r) / 2 ^ f.frac = e + 1 := by
      rw [Nat.mul_comm, Nat.mul_add_div hpos, Nat.div_eq_of_lt hr, add_zero]
    have hmod : ((e + 1) * 2 ^ f.frac + r) % 2 ^ f.frac = r := by rw [Nat.mul_add_mod', Nat.mod_eq_of_lt hr]
    rw [hm, quanta, hdiv, hmod, if_neg (Nat.succ_ne_zero e), Nat.add_sub_cancel]

/-- One unit more, also where that is the first pattern of the next exponent. -/
theorem quanta_succ_eq (f : Fmt) {e q : Nat} (he : e = 0 ∨ 2 ^ f.frac ≤ q) (hq : q < 2 * 2 ^ f.frac) :
    quanta f (e * 2 ^ f.frac + q + 1) = (q + 1) * 2 ^ e := by
  rcases Nat.lt_or_ge (q + 1) (2 * 2 ^ f.frac) with hlt | hge
  · exact quanta_eq f (by omega) hlt
  · have hq' : q + 1 = 2 * 2 ^ f.frac := by omega
    have hm : e * 2 ^ f.frac + q + 1 = (e + 1) * 2 ^ f.frac + 2 ^ f.frac := by rw [add_assoc, hq']; ring
    rw [hm, quanta_eq f (.inr le_rfl) (by have := Nat.two_pow_pos f.frac; omega), hq']
    ring

/-- Every magnitude pattern is of that form. -/
theorem exists_eq_exponent_add (f : Fmt) (m : Nat) :
    ∃ e q, m = e * 2 ^ f.frac + q ∧ (e = 0 ∨ 2 ^ f.frac ≤ q) ∧ q < 2 * 2 ^ f.frac := by
  have hpos := Nat.two_pow_pos f.frac
  have hmod := Nat.mod_lt m hpos
  have hdiv := Nat.div_add_mod' m (2 ^ f.frac)
  rcases Nat.eq_zero_or_pos (m / 2 ^ f.frac) with h0 | hexp
  · refine ⟨0, m % 2 ^ f.frac, ?_, .inl rfl, by omega⟩
    rw [h0] at hdiv
    exact hdiv.symm
  · obtain ⟨e, he⟩ := Nat.exists_eq_succ_of_ne_zero hexp.ne'
    refine ⟨e, 2 ^ f.frac + m % 2 ^ f.frac, ?_, by omega, by omega⟩
    rw [he, Nat.succ_mul] at hdiv
    omega

theorem quanta_strictMono (f : Fmt) : StrictMono (quanta f) := by
  refine strictMono_nat_of_lt_succ fun m => ?_
  obtain ⟨e, q, rfl, he, hq⟩ := exists_eq_exponent_add f m
  rw [quanta_eq f he hq, quanta_succ_eq f he hq]
  exact Nat.mul_lt_mul_of_pos_right (Nat.lt_succ_self q) (by positivity)

theorem quanta_mul_lt (f : Fmt) {a b : Nat} (k : Nat) (h : a < b) : quanta f a * 2 ^ k < quanta f b * 2 ^ k :=
  Nat.mul_lt_mul_of_pos_right (quanta_strictMono f h) (Nat.two_pow_pos k)

theorem quanta_mul_le (f : Fmt) {a b : Nat} (k : Nat) (h : a ≤ b) : quanta f a * 2 ^ k ≤ quanta f b * 2 ^ k :=
  Nat.mul_le_mul_right _ ((quanta_strictMono f).monotone h)

@[simp] theorem quanta_zero (f : Fmt) : quanta f 0 = 0 := by simpa using quanta_eq f (e := 0) (q := 0) (.inl rfl) (by positivity)

theorem quanta_eq_zero_iff (f : Fmt) {m : Nat} : quanta f m = 0 ↔ m = 0 := by
  rw [← quanta_zero f, (quanta_strictMono f).injective.eq_iff, quanta_zero]

/-! ## Rounding a magnitude (40_lane_ops.md R69) -/

/-- The pattern nearest to `m / 2^k` quanta, with no largest value: what `roundMag` cuts off at infinity. -/
def roundPattern (f : Fmt) (m k : Nat) : Nat :=
  (m.log2 - (f.frac + k)) * 2 ^ f.frac + roundShift m (k + (m.log2 - (f.frac + k)))

theorem roundMag_eq_min (f : Fmt) (m k : Nat) : roundMag f m k = min (roundPattern f m k) (infMag f) := rfl

/-- The leading bits that the precision keeps fill it, or the exponent is the least one. -/
theorem leading_bits_bounds (f : Fmt) (m k : Nat) :
    let e := m.log2 - (f.frac + k)
    (e = 0 ∨ 2 ^ f.frac ≤ m / 2 ^ (k + e)) ∧ m / 2 ^ (k + e) < 2 * 2 ^ f.frac := by
  intro e
  have hlt : m < 2 ^ (m.log2 + 1) := Nat.lt_log2_self
  refine ⟨?_, ?_⟩
  · rcases Nat.eq_zero_or_pos e with h0 | hpos
    · exact .inl h0
    · have hm : m ≠ 0 := by
        rintro rfl
        simp [e] at hpos
      refine .inr ((Nat.le_div_iff_mul_le (by positivity)).2 ?_)
      rw [← pow_add, show f.frac + (k + e) = m.log2 by omega]
      exact Nat.log2_self_le hm
  · rw [Nat.div_lt_iff_lt_mul (by positivity), ← pow_succ', ← pow_add]
    exact hlt.trans_le (Nat.pow_le_pow_right two_pos (by omega))

/-- Rounding stands above the pattern `c` exactly if the value is above the midpoint of `c` and the next pattern, or is that midpoint
and `c` is odd. -/
theorem lt_roundPattern_iff {f : Fmt} (hf : IsFormat f) (m k c : Nat) :
    c < roundPattern f m k ↔ (quanta f c + quanta f (c + 1)) * 2 ^ k < 2 * m ∨
      ((quanta f c + quanta f (c + 1)) * 2 ^ k = 2 * m ∧ c % 2 = 1) := by
  obtain ⟨he, hq⟩ := leading_bits_bounds f m k
  rw [roundPattern, roundShift]
  generalize m.log2 - (f.frac + k) = e at he hq ⊢
  set q := m / 2 ^ (k + e) with hqdef
  set r := m % 2 ^ (k + e) with hrdef
  have hr : r < 2 ^ (k + e) := Nat.mod_lt _ (by positivity)
  have hm : m = q * 2 ^ (k + e) + r := (Nat.div_add_mod' m _).symm
  have hfloor : quanta f (e * 2 ^ f.frac + q) * 2 ^ k = q * 2 ^ (k + e) := by
    rw [quanta_eq f he hq]; ring
  have hnext : quanta f (e * 2 ^ f.frac + q + 1) * 2 ^ k = (q + 1) * 2 ^ (k + e) := by
    rw [quanta_succ_eq f he hq]; ring
  have heven : (e * 2 ^ f.frac + q) % 2 = q % 2 := by
    rw [hf.two_pow_frac, mul_left_comm, Nat.mul_add_mod]
  rw [add_mul]
  rw [Nat.succ_mul] at hnext
  rcases lt_trichotomy c (e * 2 ^ f.frac + q) with hc | rfl | hc
  · have hlow := quanta_mul_lt f k hc
    have hhigh := quanta_mul_le f k (show c + 1 ≤ e * 2 ^ f.frac + q from hc)
    exact iff_of_true (by split <;> omega) (.inl (by omega))
  · rw [hfloor, hnext, heven]
    split <;> omega
  · have hlow := quanta_mul_le f k (show e * 2 ^ f.frac + q + 1 ≤ c from hc)
    have hhigh := quanta_mul_lt f k (show e * 2 ^ f.frac + q + 1 < c + 1 by omega)
    exact iff_of_false (by split <;> omega) (by omega)

/-- An exact value is its own rounding. -/
theorem roundPattern_exact {f : Fmt} (hf : IsFormat f) {m k c : Nat} (h : quanta f c * 2 ^ k = m) : roundPattern f m k = c := by
  refine eq_of_forall_lt_iff fun a => ?_
  rw [lt_roundPattern_iff hf, add_mul, ← h]
  rcases Nat.lt_or_ge a c with hlt | hge
  · have hlow := quanta_mul_lt f k hlt
    have hhigh := quanta_mul_le f k (show a + 1 ≤ c from hlt)
    exact iff_of_true (.inl (by omega)) hlt
  · have hlow := quanta_mul_le f k hge
    have hhigh := quanta_mul_lt f k (show c < a + 1 by omega)
    exact iff_of_false (by omega) (by omega)

theorem roundMag_exact {f : Fmt} (hf : IsFormat f) {m k c : Nat} (hc : c ≤ infMag f) (h : quanta f c * 2 ^ k = m) :
    roundMag f m k = c := by
  rw [roundMag_eq_min, roundPattern_exact hf h, min_eq_left hc]

theorem roundMag_zero {f : Fmt} (hf : IsFormat f) (k : Nat) : roundMag f 0 k = 0 :=
  roundMag_exact hf (Nat.zero_le _) (by rw [quanta_zero, zero_mul])

/-- Only the value `m / 2^k` counts, not how it is written. -/
theorem roundMag_mul_two_pow {f : Fmt} (hf : IsFormat f) (m k j : Nat) : roundMag f (m * 2 ^ j) (k + j) = roundMag f m k := by
  have hpattern : roundPattern f (m * 2 ^ j) (k + j) = roundPattern f m k := by
    refine eq_of_forall_lt_iff fun a => ?_
    rw [lt_roundPattern_iff hf, lt_roundPattern_iff hf, pow_add, ← mul_assoc, ← mul_assoc,
      Nat.mul_lt_mul_right (by positivity), Nat.mul_left_inj (by positivity)]
  rw [roundMag_eq_min, hpattern, roundMag_eq_min]

/-- The rounding is nearest among all patterns, and even where another one is as near. -/
theorem roundPattern_nearest {f : Fmt} (hf : IsFormat f) (m k c : Nat) :
    ((quanta f (roundPattern f m k) * 2 ^ k : Nat) - (m : Int)).natAbs ≤ ((quanta f c * 2 ^ k : Nat) - (m : Int)).natAbs ∧
    (c ≠ roundPattern f m k →
      ((quanta f c * 2 ^ k : Nat) - (m : Int)).natAbs = ((quanta f (roundPattern f m k) * 2 ^ k : Nat) - (m : Int)).natAbs →
      roundPattern f m k % 2 = 0) := by
  have hspec := lt_roundPattern_iff hf m k
  simp only [add_mul] at hspec
  generalize roundPattern f m k = r at hspec ⊢
  rcases lt_trichotomy c r with hc | rfl | hc
  · obtain ⟨p, rfl⟩ := Nat.exists_eq_succ_of_ne_zero (Nat.ne_of_gt (Nat.zero_lt_of_lt hc))
    have hmid := (hspec p).1 (Nat.lt_succ_self p)
    have hle := quanta_mul_le f k (show c ≤ p by omega)
    have hlt := quanta_mul_lt f k hc
    simp only [Nat.succ_eq_add_one] at *
    omega
  · exact ⟨le_rfl, fun hne => absurd rfl hne⟩
  · have hmid := mt (hspec r).2 (Nat.lt_irrefl r)
    have hle := quanta_mul_le f k (show r + 1 ≤ c from hc)
    have hlt := quanta_mul_lt f k hc
    omega

/-! ## The overflow bound -/

/-- The magnitude below infinity is the largest finite one; its fraction is all ones. -/
theorem infMag_pred_eq {f : Fmt} (hf : IsFormat f) :
    infMag f = (2 * 2 ^ (f.width - f.frac - 2) - 3) * 2 ^ f.frac + (2 * 2 ^ f.frac - 1) + 1 := by
  have hexp := hf.two_le_exponents
  have hpos := Nat.two_pow_pos f.frac
  have hsplit : (2 * 2 ^ (f.width - f.frac - 2) - 1) * 2 ^ f.frac =
      (2 * 2 ^ (f.width - f.frac - 2) - 3) * 2 ^ f.frac + 2 * 2 ^ f.frac := by
    rw [← add_mul]
    congr 1
    omega
  rw [hf.infMag_eq, hsplit]
  omega

/-- The overflow bound is twice the midpoint of the largest finite value and the next pattern's. -/
theorem overflowBound_eq {f : Fmt} (hf : IsFormat f) :
    overflowBound f = quanta f (infMag f - 1) + quanta f (infMag f - 1 + 1) := by
  have hfrac := hf.two_pow_frac
  have hhalf := Nat.two_pow_pos (f.frac - 1)
  have hinf := infMag_pred_eq hf
  generalize 2 * 2 ^ (f.width - f.frac - 2) - 3 = e at hinf
  have hlast : infMag f - 1 = e * 2 ^ f.frac + (2 * 2 ^ f.frac - 1) := by omega
  have hprev : infMag f - 2 = e * 2 ^ f.frac + (2 * 2 ^ f.frac - 2) := by omega
  rw [overflowBound, hlast, hprev, quanta_succ_eq f (by omega) (by omega), quanta_eq f (by omega) (by omega),
    quanta_eq f (by omega) (by omega), ← Nat.sub_mul, two_mul, add_assoc, ← add_mul, ← add_mul, ← add_mul]
  congr 1
  omega

theorem infMag_le_roundPattern_iff {f : Fmt} (hf : IsFormat f) (m k : Nat) :
    infMag f ≤ roundPattern f m k ↔ overflowBound f * 2 ^ k ≤ 2 * m := by
  have hpos := hf.infMag_pos
  have hodd : (infMag f - 1) % 2 = 1 := by
    have heven : infMag f % 2 = 0 := by rw [hf.infMag_eq, hf.two_pow_frac, mul_left_comm, Nat.mul_mod_right]
    omega
  have hpred : infMag f ≤ roundPattern f m k ↔ infMag f - 1 < roundPattern f m k := by omega
  rw [hpred, lt_roundPattern_iff hf, overflowBound_eq hf, le_iff_lt_or_eq]
  simp only [hodd, and_true]

theorem overflowBound_pos {f : Fmt} (hf : IsFormat f) : 0 < overflowBound f := by
  have := quanta_strictMono f (Nat.lt_add_one (infMag f - 1))
  rw [overflowBound_eq hf]
  omega

/-! ## Values with a sign -/

theorem signedQuanta_mul_two_pow (f : Fmt) (s : Bool) (m k : Nat) :
    signedQuanta f s m * 2 ^ k = if s then -((quanta f m * 2 ^ k : Nat) : Int) else ((quanta f m * 2 ^ k : Nat) : Int) := by
  cases s <;> simp [signedQuanta]

theorem natAbs_signedQuanta (f : Fmt) (s : Bool) (m : Nat) : (signedQuanta f s m).natAbs = quanta f m := by
  cases s <;> simp [signedQuanta]

/-- Away from zero the sign bit is the sign of the value. -/
theorem isNeg_iff_value_neg (f : Fmt) {x : BitVec f.width} (hx : value f x ≠ 0) : isNeg f x = true ↔ value f x < 0 := by
  rw [value, signedQuanta] at hx ⊢
  split at hx <;> rename_i h <;> simp only [h, if_true, if_false, true_iff, false_iff, Bool.false_eq_true] <;> omega

/-- The exclusive-or of the sign bits is the sign of a product that is not zero (R74). -/
theorem xor_isNeg_iff_mul_neg (f : Fmt) {x y : BitVec f.width} (h : value f x * value f y ≠ 0) :
    (isNeg f x ^^ isNeg f y) = true ↔ value f x * value f y < 0 := by
  obtain ⟨hx, hy⟩ := mul_ne_zero_iff.1 h
  rw [bne_iff_ne, ne_eq, Bool.eq_iff_iff, isNeg_iff_value_neg f hx, isNeg_iff_value_neg f hy, Int.mul_neg_iff]
  omega

theorem value_packMag {f : Fmt} (hf : IsFormat f) (s : Bool) {m : Nat} (hm : m < signUnit f) :
    value f (packMag f s m) = signedQuanta f s m := by
  rw [value, isNeg_packMag hf s hm, magOf_packMag hf s hm]

/-- No sign brings a magnitude nearer to `z` than it is to `|z|`. -/
theorem natAbs_sub_natAbs_le (f : Fmt) (s : Bool) (m k : Nat) (z : Int) :
    ((quanta f m * 2 ^ k : Nat) - (z.natAbs : Int)).natAbs ≤ (signedQuanta f s m * 2 ^ k - z).natAbs := by
  rw [signedQuanta_mul_two_pow]
  split <;> omega

/-- With the sign of `z` a magnitude is as near to `z` as it is to `|z|`. -/
theorem natAbs_signedQuanta_sub (f : Fmt) {s : Bool} (m k : Nat) {z : Int} (hs : z ≠ 0 → (s = true ↔ z < 0)) :
    (signedQuanta f s m * 2 ^ k - z).natAbs = ((quanta f m * 2 ^ k : Nat) - (z.natAbs : Int)).natAbs := by
  rw [signedQuanta_mul_two_pow]
  cases s
  · have hz : 0 ≤ z := by simp at hs; omega
    simp only [Bool.false_eq_true, if_false]
    omega
  · have hz : z ≤ 0 := by simp at hs; omega
    simp only [if_true]
    omega

/-- Only for zeros are the two signs of a magnitude as near to a number. -/
theorem eq_zero_of_signs_alike {f : Fmt} {s t : Bool} {m k : Nat} {z : Int} (hst : s ≠ t)
    (h : (signedQuanta f s m * 2 ^ k - z).natAbs = (signedQuanta f t m * 2 ^ k - z).natAbs) : m = 0 ∨ z = 0 := by
  rw [signedQuanta_mul_two_pow, signedQuanta_mul_two_pow] at h
  have hzero : quanta f m * 2 ^ k = 0 ∨ z = 0 := by
    cases s <;> cases t <;> simp only [ne_eq, not_true_eq_false, Bool.false_eq_true, if_true, if_false] at hst h <;> omega
  simpa [quanta_eq_zero_iff] using hzero

/-- A pattern of the sign of `z` whose magnitude is the rounding of `|z| / 2^k` is `z / 2^k` rounded once. -/
theorem roundedTo_packMag_roundMag {f : Fmt} (hf : IsFormat f) {z : Int} (k : Nat) {s : Bool}
    (hs : z ≠ 0 → (s = true ↔ z < 0)) : RoundedTo f z k (packMag f s (roundMag f z.natAbs k)) := by
  have hle : roundMag f z.natAbs k ≤ infMag f := min_le_right _ _
  have hlt : roundMag f z.natAbs k < signUnit f := hle.trans_lt hf.infMag_lt_signUnit
  have hinf : isInf f (packMag f s (roundMag f z.natAbs k)) = true ↔ overflowBound f * 2 ^ k ≤ 2 * z.natAbs := by
    rw [isInf_iff, magOf_packMag hf s hlt, roundMag_eq_min, min_eq_right_iff, infMag_le_roundPattern_iff hf]
  have hfin : Finite f (packMag f s (roundMag f z.natAbs k)) → roundMag f z.natAbs k = roundPattern f z.natAbs k := by
    intro h
    rw [Reference.Finite, magOf_packMag hf s hlt] at h
    exact (min_choice _ _).resolve_right h.ne
  refine ⟨?_, hinf, fun h => ?_, fun h c _ => ?_, fun h => ?_⟩
  · rw [isNan, magOf_packMag hf s hlt, decide_eq_false (not_lt.2 hle)]
  · have hpos : 0 < overflowBound f * 2 ^ k := Nat.mul_pos (overflowBound_pos hf) (Nat.two_pow_pos k)
    have hbound := hinf.1 h
    rw [isNeg_packMag hf s hlt]
    exact hs (by omega)
  · rw [value_packMag hf s hlt, natAbs_signedQuanta_sub f _ k hs, hfin h]
    exact (roundPattern_nearest hf _ k _).1.trans (natAbs_sub_natAbs_le f _ _ k z)
  · rintro ⟨c, -, hne, htie⟩
    have heven : roundMag f z.natAbs k % 2 = 0 := by
      rw [value_packMag hf s hlt] at hne htie
      by_cases hc : magOf f c = roundMag f z.natAbs k
      · have hzero : roundMag f z.natAbs k = 0 ∨ z = 0 := by
          rw [value, hc] at hne htie
          exact eq_zero_of_signs_alike (fun heq => hne (by rw [heq])) htie
        rcases hzero with h0 | rfl
        · rw [h0]
        · rw [Int.natAbs_zero, roundMag_zero hf]
      · rw [natAbs_signedQuanta_sub f _ k hs, hfin h] at htie
        rw [hfin h] at hc ⊢
        obtain ⟨hnear, hparity⟩ := roundPattern_nearest hf z.natAbs k (magOf f c)
        exact hparity hc (le_antisymm ((natAbs_sub_natAbs_le f _ _ k z).trans_eq htie) hnear)
    rw [toNat_packMag hf s hlt, hf.signUnit_eq, mul_assoc]
    split <;> omega

theorem natAbs_value (f : Fmt) (x : BitVec f.width) : (value f x).natAbs = quanta f (magOf f x) := natAbs_signedQuanta f _ _

theorem roundMag_lt_signUnit {f : Fmt} (hf : IsFormat f) (m k : Nat) : roundMag f m k < signUnit f :=
  (min_le_right _ _).trans_lt hf.infMag_lt_signUnit

theorem isNeg_packMag_roundMag {f : Fmt} (hf : IsFormat f) (s : Bool) (m k : Nat) :
    isNeg f (packMag f s (roundMag f m k)) = s := isNeg_packMag hf s (roundMag_lt_signUnit hf m k)

/-! ## The operations on finite operands -/

/-- The product of finite values: the rounding of the exact product, and the exclusive-or of the signs (R74). -/
theorem mulF_of_finite {f : Fmt} (d : Word64) {a b : BitVec f.width} (ha : Finite f a) (hb : Finite f b) :
    mulF f d a b = packMag f (isNeg f a ^^ isNeg f b)
    (roundMag f (value f a * value f b).natAbs (quantumExp f)) := by
  rw [mulF, isNan_eq_false_of_finite ha, isNan_eq_false_of_finite hb, isInf_eq_false_of_finite ha,
    isInf_eq_false_of_finite hb, Int.natAbs_mul,
    natAbs_value, natAbs_value]
  simp

section
variable {f : Fmt} (hf : IsFormat f) (d : Word64) {a b : BitVec f.width} (ha : Finite f a) (hb : Finite f b)
include hf

theorem value_negate (x : BitVec f.width) : value f (negate f x) = -value f x := by
  rw [value, isNeg_negate hf, magOf_negate hf, value]
  cases isNeg f x <;> simp [signedQuanta]

include ha hb

/-- The sum of finite values: the rounding of the exact sum with its sign, and for an exact zero the sign of R80. -/
theorem addF_of_finite : addF f d a b = packMag f
    (if value f a + value f b = 0 then isNeg f a && isNeg f b else decide (value f a + value f b < 0))
    (roundMag f (value f a + value f b).natAbs 0) := by
  rw [addF_eq_sumOf d (isNan_eq_false_of_finite ha) (isNan_eq_false_of_finite hb), sumOf, if_neg (ne_of_lt ha),
    if_neg (ne_of_lt hb)]
  show (if value f a + value f b = 0 then _ else _) = _
  split
  · rename_i hz
    rw [hz, Int.natAbs_zero, roundMag_zero hf]
  · rfl

theorem roundedTo_addF : RoundedTo f (value f a + value f b) 0 (addF f d a b) := by
  rw [addF_of_finite hf d ha hb]
  refine roundedTo_packMag_roundMag hf 0 fun hz => ?_
  rw [if_neg hz, decide_eq_true_iff]

theorem roundedTo_subF : RoundedTo f (value f a - value f b) 0 (subF f d a b) := by
  rw [subF_eq_addF_negate d hf, sub_eq_add_neg, ← value_negate hf]
  exact roundedTo_addF hf d ha (finite_negate hf hb)

theorem roundedTo_mulF : RoundedTo f (value f a * value f b) (quantumExp f) (mulF f d a b) := by
  rw [mulF_of_finite d ha hb]
  exact roundedTo_packMag_roundMag hf _ (xor_isNeg_iff_mul_neg f)

theorem isNeg_mulF : isNeg f (mulF f d a b) = (isNeg f a ^^ isNeg f b) := by
  rw [mulF_of_finite d ha hb, isNeg_packMag_roundMag hf]

end

/-- The quanta of binary64 are `2^(1074 - 149)` to one of binary32 (R75). -/
theorem narrowF_of_finite {c : Word64} (hc : Finite binary64 c) : narrowF binary32 c =
    packMag binary32 (isNeg binary64 c) (roundMag binary32 (value binary64 c).natAbs (1074 - 149)) := by
  have hexp : quantumExp binary64 - quantumExp binary32 = 1074 - 149 := by decide
  rw [narrowF, isNan_eq_false_of_finite hc, isInf_eq_false_of_finite hc, natAbs_value, hexp]
  simp

/-- Settles O38: each operation packs the rounding of the exact result's magnitude with its sign. -/
theorem arithmeticRoundsCorrectly : Obligations.ArithmeticRoundsCorrectly := by
  refine ⟨fun f hmem d a b ha hb => ?_, fun c hc => ?_⟩
  · have hf := isFormat_of_mem hmem
    refine ⟨roundedTo_addF hf d ha hb, roundedTo_subF hf d ha hb, roundedTo_mulF hf d ha hb, ?_⟩
    rw [isNeg_mulF hf d ha hb, bne_iff_ne]
  · rw [narrowF_of_finite hc]
    exact ⟨roundedTo_packMag_roundMag isFormat_binary32 _ fun hz => isNeg_iff_value_neg binary64 hz,
      isNeg_packMag_roundMag isFormat_binary32 _ _ _⟩

end Sys2Proof.Machine
end

section
/-! The table of special cases and the exact constants: zeros, infinities, cancelling sums, and products by plus or minus a power of two
(40_lane_ops.md R75, R80, R82; O39, O40, O43). -/

namespace Sys2Proof.Machine

open Sys2Proof.Reference

/-! ## Values without rounding -/

theorem value_eq_zero_iff {f : Fmt} {x : BitVec f.width} : value f x = 0 ↔ isZero f x = true := by
  rw [← Int.natAbs_eq_zero, natAbs_value, quanta_eq_zero_iff, isZero_iff]

section
variable {f : Fmt} (hf : IsFormat f)
include hf

theorem value_packMag_zero (s : Bool) : value f (packMag f s 0) = 0 := by
  rw [← Int.natAbs_eq_zero, natAbs_value, magOf_packMag_zero hf, quanta_zero]

/-- A finite value that is not zero rounds to its own pattern. -/
theorem packMag_roundMag_value {x : BitVec f.width} (hx : Finite f x) (h0 : value f x ≠ 0) :
    packMag f (decide (value f x < 0)) (roundMag f (value f x).natAbs 0) = x := by
  have hsign : decide (value f x < 0) = isNeg f x := by
    rw [Bool.eq_iff_iff, decide_eq_true_iff, isNeg_iff_value_neg f h0]
  rw [hsign, natAbs_value, roundMag_exact hf (c := magOf f x) (le_of_lt hx) (by rw [pow_zero, mul_one]), packMag_isNeg_magOf hf]

end

/-! ## Sums (R80) -/

theorem sumOf_comm (f : Fmt) (d : Word64) (na nb : Bool) (ma mb : Nat) : sumOf f d na ma nb mb = sumOf f d nb mb na ma := by
  by_cases ha : ma = infMag f <;> by_cases hb : mb = infMag f <;> simp only [sumOf, ha, hb, if_true, if_false, true_and, false_and]
  · cases na <;> cases nb <;> rfl
  · rw [add_comm, Bool.and_comm]

theorem addF_comm (f : Fmt) (d : Word64) (a b : BitVec f.width) : addF f d a b = addF f d b a := by
  rw [addF, Bool.or_comm, sumOf_comm, ← addF]

section
variable {f : Fmt} (hf : IsFormat f) (d : Word64)
include hf

/-- An exact zero sum is `+0` unless both operands are negative. -/
theorem addF_of_cancel {a b : BitVec f.width} (ha : Finite f a) (hb : Finite f b) (h : value f a + value f b = 0) :
    addF f d a b = packMag f (isNeg f a && isNeg f b) 0 := by
  rw [addF_of_finite hf d ha hb, h, if_pos rfl, Int.natAbs_zero, roundMag_zero hf]

theorem addF_zeros (s t : Bool) : addF f d (packMag f s 0) (packMag f t 0) = packMag f (s && t) 0 := by
  rw [addF_of_cancel hf d (finite_packMag_zero hf s) (finite_packMag_zero hf t)
    (by rw [value_packMag_zero hf, value_packMag_zero hf, add_zero]), isNeg_packMag_zero hf, isNeg_packMag_zero hf]

theorem subF_zeros (s t : Bool) : subF f d (packMag f s 0) (packMag f t 0) = packMag f (s && !t) 0 := by
  rw [subF_eq_addF_negate d hf, negate_packMag_zero hf, addF_zeros hf]

theorem addF_negate {x : BitVec f.width} (hx : Finite f x) : addF f d x (negate f x) = packMag f false 0 := by
  rw [addF_of_cancel hf d hx (finite_negate hf hx) (by rw [value_negate hf, add_neg_cancel]), isNeg_negate hf, Bool.and_not_self]

theorem addF_packMag_zero {x : BitVec f.width} (hx : Finite f x) (h0 : value f x ≠ 0) (s : Bool) :
    addF f d x (packMag f s 0) = x := by
  rw [addF_of_finite hf d hx (finite_packMag_zero hf s), value_packMag_zero hf, add_zero, if_neg h0,
    packMag_roundMag_value hf hx h0]

theorem addF_infOf (s : Bool) {y : BitVec f.width} (hy : Finite f y ∨ y = infOf f s) : addF f d (infOf f s) y = infOf f s := by
  have hnan : isNan f y = false := hy.elim isNan_eq_false_of_finite fun h => h ▸ isNan_eq_false_of_isInf (isInf_infOf hf s)
  rw [addF_of_isInf d (isInf_infOf hf s) hnan fun hinf => ?_, isNeg_infOf hf]
  rcases hy with hy | rfl
  · simp [isInf_eq_false_of_finite hy] at hinf
  · rfl

end

/-- Settles O39: subtraction is the addition of the negated operand and addition commutes, so the rows of `+` give every row. -/
theorem specialSums : Obligations.SpecialSums := by
  intro f hmem d pz nz
  have hf := isFormat_of_mem hmem
  refine ⟨addF_zeros hf d _ _, addF_zeros hf d _ _, addF_zeros hf d _ _, addF_zeros hf d _ _,
    subF_zeros hf d _ _, subF_zeros hf d _ _, subF_zeros hf d _ _, subF_zeros hf d _ _,
    fun x hx h0 => ⟨addF_negate hf d hx, ?_, ?_, fun s => ?_⟩, fun s y hy => ⟨addF_infOf hf d s hy, ?_⟩,
    fun s y hy => ?_, fun s => ?_⟩
  · rw [addF_comm, addF_negate hf d hx]
  · rw [subF_eq_addF_negate d hf, addF_negate hf d hx]
  · have hx0 : value f x ≠ 0 := by simp [value_eq_zero_iff, h0]
    have hnx0 : value f (negate f x) ≠ 0 := by rwa [value_negate hf, neg_ne_zero]
    rw [subF_eq_addF_negate d hf, subF_eq_addF_negate d hf, negate_packMag_zero hf, addF_comm f d (packMag f s 0),
      addF_comm f d (packMag f s 0)]
    exact ⟨addF_packMag_zero hf d hx hx0 s, addF_packMag_zero hf d hx hx0 s, addF_packMag_zero hf d hx hx0 _,
      addF_packMag_zero hf d (finite_negate hf hx) hnx0 s⟩
  · rw [addF_comm, addF_infOf hf d s hy]
  · rw [subF_eq_addF_negate d hf, subF_eq_addF_negate d hf, negate_infOf hf, addF_comm f d y]
    refine ⟨addF_infOf hf d s ?_, addF_infOf hf d (!s) hy⟩
    rcases hy with hy | rfl
    · exact .inl (finite_negate hf hy)
    · exact .inr (by rw [negate_infOf hf, Bool.not_not])
  · have hsign : isNeg f (infOf f s) ≠ isNeg f (infOf f (!s)) := by simp [isNeg_infOf hf]
    rw [addF_of_opposite_inf d (isInf_infOf hf s) (isInf_infOf hf _) hsign,
      subF_of_equal_inf d hf (isInf_infOf hf s) (isInf_infOf hf s) rfl]
    exact ⟨isQuietNan_quietNan hf d, isQuietNan_quietNan hf d⟩

/-! ## Powers of two (R80, R82) -/

section
variable {f : Fmt} (hf : IsFormat f)
include hf

theorem pow2Neg_mag_lt (e : Nat) : (2 ^ (f.width - f.frac - 2) - 1 - e) * 2 ^ f.frac < infMag f := by
  have := Nat.one_le_two_pow (n := f.width - f.frac - 2)
  rw [hf.infMag_eq]
  exact Nat.mul_lt_mul_of_pos_right (by omega) (by positivity)

theorem magOf_pow2Neg (e : Nat) : magOf f (pow2Neg f e) = (2 ^ (f.width - f.frac - 2) - 1 - e) * 2 ^ f.frac :=
  magOf_packMag hf false ((pow2Neg_mag_lt hf e).trans hf.infMag_lt_signUnit)

theorem isNeg_pow2Neg (e : Nat) : isNeg f (pow2Neg f e) = false :=
  isNeg_packMag hf false ((pow2Neg_mag_lt hf e).trans hf.infMag_lt_signUnit)

theorem finite_pow2Neg (e : Nat) : Finite f (pow2Neg f e) := by
  rw [Reference.Finite, magOf_pow2Neg hf]
  exact pow2Neg_mag_lt hf e

/-- `2^(-e)` is that many quanta: the exponent of a quantum is `-quantumExp`. -/
theorem quanta_pow2Neg {e : Nat} (he : e + 2 ≤ 2 ^ (f.width - f.frac - 2)) :
    quanta f (magOf f (pow2Neg f e)) = 2 ^ (quantumExp f - e) := by
  have hm : (2 ^ (f.width - f.frac - 2) - 1 - e) * 2 ^ f.frac =
      (2 ^ (f.width - f.frac - 2) - 2 - e) * 2 ^ f.frac + 2 ^ f.frac := by
    rw [← Nat.succ_mul]
    congr 1
    omega
  rw [magOf_pow2Neg hf, hm, quanta_eq f (.inr le_rfl) (by have := Nat.two_pow_pos f.frac; omega), ← pow_add, quantumExp]
  congr 1
  omega

/-- The product by plus or minus `2^(-e)` is the other operand's magnitude over `2^e`, rounded once. -/
theorem mulF_of_pow2Neg (d : Word64) {e : Nat} (he : e + 2 ≤ 2 ^ (f.width - f.frac - 2)) {x y : BitVec f.width}
    (hx : magOf f x = magOf f (pow2Neg f e)) (hy : Finite f y) :
    mulF f d x y = packMag f (isNeg f x ^^ isNeg f y) (roundMag f (value f y).natAbs e) := by
  have hxfin : Finite f x := by
    rw [Reference.Finite, hx]
    exact finite_pow2Neg hf e
  obtain ⟨j, hj⟩ : ∃ j, quantumExp f = e + j := Nat.exists_eq_add_of_le (by rw [quantumExp]; omega)
  rw [mulF_of_finite d hxfin hy, Int.natAbs_mul, natAbs_value f x, hx, quanta_pow2Neg hf he, mul_comm, hj,
    Nat.add_sub_cancel_left, roundMag_mul_two_pow hf]

theorem mulF_of_isInf (d : Word64) {a b : BitVec f.width} (ha : isInf f a = true) (hb : isNan f b = false)
    (h0 : isZero f b = false) : mulF f d a b = infOf f (isNeg f a ^^ isNeg f b) := by
  rw [mulF, isNan_eq_false_of_isInf ha, hb, ha, isZero_eq_false_of_isInf hf ha, h0, Bool.true_or]
  simp

/-- The product by plus or minus 1 is exact: the other operand with the exclusive-or of the signs. -/
theorem mulF_of_one (d : Word64) {x y : BitVec f.width} (hx : magOf f x = magOf f (pow2Neg f 0)) (hy : isNan f y = false) :
    mulF f d x y = packMag f (isNeg f x ^^ isNeg f y) (magOf f y) := by
  have hexp : 0 + 2 ≤ 2 ^ (f.width - f.frac - 2) := hf.two_le_exponents
  rcases finite_or_isInf hy with hfin | hinf
  · rw [mulF_of_pow2Neg hf d hexp hx hfin, natAbs_value,
      roundMag_exact hf (c := magOf f y) (le_of_lt hfin) (by rw [pow_zero, mul_one])]
  · have hone : isZero f x = false := by
      have := Nat.mul_pos (show 0 < 2 ^ (f.width - f.frac - 2) - 1 - 0 by omega) (Nat.two_pow_pos f.frac)
      exact decide_eq_false (by rw [hx, magOf_pow2Neg hf]; omega)
    have hnan : isNan f x = false := decide_eq_false (by rw [hx]; exact not_lt.2 (le_of_lt (finite_pow2Neg hf 0)))
    rw [mulF_comm, mulF_of_isInf hf d hinf hnan hone, Bool.xor_comm, infOf, isInf_iff.1 hinf]

/-- Halving `e` times is exact where the result is not below the least normal number. -/
theorem quanta_roundMag_of_normal {e m : Nat} (hm : m ≤ infMag f) (h : 2 ^ f.frac * 2 ^ e ≤ quanta f m) :
    quanta f (roundMag f (quanta f m) e) * 2 ^ e = quanta f m := by
  obtain ⟨i, q, rfl, hi, hq⟩ := exists_eq_exponent_add f m
  rw [quanta_eq f hi hq] at h ⊢
  have hei : e ≤ i := by
    have hlt : 2 ^ f.frac * 2 ^ e < 2 ^ f.frac * 2 ^ (i + 1) := by
      calc 2 ^ f.frac * 2 ^ e ≤ q * 2 ^ i := h
        _ < 2 * 2 ^ f.frac * 2 ^ i := Nat.mul_lt_mul_of_pos_right hq (by positivity)
        _ = 2 ^ f.frac * 2 ^ (i + 1) := by ring
    exact Nat.lt_succ_iff.1 ((Nat.pow_lt_pow_iff_right one_lt_two).1 (Nat.lt_of_mul_lt_mul_left hlt))
  obtain ⟨j, rfl⟩ := Nat.exists_eq_add_of_le' hei
  have hvalue : quanta f (j * 2 ^ f.frac + q) * 2 ^ e = q * 2 ^ (j + e) := by
    rw [quanta_eq f (by omega) hq, mul_assoc, ← pow_add]
  have hle : j * 2 ^ f.frac + q ≤ infMag f :=
    (Nat.add_le_add_right (Nat.mul_le_mul_right _ (Nat.le_add_right j e)) q).trans hm
  rw [roundMag_exact hf hle hvalue, hvalue]

end

/-! ## Products (R80) -/

section
variable {f : Fmt} (hf : IsFormat f) (d : Word64)
include hf

theorem mulF_packMag_zero (s : Bool) {y : BitVec f.width} (hy : Finite f y) :
    mulF f d (packMag f s 0) y = packMag f (s ^^ isNeg f y) 0 := by
  rw [mulF_of_finite d (finite_packMag_zero hf s) hy, value_packMag_zero hf, zero_mul, Int.natAbs_zero, roundMag_zero hf,
    isNeg_packMag_zero hf]

theorem mulF_infOf (s : Bool) {y : BitVec f.width} (hy : isNan f y = false) (h0 : isZero f y = false) :
    mulF f d (infOf f s) y = infOf f (s ^^ isNeg f y) := by
  rw [mulF_of_isInf hf d (isInf_infOf hf s) hy h0, isNeg_infOf hf]

theorem mulF_one {y : BitVec f.width} (hy : isNan f y = false) : mulF f d (pow2Neg f 0) y = y := by
  rw [mulF_of_one hf d rfl hy, isNeg_pow2Neg hf, Bool.false_xor, packMag_isNeg_magOf hf]

theorem mulF_negate_one {y : BitVec f.width} (hy : isNan f y = false) : mulF f d (negate f (pow2Neg f 0)) y = negate f y := by
  rw [mulF_of_one hf d (magOf_negate hf _) hy, isNeg_negate hf, isNeg_pow2Neg hf, Bool.not_false, Bool.true_xor, negate]

theorem mulF_pow2Neg {e : Nat} (he : e + 2 ≤ 2 ^ (f.width - f.frac - 2)) {y : BitVec f.width} (hy : Finite f y) :
    RoundedTo f (value f y) e (mulF f d (pow2Neg f e) y) ∧
    (2 ^ f.frac * 2 ^ e ≤ (value f y).natAbs → value f (mulF f d (pow2Neg f e) y) * 2 ^ e = value f y) := by
  rw [mulF_of_pow2Neg hf d he rfl hy, isNeg_pow2Neg hf, Bool.false_xor]
  refine ⟨roundedTo_packMag_roundMag hf e (isNeg_iff_value_neg f), fun h => ?_⟩
  rw [natAbs_value] at h ⊢
  rw [value_packMag hf _ (roundMag_lt_signUnit hf _ _), signedQuanta_mul_two_pow,
    quanta_roundMag_of_normal hf (le_of_lt hy) h, value, signedQuanta]

end

/-- Settles O40: multiplication commutes, so one order of the operands gives the other. -/
theorem specialProducts : Obligations.SpecialProducts := by
  intro f hmem d
  have hf := isFormat_of_mem hmem
  refine ⟨fun s y hy => ⟨mulF_packMag_zero hf d s hy, ?_⟩, fun s y hy h0 => ⟨mulF_infOf hf d s hy h0, ?_⟩,
    fun s t => ⟨?_, ?_⟩, fun y hy => ⟨mulF_one hf d hy, ?_, mulF_negate_one hf d hy, ?_⟩, fun e y he hy p hp => ?_⟩
  · rw [mulF_comm, mulF_packMag_zero hf d s hy, Bool.xor_comm]
  · rw [mulF_comm, mulF_infOf hf d s hy h0, Bool.xor_comm]
  · rw [mulF_of_isZero_of_isInf d (isZero_packMag_zero hf s) (isInf_infOf hf t)]
    exact isQuietNan_quietNan hf d
  · rw [mulF_comm, mulF_of_isZero_of_isInf d (isZero_packMag_zero hf s) (isInf_infOf hf t)]
    exact isQuietNan_quietNan hf d
  · rw [mulF_comm, mulF_one hf d hy]
  · rw [mulF_comm, mulF_negate_one hf d hy]
  · rw [mulF_comm d (a := y), List.mem_pair, or_self] at hp
    subst hp
    exact mulF_pow2Neg hf d he.le hy

/-! ## Broadcasts and constants (R75, R82) -/

theorem narrowF_negate {c : Word64} (hc : Finite binary64 c) :
    narrowF binary32 (negate binary64 c) = negate binary32 (narrowF binary32 c) := by
  rw [narrowF_of_finite hc, narrowF_of_finite (finite_negate isFormat_binary64 hc), natAbs_value, natAbs_value,
    magOf_negate isFormat_binary64, isNeg_negate isFormat_binary64, negate, isNeg_packMag_roundMag isFormat_binary32,
    magOf_packMag isFormat_binary32 _ (roundMag_lt_signUnit isFormat_binary32 _ _)]

/-- A power of two that is a normal number of both formats keeps its value. -/
theorem narrowF_pow2Neg {e : Nat} (he : e ≤ 126) : narrowF binary32 (pow2Neg binary64 e) = pow2Neg binary32 e := by
  have hexact : quanta binary32 (magOf binary32 (pow2Neg binary32 e)) * 2 ^ (1074 - 149) =
      quanta binary64 (magOf binary64 (pow2Neg binary64 e)) := by
    rw [quanta_pow2Neg isFormat_binary32 (by norm_num; omega), quanta_pow2Neg isFormat_binary64 (by norm_num; omega), ← pow_add]
    congr 1
    norm_num [quantumExp]
    omega
  rw [narrowF_of_finite (finite_pow2Neg isFormat_binary64 e), natAbs_value,
    roundMag_exact isFormat_binary32 (le_of_lt (finite_pow2Neg isFormat_binary32 e)) hexact, isNeg_pow2Neg isFormat_binary64,
    ← isNeg_pow2Neg isFormat_binary32 e, packMag_isNeg_magOf isFormat_binary32]

theorem roundTo_pow2Neg (lt : LaneType) {e : Nat} (he : e ≤ 126) : roundTo lt (pow2Neg binary64 e) = pow2Neg (laneFmt lt) e := by
  cases lt with
  | f32 => exact narrowF_pow2Neg he
  | f64 => rfl
  | v4f32 => exact narrowF_pow2Neg he

theorem roundTo_negate (lt : LaneType) {c : Word64} (hc : Finite binary64 c) :
    roundTo lt (negate binary64 c) = negate (laneFmt lt) (roundTo lt c) := by
  cases lt with
  | f32 => exact narrowF_negate hc
  | f64 => rfl
  | v4f32 => exact narrowF_negate hc

theorem const64Half_eq : const64Half = pow2Neg binary64 1 := by decide

theorem const64MinusOne_eq : const64MinusOne = negate binary64 (pow2Neg binary64 0) := by decide

theorem const64Pow_eq (e : Nat) : const64Pow e = pow2Neg binary64 e := by simp [const64Pow, pow2Neg, packMag]

/-- Settles O43: the constants are the patterns of powers of two, which both formats hold exactly. -/
theorem constantsAreExact : Obligations.ConstantsAreExact := by
  refine ⟨fun v => ⟨rfl, rfl, rfl⟩, fun lt => ?_, fun lt => ?_, fun e he lt => ?_⟩
  · rw [bcast, const64Half_eq, roundTo_pow2Neg lt (by norm_num)]
  · rw [bcast, const64MinusOne_eq, roundTo_negate lt (finite_pow2Neg isFormat_binary64 0), roundTo_pow2Neg lt (Nat.zero_le _)]
  · have := List.mem_range.1 he
    rw [bcast, const64Pow_eq, roundTo_pow2Neg lt (by omega)]

end Sys2Proof.Machine
end

section
/-! The bit-reversal command: the loads and stores of complex points as operations on memory, the reversal of an index as an involution,
and the pass as a sequence of disjoint exchanges (spec/41_bitrev.md R85 to R88; O21, O22). -/

namespace Sys2Proof.Machine

open Sys2Proof.Reference

/-! ## Complex points in data memory (20_memory.md R32) -/

/-- The point at elements `i`, `i + 1` of the buffer at `base`: the value `loadPoint` gives. -/
def pointAt (lt : LaneType) (m : Memory) (base i : Nat) : Point lt := (element lt m base i, element lt m base (i + 1))

/-- Memory after `storePoint`. -/
def putPoint (lt : LaneType) (m : Memory) (base i : Nat) (z : Point lt) : Memory :=
  putElement lt (putElement lt m base i z.1) base (i + 1) z.2

@[simp] theorem run_loadPoint (lt : LaneType) (c : Ctx) (i : Nat) (w : Work) :
    loadPoint lt c i w = (pointAt lt w.mem c.base i, w) := rfl

@[simp] theorem run_storePoint (lt : LaneType) (c : Ctx) (i : Nat) (z : Point lt) (w : Work) :
    storePoint lt c i z w = ((), { w with mem := putPoint lt w.mem c.base i z }) := rfl

section
variable {lt : LaneType} (m : Memory) (base : Nat)

theorem pointAt_putPoint_same {i : Nat} {z : Point lt} (hre : z.1.length = laneCount lt) (him : z.2.length = laneCount lt) :
    pointAt lt (putPoint lt m base i z) base i = z := by
  rw [pointAt, putPoint, element_putElement_same _ _ _ him, element_putElement_other _ _ _ (by omega),
    element_putElement_same _ _ _ hre]

theorem pointAt_putPoint_other {i k : Nat} (z : Point lt) (h : k + 1 < i ∨ i + 1 < k) :
    pointAt lt (putPoint lt m base i z) base k = pointAt lt m base k := by
  simp only [pointAt, putPoint]
  rw [element_putElement_other _ _ _ (by omega), element_putElement_other _ _ _ (by omega),
    element_putElement_other _ _ _ (by omega), element_putElement_other _ _ _ (by omega)]

/-- A point copied from elsewhere in memory has whole lane groups, so a load gives it back. -/
theorem pointAt_putPoint_pointAt (m' : Memory) (i j : Nat) :
    pointAt lt (putPoint lt m base i (pointAt lt m' base j)) base i = pointAt lt m' base j :=
  pointAt_putPoint_same m base (length_element _ _ _ _) (length_element _ _ _ _)

end

/-- The exchange of pairs `p` and `q` permutes the pairs by their transposition (R86). -/
theorem pointAt_swapPairs (lt : LaneType) (c : Ctx) (p q r : Nat) (w : Work) :
    pointAt lt (swapPairs lt c (2 * p) (2 * q) w).2.mem c.base (2 * r) =
      pointAt lt w.mem c.base (2 * Equiv.swap p q r) := by
  simp only [swapPairs, run_bind, run_loadPoint, run_storePoint]
  rcases eq_or_ne r q with rfl | hq
  · rw [pointAt_putPoint_pointAt, Equiv.swap_apply_right]
  rw [pointAt_putPoint_other _ _ _ (by omega)]
  rcases eq_or_ne r p with rfl | hp
  · rw [pointAt_putPoint_pointAt, Equiv.swap_apply_left]
  · rw [pointAt_putPoint_other _ _ _ (by omega), Equiv.swap_apply_of_ne_of_ne hp hq]

/-! ## The reversal is an involution (R88) -/

/-- The digit above the lowest `b` becomes the lowest one. -/
theorem rev_add_top (b : Nat) {q d : Nat} (hq : q < 2 ^ b) (hd : d < 2) : rev (b + 1) (q + d * 2 ^ b) = 2 * rev b q + d := by
  induction b generalizing q with
  | zero => simp only [rev]; omega
  | succ b ih =>
    have hpow : d * 2 ^ (b + 1) = 2 * (d * 2 ^ b) := by ring
    have hmod : (q + d * 2 ^ (b + 1)) % 2 = q % 2 := by omega
    have hdiv : (q + d * 2 ^ (b + 1)) / 2 = q / 2 + d * 2 ^ b := by omega
    rw [rev, hmod, hdiv, ih (by omega), rev]
    ring

theorem rev_rev {b p : Nat} (hp : p < 2 ^ b) : rev b (rev b p) = p := by
  induction b generalizing p with
  | zero => simp only [rev]; omega
  | succ b ih =>
    have hsplit : rev (b + 1) p = rev b (p / 2) + p % 2 * 2 ^ b := Nat.add_comm _ _
    rw [hsplit, rev_add_top b (rev_lt b _) (Nat.mod_lt _ two_pos), ih (by omega), Nat.div_add_mod]

theorem rev_eq_iff {b p t : Nat} (hp : p < 2 ^ b) (ht : t < 2 ^ b) : rev b p = t ↔ p = rev b t :=
  ⟨fun h => by rw [← h, rev_rev hp], fun h => by rw [h, rev_rev ht]⟩

/-! ## The pairs after the first `t` turns of the pass (R86, R87) -/

/-- The pair that stands at pair `p` once turns `0` to `t - 1` are done: its reversal if either of the two has had its turn. -/
def revUpTo (b t p : Nat) : Nat := if p < t ∨ rev b p < t then rev b p else p

theorem revUpTo_zero (b p : Nat) : revUpTo b 0 p = p := by simp [revUpTo]

theorem revUpTo_all {b p : Nat} (hp : p < 2 ^ b) : revUpTo b (2 ^ b) p = rev b p := if_pos (.inl hp)

/-- A turn leaves every pair but its own and the reversal of that. -/
theorem revUpTo_succ_of_ne {b t p : Nat} (hp : p ≠ t) (hr : rev b p ≠ t) : revUpTo b (t + 1) p = revUpTo b t p := by
  simp only [revUpTo, Nat.lt_succ_iff_lt_or_eq, hp, hr, or_false]

/-- A turn with `J > I` exchanges the two pairs. -/
theorem revUpTo_swap {b t p : Nat} (ht : t < 2 ^ b) (hp : p < 2 ^ b) (hlt : t < rev b t) :
    revUpTo b t (Equiv.swap t (rev b t) p) = revUpTo b (t + 1) p := by
  rcases eq_or_ne p t with rfl | hpt
  · rw [Equiv.swap_apply_left, revUpTo, rev_rev ht, if_neg (by omega), revUpTo, if_pos (by omega)]
  rcases eq_or_ne p (rev b t) with rfl | hpr
  · rw [Equiv.swap_apply_right, revUpTo, if_neg (by omega), revUpTo, rev_rev ht, if_pos (by omega)]
  · rw [Equiv.swap_apply_of_ne_of_ne hpt hpr, revUpTo_succ_of_ne hpt (mt (rev_eq_iff hp ht).1 hpr)]

/-- A turn with `J <= I` has nothing left to do: the exchange was made before, or the pair is its own reversal. -/
theorem revUpTo_succ_of_le {b t p : Nat} (ht : t < 2 ^ b) (hp : p < 2 ^ b) (hle : rev b t ≤ t) :
    revUpTo b (t + 1) p = revUpTo b t p := by
  rcases eq_or_ne p t with rfl | hpt
  · simp only [revUpTo]
    split_ifs <;> omega
  rcases eq_or_ne (rev b p) t with hpr | hpr
  · have hp' := (rev_eq_iff hp ht).1 hpr
    simp only [revUpTo]
    split_ifs <;> omega
  · exact revUpTo_succ_of_ne hpt hpr

/-! ## The pass -/

/-- The pass is `2^b` turns, turn `t` with `I = 2t` and `J = 2*rev_b(t)`: what every turn keeps holds at the end (R86). -/
theorem bitrevPass_induct {lt : LaneType} {c : Ctx} {b : Nat} (hn : c.n = 2 ^ (b + 1)) (P : Nat → Work → Prop) {w : Work}
    (h0 : P 0 w) (hs : ∀ t w', t < 2 ^ b → P t w' → P (t + 1) (swapIfBelow lt c (2 * t) (2 * rev b t) w').2) :
    P (2 ^ b) (bitrevPass lt c w).2 := by
  have hpow : 2 ^ (b + 1) = 2 * 2 ^ b := by ring
  have hhalf : c.n / 2 = 2 ^ b := by omega
  have hturns : b ≤ c.n := by
    have := Nat.lt_two_pow_self (n := b)
    omega
  have hcount : (countUp 0 2 c.n).length = 2 ^ b := by
    rw [countUp, List.length_range']
    omega
  have key := forFold_induct (fun pre j w' => P pre.length w' ∧ (pre.length < 2 ^ b → j = 2 * rev b pre.length))
    (fun j i => do swapIfBelow lt c i j; pure (revCarry c.n (c.n / 2) j)) (countUp 0 2 c.n) ?_ 0 w
    ⟨h0, fun _ => by rw [List.length_nil, rev_zero]⟩
  · rw [← hcount]
    exact key.1
  · rintro pre i post j w' hx ⟨hw', hj⟩
    have hi : i = 2 * pre.length := by simpa using countUp_split hx
    have hlt : pre.length < 2 ^ b := by
      rw [← hcount, hx, List.length_append, List.length_cons]
      omega
    have hj := hj hlt
    rw [List.length_append, List.length_singleton]
    subst hi hj
    refine ⟨hs _ _ hlt hw', fun hnext => ?_⟩
    rw [run_bind, run_pure, hhalf]
    exact revCarry_rev b _ _ hturns hnext

/-- The pass leaves at pair `p` the pair that stood at `rev_b(p)` (R87). -/
theorem pointAt_bitrevPass {lt : LaneType} {c : Ctx} {b p : Nat} (hn : c.n = 2 ^ (b + 1)) (w : Work) (hp : p < 2 ^ b) :
    pointAt lt (bitrevPass lt c w).2.mem c.base (2 * p) = pointAt lt w.mem c.base (2 * rev b p) := by
  rw [← revUpTo_all hp]
  refine bitrevPass_induct hn (fun t w' => ∀ p < 2 ^ b,
    pointAt lt w'.mem c.base (2 * p) = pointAt lt w.mem c.base (2 * revUpTo b t p)) ?_ ?_ p hp
  · intro p _
    rw [revUpTo_zero]
  · intro t w' ht hw' p hp
    rcases Nat.lt_or_ge t (rev b t) with hlt | hle
    · have hin : Equiv.swap t (rev b t) p < 2 ^ b := by
        rw [Equiv.swap_apply_def]
        have := rev_lt b t
        split_ifs <;> assumption
      rw [swapIfBelow, if_pos (by omega), pointAt_swapPairs, hw' _ hin, revUpTo_swap ht hp hlt]
    · rw [swapIfBelow, if_neg (by omega), run_pure, hw' p hp, revUpTo_succ_of_le ht hp hle]

/-- Settles O21: the command's memory is that of its one pass. -/
theorem bitrevPermutesPairs : Obligations.BitrevPermutesPairs := by
  intro lt s b hs hn
  refine ⟨_, exec_accepted (i := .bitrev lt) hs, hs.commandFrame (i := .bitrev lt), fun p hp => ?_⟩
  exact Prod.ext_iff.1 (pointAt_bitrevPass (c := ctxOf s) hn { workOf s with phase := .bitrev } hp)

/-! ## Equal elements are equal bytes -/

/-- The bits of the lanes cut from a number are its low bits (40_lane_ops.md R70, R71). -/
theorem bitsOf_lanesOf (lt : LaneType) (n bits : Nat) : bitsOf lt (lanesOf lt n bits) = bits % 2 ^ ((laneFmt lt).width * n) := by
  induction n generalizing bits with
  | zero => rw [lanesOf, bitsOf, mul_zero, pow_zero, Nat.mod_one]
  | succ n ih => rw [lanesOf, bitsOf, ih, BitVec.toNat_ofNat, Nat.mul_succ, Nat.add_comm (_ * n), pow_add, Nat.mod_mul]

theorem memRead_eq_of_element_eq {lt : LaneType} {m m' : Memory} {base k : Nat} (h : element lt m base k = element lt m' base k) :
    memRead m (elemAddr lt base k) (esize lt) = memRead m' (elemAddr lt base k) (esize lt) := by
  have hbits := congrArg (bitsOf lt) h
  rwa [element, element, bitsOf_lanesOf, bitsOf_lanesOf, two_pow_lanes, Nat.mod_eq_of_lt (memRead_lt _ _ _),
    Nat.mod_eq_of_lt (memRead_lt _ _ _)] at hbits

/-- Two memories with equal elements `0` to `n - 1` have equal bytes in the footprint (20_memory.md R32, R35). -/
theorem memByte_eq_of_elements_eq {lt : LaneType} {m m' : Memory} {base n a : Nat}
    (h : ∀ k < n, element lt m base k = element lt m' base k) (hlo : base ≤ a) (hhi : a < base + n * esize lt) :
    memByte m a = memByte m' a := by
  have hpos : 0 < esize lt := by cases lt <;> decide
  have hsplit := Nat.div_add_mod' (a - base) (esize lt)
  have hmod := Nat.mod_lt (a - base) hpos
  have hk : (a - base) / esize lt < n := (Nat.div_lt_iff_lt_mul hpos).2 (by omega)
  refine memByte_of_memRead_eq (memRead_eq_of_element_eq (h _ hk)) ?_ ?_ <;> rw [elemAddr] <;> omega

/-- Settles O22: the second command finds the pairs reversed and reverses them again, and equal elements are equal bytes. -/
theorem bitrevTwiceRestores : Obligations.BitrevTwiceRestores := by
  intro lt s hs
  obtain ⟨b, hn⟩ := hs.exists_size
  obtain ⟨t, hst, ft, ht⟩ := bitrevPermutesPairs lt s b hs hn
  have hacc : Accepts lt t := hs.congr ft.params ft.n ft.base (by rw [faulted, ft.status]; exact hs.live)
  obtain ⟨u, htu, fu, hu⟩ := bitrevPermutesPairs lt t b hacc (by rw [ft.n, hn])
  have hpair : ∀ p < 2 ^ b, elem lt u (2 * p) = elem lt s (2 * p) ∧ elem lt u (2 * p + 1) = elem lt s (2 * p + 1) := by
    intro p hp
    obtain ⟨hre, him⟩ := ht _ (rev_lt b p)
    rw [rev_rev hp] at hre him
    exact ⟨(hu p hp).1.trans hre, (hu p hp).2.trans him⟩
  have helem : ∀ k < s.n.toNat, element lt u.mem s.base.toNat k = element lt s.mem s.base.toNat k := by
    intro k hk
    rw [hn, pow_succ] at hk
    simp only [elem, fu.base, ft.base] at hpair
    obtain ⟨p, rfl | rfl⟩ := Nat.even_or_odd' k
    · exact (hpair p (by omega)).1
    · exact (hpair p (by omega)).2
  refine ⟨t, u, hst, htu, fun a => ?_⟩
  by_cases ha : InFootprint lt s a
  · exact memByte_eq_of_elements_eq helem ha.1 ha.2
  · have ha' : ¬ InFootprint lt t a := by rwa [InFootprint, ft.base, ft.n]
    rw [fu.outside a ha', ft.outside a ha]

end Sys2Proof.Machine
end

section
/-! The ROM of sines: a row whose sine lies between the midpoints to its two neighbours is nearest to it, and partial sums of the sine's
alternating series, taken at a rational below and above the angle, place every sine between those midpoints (42_twiddle.md R92; O50, O51). -/

namespace Sys2Proof.Machine

open Sys2Proof.Reference

/-! ## The nearest pattern to a real number -/

section
variable {f : Fmt} {x : BitVec f.width}

theorem value_eq_quanta (hx : isNeg f x = false) : value f x = quanta f (magOf f x) := by
  rw [value, hx]
  rfl

theorem value_le_quanta (x : BitVec f.width) : value f x ≤ quanta f (magOf f x) :=
  natAbs_value f x ▸ Int.le_natAbs

/-- No value lies strictly between the values of neighbouring magnitudes. -/
theorem value_cases {m : Nat} (hm : 0 < m) (c : BitVec f.width) :
    value f c ≤ quanta f (m - 1) ∨ value f c = quanta f m ∨ (quanta f (m + 1) : Int) ≤ value f c := by
  cases hneg : isNeg f c with
  | true =>
    have hsign : value f c = -quanta f (magOf f c) := by rw [value, hneg]; rfl
    exact .inl (by omega)
  | false =>
    rw [value_eq_quanta hneg]
    have hmono := (quanta_strictMono f).monotone
    rcases lt_trichotomy (magOf f c) m with h | h | h
    · exact .inl (Int.ofNat_le.2 (hmono (by omega)))
    · exact .inr (.inl (by rw [h]))
    · exact .inr (.inr (Int.ofNat_le.2 (hmono h)))

/-- A positive pattern is nearest to every real number between the midpoints to the patterns below and above. -/
theorem abs_value_sub_le_of_midpoints {r : ℝ} (hx : isNeg f x = false) (hm : 0 < magOf f x)
    (hlow : ((quanta f (magOf f x - 1) + quanta f (magOf f x) : Nat) : ℝ) ≤ 2 * r)
    (hhigh : 2 * r ≤ ((quanta f (magOf f x) + quanta f (magOf f x + 1) : Nat) : ℝ)) (c : BitVec f.width) :
    |(value f x : ℝ) - r| ≤ |(value f c : ℝ) - r| := by
  have hprev : (quanta f (magOf f x - 1) : ℝ) < quanta f (magOf f x) := by
    exact_mod_cast quanta_strictMono f (Nat.sub_lt hm Nat.one_pos)
  have hnext : (quanta f (magOf f x) : ℝ) < quanta f (magOf f x + 1) := by
    exact_mod_cast quanta_strictMono f (Nat.lt_add_one _)
  push_cast at hlow hhigh
  rw [value_eq_quanta hx, Int.cast_natCast]
  rcases value_cases hm c with h | h | h
  · have hc : (value f c : ℝ) ≤ quanta f (magOf f x - 1) := by exact_mod_cast h
    rw [abs_sub_comm (value f c : ℝ), abs_of_nonneg (by linarith : 0 ≤ r - value f c)]
    exact abs_le.2 ⟨by linarith, by linarith⟩
  · rw [h, Int.cast_natCast]
  · have hc : (quanta f (magOf f x + 1) : ℝ) ≤ value f c := by exact_mod_cast h
    rw [abs_of_nonneg (by linarith : 0 ≤ (value f c : ℝ) - r)]
    exact abs_le.2 ⟨by linarith, by linarith⟩

end

/-! ## Rational bounds of a sine -/

/-- The sum of the first `n` terms of the sine's power series. -/
def sinePartialSum {K : Type} [Field K] (x : K) (n : Nat) : K :=
  ∑ i ∈ Finset.range n, (-1) ^ i * (x ^ (2 * i + 1) / (2 * i + 1).factorial)

theorem cast_sinePartialSum (x : ℚ) (n : Nat) : ((sinePartialSum x n : ℚ) : ℝ) = sinePartialSum (x : ℝ) n := by
  simp [sinePartialSum]

section
variable {x : ℝ} (h0 : 0 ≤ x) (h1 : x ≤ 1)
include h0 h1

/-- Up to 1 the terms of the series fall. -/
theorem antitone_sine_terms : Antitone fun i : Nat => x ^ (2 * i + 1) / ((2 * i + 1).factorial : ℝ) := by
  intro i j hij
  have hpow : x ^ (2 * j + 1) ≤ x ^ (2 * i + 1) := pow_le_pow_of_le_one h0 h1 (by omega)
  have hfac : ((2 * i + 1).factorial : ℝ) ≤ (2 * j + 1).factorial := by exact_mod_cast Nat.factorial_le (by omega)
  exact div_le_div₀ (by positivity) hpow (by positivity) hfac

theorem sinePartialSum_even_le_sin (k : Nat) : sinePartialSum x (2 * k) ≤ Real.sin x :=
  (antitone_sine_terms h0 h1).alternating_series_le_tendsto
    (by simpa only [mul_div_assoc] using (Real.hasSum_sin x).tendsto_sum_nat) k

theorem sin_le_sinePartialSum_odd (k : Nat) : Real.sin x ≤ sinePartialSum x (2 * k + 1) :=
  (antitone_sine_terms h0 h1).tendsto_le_alternating_series
    (by simpa only [mul_div_assoc] using (Real.hasSum_sin x).tendsto_sum_nat) k

end

/-- A rational number just below pi. -/
def piLow : ℚ := 314159265358979323846 / 10 ^ 20

/-- A rational number just above pi. -/
def piHigh : ℚ := 314159265358979323847 / 10 ^ 20

theorem piLow_lt_pi : (piLow : ℝ) < Real.pi := by
  have := Real.pi_gt_d20
  norm_num [piLow] at this ⊢
  exact this

theorem pi_lt_piHigh : Real.pi < piHigh := by
  have := Real.pi_lt_d20
  norm_num [piHigh] at this ⊢
  exact this

/-- From `k = 2` on the angle `pi / 2^k` is below 1, where the bounds by partial sums hold. -/
theorem piHigh_div_le_one {k : Nat} (hk : 2 ≤ k) : (piHigh : ℝ) / 2 ^ k ≤ 1 := by
  have hpow : (2 : ℝ) ^ 2 ≤ 2 ^ k := pow_le_pow_right₀ one_le_two hk
  have hpi : (piHigh : ℝ) ≤ 2 ^ 2 := by norm_num [piHigh]
  exact (div_le_one (by positivity)).2 (hpi.trans hpow)

theorem sinePartialSum_le_sin_angle {k : Nat} (hk : 2 ≤ k) (n : Nat) :
    ((sinePartialSum (piLow / 2 ^ k) (2 * n) : ℚ) : ℝ) ≤ Real.sin (Real.pi / 2 ^ k) := by
  have hpos : (0 : ℝ) ≤ piLow := by norm_num [piLow]
  have hpow : (2 : ℝ) ^ 1 ≤ 2 ^ k := pow_le_pow_right₀ one_le_two (by omega)
  have hle : (piLow : ℝ) / 2 ^ k ≤ Real.pi / 2 ^ k := by gcongr; exact piLow_lt_pi.le
  have hone : Real.pi / 2 ^ k ≤ 1 := le_trans (by gcongr; exact pi_lt_piHigh.le) (piHigh_div_le_one hk)
  rw [cast_sinePartialSum]
  push_cast
  refine (sinePartialSum_even_le_sin (by positivity) (hle.trans hone) n).trans
    (Real.sin_le_sin_of_le_of_le_pi_div_two ?_ (by linarith [Real.pi_gt_three]) hle)
  have : (0 : ℝ) ≤ piLow / 2 ^ k := by positivity
  linarith [Real.pi_pos]

theorem sin_angle_le_sinePartialSum {k : Nat} (hk : 2 ≤ k) (n : Nat) :
    Real.sin (Real.pi / 2 ^ k) ≤ ((sinePartialSum (piHigh / 2 ^ k) (2 * n + 1) : ℚ) : ℝ) := by
  have hangle : (0 : ℝ) ≤ Real.pi / 2 ^ k := by positivity
  have hle : Real.pi / 2 ^ k ≤ (piHigh : ℝ) / 2 ^ k := by gcongr; exact pi_lt_piHigh.le
  have hone := piHigh_div_le_one hk
  rw [cast_sinePartialSum]
  push_cast
  exact (Real.sin_le_sin_of_le_of_le_pi_div_two (by linarith [Real.pi_pos]) (by linarith [Real.pi_gt_three]) hle).trans
    (sin_le_sinePartialSum_odd (hangle.trans hle) hone n)

/-! ## The rows of the ROM (42_twiddle.md R92) -/

/-- A scaled bound of the rational is one of the real number above it. -/
theorem natCast_le_of_ratCast_le {n e : Nat} {a : ℚ} {r : ℝ} (h : (n : ℚ) ≤ 2 * (a * 2 ^ e)) (har : (a : ℝ) ≤ r) :
    (n : ℝ) ≤ 2 * (r * 2 ^ e) := by
  have hcast : (n : ℝ) ≤ 2 * (a * 2 ^ e) := by exact_mod_cast h
  exact hcast.trans (by gcongr)

theorem le_natCast_of_le_ratCast {n e : Nat} {a : ℚ} {r : ℝ} (h : 2 * (a * 2 ^ e) ≤ (n : ℚ)) (hra : r ≤ (a : ℝ)) :
    2 * (r * 2 ^ e) ≤ (n : ℝ) := by
  have hcast : 2 * ((a : ℝ) * 2 ^ e) ≤ n := by exact_mod_cast h
  exact le_trans (by gcongr) hcast

/-- Every row is `+0` or a positive number up to 1. -/
theorem sine_bounds : ∀ k < 31, isNeg binary64 (sine k) = false ∧ magOf binary64 (sine k) ≤ 1023 * 2 ^ 52 := by decide

theorem finite_sine {k : Nat} (hk : k ≤ 30) : Finite binary64 (sine k) :=
  lt_of_le_of_lt (sine_bounds k (by omega)).2 (by decide)

/-- From `k = 2` on, twenty digits of pi and ten terms of the series place the sine between the midpoints around row `k`. -/
theorem sine_between_midpoints : ∀ k < 31, 2 ≤ k →
    0 < magOf binary64 (sine k) ∧
    ((quanta binary64 (magOf binary64 (sine k) - 1) + quanta binary64 (magOf binary64 (sine k)) : Nat) : ℚ) ≤
      2 * (sinePartialSum (piLow / 2 ^ k) (2 * 5) * 2 ^ 1074) ∧
    2 * (sinePartialSum (piHigh / 2 ^ k) (2 * 5 + 1) * 2 ^ 1074) ≤
      ((quanta binary64 (magOf binary64 (sine k)) + quanta binary64 (magOf binary64 (sine k) + 1) : Nat) : ℚ) := by
  decide +kernel

theorem value_sine_zero : (value binary64 (sine 0) : ℝ) = Real.sin (Real.pi / 2 ^ 0) * 2 ^ 1074 := by
  have hvalue : value binary64 (sine 0) = 0 := by decide
  rw [hvalue, pow_zero, div_one, Real.sin_pi, zero_mul, Int.cast_zero]

theorem value_sine_one : (value binary64 (sine 1) : ℝ) = Real.sin (Real.pi / 2 ^ 1) * 2 ^ 1074 := by
  have hvalue : value binary64 (sine 1) = 2 ^ 1074 := by decide +kernel
  rw [hvalue, pow_one, Real.sin_pi_div_two, one_mul, Int.cast_pow, Int.cast_ofNat]

/-- Settles O50: each row is read off the table. -/
theorem sineRomRows : Obligations.SineRomRows := by
  unfold Obligations.SineRomRows
  decide

/-- Settles O51: rows 0 and 1 are exact, every other sine lies between the midpoints around its row. -/
theorem sineRomIsNearest : Obligations.SineRomIsNearest := by
  intro k hk
  refine ⟨finite_sine hk, fun c _ => ?_⟩
  obtain rfl | rfl | h2 : k = 0 ∨ k = 1 ∨ 2 ≤ k := by omega
  · rw [value_sine_zero, sub_self, abs_zero]
    exact abs_nonneg _
  · rw [value_sine_one, sub_self, abs_zero]
    exact abs_nonneg _
  · obtain ⟨hpos, hlow, hhigh⟩ := sine_between_midpoints k (by omega) h2
    exact abs_value_sub_le_of_midpoints (sine_bounds k (by omega)).1 hpos
      (natCast_le_of_ratCast_le hlow (sinePartialSum_le_sin_angle h2 5))
      (le_natCast_of_le_ratCast hhigh (sin_angle_le_sinePartialSum h2 5)) c

end Sys2Proof.Machine
end

section
/-! The twiddle unit: its operations keep numbers up to a power of two finite and below the next ones, so that no NaN draw matters in it,
doubling is exact, and a product or a sum with a zero loses nothing (42_twiddle.md R91, R93 to R95; O46, O52, O53, O54). -/

namespace Sys2Proof.Machine

open Sys2Proof.Reference

/-! ## Magnitudes up to a power of two (42_twiddle.md R91) -/

theorem infMag_binary64 : infMag binary64 = 2047 * 2 ^ 52 := by decide

theorem quantumExp_binary64 : quantumExp binary64 = 1074 := rfl

/-- The magnitude of a binary64 number is at most `2^j`, whose pattern has the biased exponent `1023 + j`. -/
def AtMostPow2 (j : Nat) (x : Word64) : Prop := magOf binary64 x ≤ (1023 + j) * 2 ^ 52

theorem quanta_pow2 (j : Nat) : quanta binary64 ((1023 + j) * 2 ^ 52) = 2 ^ (1074 + j) := by
  have hm : (1023 + j) * 2 ^ 52 = (1022 + j) * 2 ^ 52 + 2 ^ 52 := by ring
  have hvalue : quanta binary64 ((1022 + j) * 2 ^ 52 + 2 ^ 52) = 2 ^ 52 * 2 ^ (1022 + j) :=
    quanta_eq binary64 (.inr le_rfl) (by decide)
  rw [hm, hvalue, ← pow_add, ← add_assoc]

theorem atMostPow2_iff {j : Nat} {x : Word64} : AtMostPow2 j x ↔ (value binary64 x).natAbs ≤ 2 ^ (1074 + j) := by
  rw [natAbs_value, ← quanta_pow2, (quanta_strictMono binary64).le_iff_le, AtMostPow2]

theorem AtMostPow2.finite {j : Nat} {x : Word64} (h : AtMostPow2 j x) (hj : j ≤ 1023) : Finite binary64 x := by
  rw [AtMostPow2] at h
  rw [Reference.Finite, infMag_binary64]
  omega

theorem AtMostPow2.negate {j : Nat} {x : Word64} (h : AtMostPow2 j x) : AtMostPow2 j (negate binary64 x) := by
  rwa [AtMostPow2, magOf_negate isFormat_binary64]

/-- Rounding does not pass a pattern that the exact value does not pass. -/
theorem roundMag_le {f : Fmt} (hf : IsFormat f) {m k c : Nat} (h : m ≤ quanta f c * 2 ^ k) : roundMag f m k ≤ c := by
  refine (min_le_left _ _).trans (not_lt.1 fun hlt => ?_)
  have hnext := quanta_mul_lt f k (Nat.lt_add_one c)
  rw [← roundPattern, lt_roundPattern_iff hf, add_mul] at hlt
  omega

theorem atMostPow2_packMag_roundMag {j m k : Nat} (s : Bool) (h : m ≤ 2 ^ (1074 + j) * 2 ^ k) :
    AtMostPow2 j (packMag binary64 s (roundMag binary64 m k)) := by
  rw [AtMostPow2, magOf_packMag isFormat_binary64 s (roundMag_lt_signUnit isFormat_binary64 m k)]
  exact roundMag_le isFormat_binary64 (by rwa [quanta_pow2])

theorem AtMostPow2.mono {i j : Nat} {x : Word64} (h : AtMostPow2 i x) (hij : i ≤ j) : AtMostPow2 j x :=
  le_trans h (Nat.mul_le_mul_right _ (by omega))

section
variable (d : Word64) {i j k : Nat} {a b : Word64} (ha : AtMostPow2 i a) (hb : AtMostPow2 j b) (hk : k ≤ 1023)
include ha hb hk

theorem AtMostPow2.mulF (hij : i + j ≤ k) : AtMostPow2 k (mulF binary64 d a b) := by
  rw [mulF_of_finite d (ha.finite (by omega)) (hb.finite (by omega))]
  refine atMostPow2_packMag_roundMag _ ?_
  rw [atMostPow2_iff] at ha hb
  rw [Int.natAbs_mul, quantumExp_binary64]
  calc (value binary64 a).natAbs * (value binary64 b).natAbs ≤ 2 ^ (1074 + i) * 2 ^ (1074 + j) := Nat.mul_le_mul ha hb
    _ = 2 ^ (1074 + (i + j) + 1074) := by rw [← pow_add]; congr 1; omega
    _ ≤ 2 ^ (1074 + k + 1074) := Nat.pow_le_pow_right two_pos (by omega)
    _ = 2 ^ (1074 + k) * 2 ^ 1074 := pow_add ..

theorem AtMostPow2.addF (hi : i < k) (hj : j < k) : AtMostPow2 k (addF binary64 d a b) := by
  rw [addF_of_finite isFormat_binary64 d (ha.finite (by omega)) (hb.finite (by omega))]
  refine atMostPow2_packMag_roundMag _ ?_
  obtain ⟨l, rfl⟩ := Nat.exists_eq_add_one_of_ne_zero (Nat.ne_zero_of_lt hi)
  have ha' := atMostPow2_iff.1 (ha.mono (Nat.le_of_lt_succ hi))
  have hb' := atMostPow2_iff.1 (hb.mono (Nat.le_of_lt_succ hj))
  have hsum := Int.natAbs_add_le (value binary64 a) (value binary64 b)
  rw [pow_zero, mul_one, ← add_assoc, pow_succ]
  omega

theorem AtMostPow2.subF (hi : i < k) (hj : j < k) : AtMostPow2 k (subF binary64 d a b) := by
  rw [subF_eq_addF_negate d isFormat_binary64]
  exact ha.addF d hb.negate hk hi hj

end

/-! ## No NaN draw matters (42_twiddle.md R91) -/

theorem eq_of_laneAlike_of_finite {f : Fmt} {x y : BitVec f.width} (h : LaneAlike f x y) (hy : Finite f y) : x = y :=
  h.resolve_right fun hnan => by simp [isNan_eq_false_of_finite hy] at hnan

section
variable (d : Word64) {a a' b b' : Word64} (ha : LaneAlike binary64 a a') (hb : LaneAlike binary64 b b')
include ha hb

theorem laneAlike_fadd64 : LaneAlike binary64 (fadd64 a b) (addF binary64 d a' b') :=
  (nanOnlyFromDraw_addF isFormat_binary64).laneAlike unitDraw d ha hb

theorem laneAlike_fsub64 : LaneAlike binary64 (fsub64 a b) (subF binary64 d a' b') :=
  (nanOnlyFromDraw_subF isFormat_binary64).laneAlike unitDraw d ha hb

theorem laneAlike_fmul64 : LaneAlike binary64 (fmul64 a b) (mulF binary64 d a' b') :=
  (nanOnlyFromDraw_mulF isFormat_binary64).laneAlike unitDraw d ha hb

end

/-! ## Sign inversion and doubling (42_twiddle.md R91, R93) -/

theorem isNeg_neg64 (x : Word64) : isNeg binary64 (neg64 x) = !isNeg binary64 x := by
  have hmsb : ∀ y : Word64, isNeg binary64 y = y.msb := fun y => (BitVec.msb_eq_decide y).symm
  have hsign : (0x8000000000000000 : Word64).msb = true := by decide
  rw [hmsb, hmsb, neg64, BitVec.msb_xor, hsign, Bool.xor_true]

theorem magOf_neg64 (x : Word64) : magOf binary64 (neg64 x) = magOf binary64 x := by
  rw [magOf, magOf, neg64, BitVec.toNat_xor, signUnit, Nat.xor_mod_two_pow]
  exact Nat.xor_zero _

theorem neg64_eq_negate (x : Word64) : neg64 x = negate binary64 x := by
  rw [negate, ← isNeg_neg64, ← magOf_neg64, packMag_isNeg_magOf isFormat_binary64]

/-- Twice a magnitude is a magnitude: one exponent more, or a fraction shifted where the exponent is the least. -/
theorem exists_quanta_eq_two_mul (f : Fmt) (m : Nat) : ∃ c, quanta f c = 2 * quanta f m := by
  obtain ⟨e, q, rfl, he, hq⟩ := exists_eq_exponent_add f m
  rw [quanta_eq f he hq]
  rcases Nat.lt_or_ge q (2 ^ f.frac) with hlow | hhigh
  · obtain rfl : e = 0 := by omega
    exact ⟨0 * 2 ^ f.frac + 2 * q, by rw [quanta_eq f (.inl rfl) (by omega), pow_zero, mul_one, mul_one]⟩
  · exact ⟨(e + 1) * 2 ^ f.frac + q, by rw [quanta_eq f (.inr hhigh) hq, pow_succ]; ring⟩

theorem magOf_const64Two : magOf binary64 const64Two = (1023 + 1) * 2 ^ 52 := by decide

theorem atMostPow2_const64Two : AtMostPow2 1 const64Two := magOf_const64Two.le

theorem quanta_const64Two : quanta binary64 (magOf binary64 const64Two) = 2 * 2 ^ quantumExp binary64 := by
  rw [magOf_const64Two, quanta_pow2, quantumExp_binary64, pow_succ, mul_comm]

theorem isNeg_const64Two : isNeg binary64 const64Two = false := by decide

/-- The product by 2 is exact where it does not overflow. -/
theorem value_mulF_two (d : Word64) {j : Nat} {y : Word64} (hy : AtMostPow2 j y) (hj : j ≤ 1022) :
    value binary64 (mulF binary64 d const64Two y) = 2 * value binary64 y := by
  obtain ⟨c, hc⟩ := exists_quanta_eq_two_mul binary64 (magOf binary64 y)
  have hcinf : c < infMag binary64 := by
    have hle : quanta binary64 c ≤ quanta binary64 ((1023 + (j + 1)) * 2 ^ 52) := by
      rw [atMostPow2_iff, natAbs_value] at hy
      rw [hc, quanta_pow2, ← add_assoc, pow_succ]
      omega
    have := (quanta_strictMono binary64).le_iff_le.1 hle
    rw [infMag_binary64]
    omega
  have hprod : quanta binary64 c * 2 ^ quantumExp binary64 = (value binary64 const64Two * value binary64 y).natAbs := by
    rw [Int.natAbs_mul, natAbs_value, natAbs_value, quanta_const64Two, hc, Nat.mul_right_comm]
  rw [mulF_of_finite d (atMostPow2_const64Two.finite (by decide)) (hy.finite (by omega)), roundMag_exact isFormat_binary64 hcinf.le hprod,
    isNeg_const64Two, Bool.false_xor,
    value_packMag isFormat_binary64 _ (hcinf.trans isFormat_binary64.infMag_lt_signUnit), value, signedQuanta, signedQuanta, hc]
  split <;> push_cast <;> ring

/-! ## The recurrence (42_twiddle.md R93 to R95) -/

theorem twInit_wpim (q : Nat) : (twInit q).wpim = negate binary64 (sine (q - 1)) := neg64_eq_negate _

section
variable {q : Nat} (hq : q ≤ 30) (d : Word64)
include hq

theorem atMostPow2_sine : AtMostPow2 0 (sine q) := (sine_bounds q (by omega)).2

theorem atMostPow2_sineSquare : AtMostPow2 0 (mulF binary64 d (sine q) (sine q)) :=
  (atMostPow2_sine hq).mulF d (atMostPow2_sine hq) (by decide) (by decide)

theorem atMostPow2_doubledSineSquare :
    AtMostPow2 1 (mulF binary64 d const64Two (mulF binary64 d (sine q) (sine q))) :=
  atMostPow2_const64Two.mulF d (atMostPow2_sineSquare hq d) (by decide) (by decide)

/-- No NaN draw matters in `WPRE`, which is finite. -/
theorem twInit_wpre : (twInit q).wpre = mulF binary64 d const64Two (mulF binary64 d (sine q) (sine q)) :=
  eq_of_laneAlike_of_finite (laneAlike_fmul64 d (.inl rfl) (laneAlike_fmul64 d (.inl rfl) (.inl rfl)))
    ((atMostPow2_doubledSineSquare hq d).finite (by decide))

theorem atMostPow2_twInit_wpre : AtMostPow2 1 (twInit q).wpre := atMostPow2_doubledSineSquare hq unitDraw

theorem finite_twInit_wpim : Finite binary64 (twInit q).wpim := by
  rw [twInit_wpim]
  exact finite_negate isFormat_binary64 (finite_sine (by omega))

end

/-- Settles O52: the model's draw does not matter because the product is finite, and its doubling is exact. -/
theorem twiddleInitFormulas : Obligations.TwiddleInitFormulas := by
  refine ⟨fun q d _ hq => ⟨rfl, rfl, twInit_wpre hq d, ?_, twInit_wpim q⟩, ?_⟩
  · rw [twInit_wpre hq d]
    exact value_mulF_two d (atMostPow2_sineSquare hq d) (by decide)
  · decide +kernel

/-! ## The first advance (42_twiddle.md R94) -/

theorem const64One_eq : const64One = pow2Neg binary64 0 := by decide

section
variable {y : Word64} (hy : Finite binary64 y)
include hy

theorem fmul64_one : fmul64 const64One y = y := by
  rw [const64One_eq]
  exact mulF_one isFormat_binary64 unitDraw (isNan_eq_false_of_finite hy)

theorem fmul64_zero : fmul64 0 y = packMag binary64 (isNeg binary64 y) 0 := by
  rw [← Bool.false_xor (isNeg binary64 y)]
  exact mulF_packMag_zero isFormat_binary64 unitDraw false hy

variable (h0 : isZero binary64 y = false) (s : Bool)
include h0

theorem fadd64_packMag_zero : fadd64 y (packMag binary64 s 0) = y :=
  addF_packMag_zero isFormat_binary64 unitDraw hy (by simp [value_eq_zero_iff, h0]) s

theorem fsub64_packMag_zero : fsub64 y (packMag binary64 s 0) = y := by
  rw [fsub64, subF_eq_addF_negate unitDraw isFormat_binary64, negate_packMag_zero isFormat_binary64]
  exact fadd64_packMag_zero hy h0 (!s)

end

/-- No increment is 1, so the real part after the first advance is no zero. -/
theorem isZero_first_difference : ∀ q < 31, 1 ≤ q → isZero binary64 (fsub64 const64One (twInit q).wpre) = false := by
  decide +kernel

section
variable {q : Nat} (hq : q ≤ 30)
include hq

theorem finite_first_difference : Finite binary64 (fsub64 const64One (twInit q).wpre) :=
  have hone : AtMostPow2 0 const64One := by rw [AtMostPow2]; decide
  have hdiff : AtMostPow2 2 (fsub64 const64One (twInit q).wpre) :=
    hone.subF unitDraw (atMostPow2_twInit_wpre hq) (by decide) (by decide) (by decide)
  hdiff.finite (by decide)

/-- The product of the imaginary part `+0` by the increment is a zero, and subtracting it changes nothing. -/
theorem twAdv_twInit_wre (h1 : 1 ≤ q) : (twAdv (twInit q)).wre = fsub64 const64One (twInit q).wpre := by
  show fsub64 (fsub64 const64One (fmul64 const64One (twInit q).wpre)) (fmul64 0 (twInit q).wpim) = _
  rw [fmul64_one ((atMostPow2_twInit_wpre hq).finite (by decide)), fmul64_zero (finite_twInit_wpim hq),
    fsub64_packMag_zero (finite_first_difference hq) (isZero_first_difference q (by omega) h1)]

/-- What is added to the increment's imaginary part is an exact `+0`. -/
theorem twAdv_twInit_wim (h0 : isZero binary64 (twInit q).wpim = false) : (twAdv (twInit q)).wim = (twInit q).wpim := by
  have hzero : fsub64 0 (fmul64 0 (twInit q).wpre) = packMag binary64 false 0 := by
    rw [fmul64_zero ((atMostPow2_twInit_wpre hq).finite (by decide))]
    exact subF_zeros isFormat_binary64 unitDraw false _
  show fadd64 (fsub64 0 (fmul64 0 (twInit q).wpre)) (fmul64 const64One (twInit q).wpim) = _
  rw [fmul64_one (finite_twInit_wpim hq), hzero, fadd64, addF_comm]
  exact fadd64_packMag_zero (finite_twInit_wpim hq) h0 false

end

/-- Settles O46: multiplying by 1 is exact and adding a zero changes nothing; `q = 1` is one run of the unit. -/
theorem firstTwiddleAdvance : Obligations.FirstTwiddleAdvance := by
  refine fun q h1 hq => ⟨rfl, rfl, twAdv_twInit_wre hq h1, twAdv_twInit_wim hq, ?_⟩
  rintro rfl
  decide +kernel

/-! ## The recurrence on any registers (42_twiddle.md R91, R94, R95) -/

/-- `(x - x*p) - y*q` and `(x - x*p) + y*q` of numbers up to 4 are numbers up to 64. -/
theorem atMostPow2_advance (d : Word64) {x p y q : Word64} (hx : AtMostPow2 2 x) (hp : AtMostPow2 2 p) (hy : AtMostPow2 2 y)
    (hq : AtMostPow2 2 q) :
    AtMostPow2 6 (subF binary64 d (subF binary64 d x (mulF binary64 d x p)) (mulF binary64 d y q)) ∧
    AtMostPow2 6 (addF binary64 d (subF binary64 d x (mulF binary64 d x p)) (mulF binary64 d y q)) := by
  have hprod : AtMostPow2 4 (mulF binary64 d x p) := hx.mulF d hp (by decide) (by decide)
  have hdiff : AtMostPow2 5 (subF binary64 d x (mulF binary64 d x p)) := hx.subF d hprod (by decide) (by decide) (by decide)
  have hother : AtMostPow2 4 (mulF binary64 d y q) := hy.mulF d hq (by decide) (by decide)
  exact ⟨hdiff.subF d hother (by decide) (by decide) (by decide), hdiff.addF d hother (by decide) (by decide) (by decide)⟩

/-- The parts of the square of numbers up to 4 are numbers up to 32. -/
theorem atMostPow2_square (d : Word64) {x y : Word64} (hx : AtMostPow2 2 x) (hy : AtMostPow2 2 y) :
    AtMostPow2 5 (subF binary64 d (mulF binary64 d x x) (mulF binary64 d y y)) ∧
    AtMostPow2 5 (mulF binary64 d const64Two (mulF binary64 d x y)) := by
  have hprod : ∀ {a b}, AtMostPow2 2 a → AtMostPow2 2 b → AtMostPow2 4 (mulF binary64 d a b) := fun ha hb =>
    ha.mulF d hb (by decide) (by decide)
  exact ⟨(hprod hx hx).subF d (hprod hy hy) (by decide) (by decide) (by decide),
    atMostPow2_const64Two.mulF d (hprod hx hy) (by decide) (by decide)⟩

/-- Settles O53: each operation is alike for every draw, and on numbers up to 4 every result is finite, so no draw matters. -/
theorem twiddleUnitFormulas : Obligations.TwiddleUnitFormulas := by
  intro t d re im re2 im2
  have hmul : ∀ x y, LaneAlike binary64 (fmul64 x y) (mulF binary64 d x y) := fun x y => laneAlike_fmul64 d (.inl rfl) (.inl rfl)
  have hdiff : ∀ x p, LaneAlike binary64 (fsub64 x (fmul64 x p)) (subF binary64 d x (mulF binary64 d x p)) := fun x p =>
    laneAlike_fsub64 d (.inl rfl) (hmul x p)
  have hre : LaneAlike binary64 (twAdv t).wre re := laneAlike_fsub64 d (hdiff _ _) (hmul _ _)
  have him : LaneAlike binary64 (twAdv t).wim im := laneAlike_fadd64 d (hdiff _ _) (hmul _ _)
  have hre2 : LaneAlike binary64 (twSqRe t) re2 := laneAlike_fsub64 d (hmul _ _) (hmul _ _)
  have him2 : LaneAlike binary64 (twSqIm t) im2 := laneAlike_fmul64 d (.inl rfl) (hmul _ _)
  refine ⟨rfl, rfl, hre, him, hre2, him2, fun hsmall => ?_⟩
  have hbound : ∀ x ∈ [t.wre, t.wim, t.wpre, t.wpim], AtMostPow2 2 x := fun x hx => (hsmall x hx).le.trans (by decide)
  simp only [List.forall_mem_cons, List.not_mem_nil, false_imp_iff, implies_true, and_true] at hbound ⊢
  obtain ⟨hr, hm, hwpre, hwpim⟩ := hbound
  have hfre : Finite binary64 re := (atMostPow2_advance d hr hwpre hm hwpim).1.finite (by decide)
  have hfim : Finite binary64 im := (atMostPow2_advance d hm hwpre hr hwpim).2.finite (by decide)
  have hfre2 : Finite binary64 re2 := (atMostPow2_square d hr hm).1.finite (by decide)
  have hfim2 : Finite binary64 im2 := (atMostPow2_square d hr hm).2.finite (by decide)
  exact ⟨eq_of_laneAlike_of_finite hre hfre, eq_of_laneAlike_of_finite him hfim, eq_of_laneAlike_of_finite hre2 hfre2,
    eq_of_laneAlike_of_finite him2 hfim2, hfre, hfim, hfre2, hfim2⟩

/-- Settles O54: runs of the unit on the registers of `q = 3`. -/
theorem twiddleWorkedValues : Obligations.TwiddleWorkedValues := by
  unfold Obligations.TwiddleWorkedValues
  decide +kernel

end Sys2Proof.Machine
end

section
/-! The passes against the closed formulas: lane groups that agree up to the choice of a NaN, sequences of lane operations that
compute a closed formula whatever the NaN draws are, and sequences that turn the elements of one buffer into those of another
(40_lane_ops.md R66, R72 to R76; 43_cfft.md R103 to R105). -/

namespace Sys2Proof.Reference

/-! ## The closed formulas point by point (20_memory.md R32) -/

/-- The complex point at elements `i`, `i + 1` of a buffer. -/
def point {lt : LaneType} (x : Buffer lt) (i : Nat) : Machine.Point lt := (x i, x (i + 1))

/-- The part of a point that stands at an even or odd element. -/
def part {lt : LaneType} (z : Machine.Point lt) : Nat → Machine.LaneGroup lt
  | 0 => z.1
  | _ => z.2

/-- `w * z`. -/
def mulPoint (lt : LaneType) (fl : Bool) (w z : Machine.Point lt) : Machine.Point lt :=
  (mulSub lt fl w.1 z.1 w.2 z.2, mulAdd lt fl w.1 z.2 w.2 z.1)

/-- `x + y`. -/
def addPoint (lt : LaneType) (fl : Bool) (x y : Machine.Point lt) : Machine.Point lt :=
  (add lt fl x.1 y.1, add lt fl x.2 y.2)

/-- `x - y`. -/
def subPoint (lt : LaneType) (fl : Bool) (x y : Machine.Point lt) : Machine.Point lt :=
  (sub lt fl x.1 y.1, sub lt fl x.2 y.2)

/-- `x - i*y`. -/
def subTurned (lt : LaneType) (fl : Bool) (x y : Machine.Point lt) : Machine.Point lt :=
  (add lt fl x.1 y.2, sub lt fl x.2 y.1)

/-- `x + i*y`. -/
def addTurned (lt : LaneType) (fl : Bool) (x y : Machine.Point lt) : Machine.Point lt :=
  (sub lt fl x.1 y.2, add lt fl x.2 y.1)

end Sys2Proof.Reference

namespace Sys2Proof.Machine

open Sys2Proof.Reference

/-! ## Lane groups up to the choice of a NaN (40_lane_ops.md R76) -/

theorem isFormat_laneFmt (lt : LaneType) : IsFormat (laneFmt lt) := by
  cases lt
  · exact isFormat_binary32
  · exact isFormat_binary64
  · exact isFormat_binary32

theorem alike_refl (lt : LaneType) (v : LaneGroup lt) : Alike lt v v := List.forall₂_same.2 fun _ _ => .inl rfl

/-- A whole lane group that is a value of the closed formulas, up to the choice of a NaN. -/
structure Renders (lt : LaneType) (v r : LaneGroup lt) : Prop where
  alike : Alike lt v r
  length : v.length = laneCount lt

theorem renders_refl {lt : LaneType} {v : LaneGroup lt} (h : v.length = laneCount lt) : Renders lt v v := ⟨alike_refl lt v, h⟩

theorem renders_bcast (lt : LaneType) (v : Word64) : Renders lt (bcast lt v) (bcast lt v) := renders_refl List.length_replicate

theorem alike_laneMap {f : Fmt} {op : Word64 → BitVec f.width → BitVec f.width → BitVec f.width} (hop : NanOnlyFromDraw f op)
    (d : Nat) (d' : Word64) {a a' b b' : List (BitVec f.width)} (ha : List.Forall₂ (LaneAlike f) a a')
    (hb : List.Forall₂ (LaneAlike f) b b') : List.Forall₂ (LaneAlike f) (laneMap op d a b) (List.zipWith (op d') a' b') := by
  induction ha generalizing d b b' with
  | nil => exact .nil
  | cons hx _ ih =>
    cases hb with
    | nil => exact .nil
    | cons hy hb => exact .cons (hop.laneAlike _ _ hx hy) (ih _ hb)

/-! ## Sequences of lane operations -/

/-- The sequence leaves data memory alone and its result satisfies `S`, whatever the NaN draws are. -/
def Computes {α : Type} (x : Eng α) (S : α → Prop) : Prop := ∀ w, S (x w).1 ∧ (x w).2.mem = w.mem

section
variable {α β : Type} {lt : LaneType} {c : Ctx}

theorem computes_pure {S : α → Prop} {a : α} (h : S a) : Computes (pure a) S := fun _ => ⟨h, rfl⟩

theorem computes_bind {x : Eng α} {f : α → Eng β} {S : α → Prop} {T : β → Prop} (hx : Computes x S)
    (hf : ∀ a, S a → Computes (f a) T) : Computes (x >>= f) T := fun w =>
  have hfirst := hx w
  have hrest := hf _ hfirst.1 (x w).2
  ⟨hrest.1, hrest.2.trans hfirst.2⟩

theorem computes_lanewise {op : Word64 → Lane lt → Lane lt → Lane lt} (hop : NanOnlyFromDraw (laneFmt lt) op)
    {a a' b b' : LaneGroup lt} (ha : Renders lt a a') (hb : Renders lt b b') :
    Computes (lanewise lt c op a b) fun v => Renders lt v (List.zipWith (flushed (laneFmt lt) c.flush op 0) a' b') := fun _ =>
  ⟨⟨alike_laneMap (hop.flushed (isFormat_laneFmt lt) c.flush) _ _ ha.alike hb.alike,
    (length_laneMap _ _ (ha.length.trans hb.length.symm)).trans ha.length⟩, rfl⟩

section
variable {a a' b b' : LaneGroup lt} (ha : Renders lt a a') (hb : Renders lt b b')
include ha hb

theorem computes_ladd : Computes (ladd lt c a b) fun v => Renders lt v (add lt c.flush a' b') :=
  computes_lanewise (nanOnlyFromDraw_addF (isFormat_laneFmt lt)) ha hb

theorem computes_lsub : Computes (lsub lt c a b) fun v => Renders lt v (sub lt c.flush a' b') :=
  computes_lanewise (nanOnlyFromDraw_subF (isFormat_laneFmt lt)) ha hb

theorem computes_lmul : Computes (lmul lt c a b) fun v => Renders lt v (mul lt c.flush a' b') :=
  computes_lanewise (nanOnlyFromDraw_mulF (isFormat_laneFmt lt)) ha hb

variable {p p' q q' : LaneGroup lt} (hp : Renders lt p p') (hq : Renders lt q q')
include hp hq

theorem computes_mulSubMul : Computes (mulSubMul lt c a b p q) fun v => Renders lt v (mulSub lt c.flush a' b' p' q') :=
  computes_bind (computes_lmul ha hb) fun _ h1 => computes_bind (computes_lmul hp hq) fun _ h2 => computes_lsub h1 h2

theorem computes_mulAddMul : Computes (mulAddMul lt c a b p q) fun v => Renders lt v (mulAdd lt c.flush a' b' p' q') :=
  computes_bind (computes_lmul ha hb) fun _ h1 => computes_bind (computes_lmul hp hq) fun _ h2 => computes_ladd h1 h2

end

/-! ## Complex points -/

/-- Both parts of a point are whole lane groups with the closed formulas' values. -/
abbrev RendersPoint (lt : LaneType) (z r : Point lt) : Prop := BothParts (Renders lt) z r

section
variable {x y x' y' : Point lt} (hx : RendersPoint lt x x') (hy : RendersPoint lt y y')
include hx hy

theorem computes_mulPoint : Computes (mulPoint lt c x y) fun z => RendersPoint lt z (Reference.mulPoint lt c.flush x' y') :=
  computes_bind (computes_mulSubMul hx.1 hy.1 hx.2 hy.2) fun _ hre =>
  computes_bind (computes_mulAddMul hx.1 hy.2 hx.2 hy.1) fun _ him => computes_pure ⟨hre, him⟩

theorem computes_addPoint : Computes (addPoint lt c x y) fun z => RendersPoint lt z (Reference.addPoint lt c.flush x' y') :=
  computes_bind (computes_ladd hx.1 hy.1) fun _ hre => computes_bind (computes_ladd hx.2 hy.2) fun _ him =>
  computes_pure ⟨hre, him⟩

theorem computes_subPoint : Computes (subPoint lt c x y) fun z => RendersPoint lt z (Reference.subPoint lt c.flush x' y') :=
  computes_bind (computes_lsub hx.1 hy.1) fun _ hre => computes_bind (computes_lsub hx.2 hy.2) fun _ him =>
  computes_pure ⟨hre, him⟩

theorem computes_subTurned : Computes (subTurned lt c x y) fun z => RendersPoint lt z (Reference.subTurned lt c.flush x' y') :=
  computes_bind (computes_ladd hx.1 hy.2) fun _ hre => computes_bind (computes_lsub hx.2 hy.1) fun _ him =>
  computes_pure ⟨hre, him⟩

theorem computes_addTurned : Computes (addTurned lt c x y) fun z => RendersPoint lt z (Reference.addTurned lt c.flush x' y') :=
  computes_bind (computes_lsub hx.1 hy.2) fun _ hre => computes_bind (computes_ladd hx.2 hy.1) fun _ him =>
  computes_pure ⟨hre, him⟩

end

end

theorem RendersPoint.length {lt : LaneType} {z r : Point lt} (h : RendersPoint lt z r) :
    z.1.length = laneCount lt ∧ z.2.length = laneCount lt := ⟨h.1.length, h.2.length⟩

/-! ## Buffers in data memory -/

/-- The elements `S` of the buffer hold the values `x`, up to the choice of a NaN. -/
def Holds (lt : LaneType) (c : Ctx) (S : Set Nat) (x : Buffer lt) (w : Work) : Prop :=
  ∀ k ∈ S, Alike lt (element lt w.mem c.base k) (x k)

/-- Where the elements `S` hold `x`, the sequence leaves them holding `y`, and it leaves every other element as it was. -/
def Updates {α : Type} (lt : LaneType) (c : Ctx) (S : Set Nat) (x y : Buffer lt) (act : Eng α) : Prop :=
  ∀ w, Holds lt c S x w →
    Holds lt c S y (act w).2 ∧ ∀ k ∉ S, element lt (act w).2.mem c.base k = element lt w.mem c.base k

theorem holds_element (lt : LaneType) (c : Ctx) (S : Set Nat) (w : Work) : Holds lt c S (element lt w.mem c.base) w :=
  fun _ _ => alike_refl _ _

section
variable {α β : Type} {lt : LaneType} {c : Ctx} {S T : Set Nat} {x y z : Buffer lt}

theorem updates_pure (a : α) : Updates lt c S x x (pure a : Eng α) := fun _ h => ⟨h, fun _ _ => rfl⟩

theorem updates_setPhase (p : Phase) : Updates lt c S x x (setPhase p) := fun _ h => ⟨h, fun _ _ => rfl⟩

/-- One update after the other on the same elements. -/
theorem updates_bind {act : Eng α} {f : α → Eng β} (hact : Updates lt c S x y act) (hf : ∀ a, Updates lt c S y z (f a)) :
    Updates lt c S x z (act >>= f) := fun w h =>
  have ⟨hy, hfirst⟩ := hact w h
  have ⟨hz, hrest⟩ := hf _ _ hy
  ⟨hz, fun k hk => (hrest k hk).trans (hfirst k hk)⟩

/-- Updates of disjoint sets of elements do not meet. -/
theorem updates_bind_disjoint {act : Eng α} {f : α → Eng β} (hdisj : Disjoint S T) (hact : Updates lt c S x y act)
    (hf : ∀ w, Updates lt c T x y (f (act w).1)) : Updates lt c (S ∪ T) x y (act >>= f) := by
  intro w h
  obtain ⟨hS, hfirst⟩ := hact w fun k hk => h k (.inl hk)
  have hkept : Holds lt c T x (act w).2 := fun k hk => by
    rw [hfirst k (Set.disjoint_right.1 hdisj hk)]
    exact h k (.inr hk)
  obtain ⟨hT, hrest⟩ := hf w _ hkept
  refine ⟨fun k hk => ?_, fun k hk => ?_⟩
  · rcases hk with hk | hk
    · rw [run_bind, hrest k (Set.disjoint_left.1 hdisj hk)]
      exact hS k hk
    · exact hT k hk
  · exact (hrest k fun hT => hk (.inr hT)).trans (hfirst k fun hS => hk (.inl hS))

/-- A loop whose iterations update disjoint sets of elements; `v t` is the value that the first `t` iterations pass on. -/
theorem updates_forFold {E : Nat → Set Nat} {xs : List Nat} {body : β → Nat → Eng β} (v : Nat → β) (hnodup : xs.Nodup)
    (hdisj : ∀ i ∈ xs, ∀ j ∈ xs, i ≠ j → Disjoint (E i) (E j)) (hval : ∀ t i w, (body (v t) i w).1 = v (t + 1))
    (hbody : ∀ t i, xs[t]? = some i → Updates lt c (E i) x y (body (v t) i)) :
    Updates lt c {k | ∃ i ∈ xs, k ∈ E i} x y (forFold xs (v 0) body) := by
  induction xs generalizing v with
  | nil => exact fun _ _ => ⟨by simp [Holds], fun _ _ => rfl⟩
  | cons i xs ih =>
    obtain ⟨hi, hxs⟩ := List.nodup_cons.1 hnodup
    have hsplit : {k | ∃ j ∈ i :: xs, k ∈ E j} = E i ∪ {k | ∃ j ∈ xs, k ∈ E j} := by
      ext k
      simp
    rw [hsplit]
    refine updates_bind_disjoint ?_ (hbody 0 i rfl) fun w => ?_
    · rw [Set.disjoint_left]
      rintro k hk ⟨j, hj, hkj⟩
      have hne : i ≠ j := fun h => hi (h ▸ hj)
      exact Set.disjoint_left.1 (hdisj i (by simp) j (by simp [hj]) hne) hk hkj
    · rw [hval]
      exact ih (fun t => v (t + 1)) hxs (fun j hj l hl => hdisj j (by simp [hj]) l (by simp [hl])) (fun t => hval (t + 1))
        fun t j hj => hbody (t + 1) j hj

theorem updates_forEach {E : Nat → Set Nat} {xs : List Nat} {body : Nat → Eng Unit} (hnodup : xs.Nodup)
    (hdisj : ∀ i ∈ xs, ∀ j ∈ xs, i ≠ j → Disjoint (E i) (E j)) (hbody : ∀ i ∈ xs, Updates lt c (E i) x y (body i)) :
    Updates lt c {k | ∃ i ∈ xs, k ∈ E i} x y (forEach xs body) :=
  updates_forFold (fun _ => ()) hnodup hdisj (fun _ _ _ => rfl) fun _ i hi => hbody i (List.mem_of_getElem? hi)

/-- What an update leaves in the elements that it speaks of, computed from the elements that it found. -/
theorem Updates.alike {F : Buffer lt → Buffer lt} {act : Eng α} (h : ∀ x, Updates lt c S x (F x) act) (w : Work) {k : Nat}
    (hk : k ∈ S) : Alike lt (element lt (act w).2.mem c.base k) (F (element lt w.mem c.base) k) :=
  (h _ w (holds_element lt c S w)).1 k hk

end

/-! ## Points in data memory -/

/-- A point whose two elements hold `x`. -/
theorem Holds.point {lt : LaneType} {c : Ctx} {S : Set Nat} {x : Buffer lt} {w : Work} (h : Holds lt c S x w) {i : Nat}
    (hre : i ∈ S) (him : i + 1 ∈ S) : RendersPoint lt (pointAt lt w.mem c.base i) (point x i) :=
  ⟨⟨h i hre, length_element _ _ _ _⟩, ⟨h _ him, length_element _ _ _ _⟩⟩

theorem RendersPoint.alike_part {lt : LaneType} {m : Memory} {base i : Nat} {z : Point lt}
    (h : RendersPoint lt (pointAt lt m base i) z) {p : Nat} (hp : p < 2) : Alike lt (element lt m base (i + p)) (part z p) := by
  obtain rfl | rfl : p = 0 ∨ p = 1 := by omega
  · exact h.1.alike
  · exact h.2.alike

theorem element_putPoint_other {lt : LaneType} (m : Memory) (base : Nat) {i k : Nat} (z : Point lt) (h0 : k ≠ i)
    (h1 : k ≠ i + 1) : element lt (putPoint lt m base i z) base k = element lt m base k := by
  rw [putPoint, element_putElement_other _ _ _ h1, element_putElement_other _ _ _ h0]

end Sys2Proof.Machine
end

section
/-! The butterflies and the stages of the complex transform against their closed formulas: a butterfly updates its own elements, the
butterflies of a stage have no element in common and leave none out, and so a stage updates the whole buffer
(43_cfft.md R103 to R106; O34, O36, O37). -/

namespace Sys2Proof.Reference

/-- The twiddle of the recurrence registers in every lane (40_lane_ops.md R75). -/
def twiddle (lt : LaneType) (t : Machine.Rotor) : Machine.Point lt := (Machine.bcast lt t.wre, Machine.bcast lt t.wim)

/-- The twiddle's square in every lane (42_twiddle.md R95). -/
def twiddleSq (lt : LaneType) (t : Machine.Rotor) : Machine.Point lt :=
  (Machine.bcast lt (Machine.twSqRe t), Machine.bcast lt (Machine.twSqIm t))

/-- The points `a'`, `b'` of the radix-2 butterfly (43_cfft.md R103), by their place in the butterfly. -/
def butterfly2 (lt : LaneType) (fl : Bool) (w a b : Machine.Point lt) : Nat → Machine.Point lt
  | 0 => addPoint lt fl a (mulPoint lt fl w b)
  | _ => subPoint lt fl a (mulPoint lt fl w b)

/-- The points of the radix-4 butterfly (43_cfft.md R105), by their place in the butterfly. -/
def butterfly4 (lt : LaneType) (fl : Bool) (w w2 a b c d : Machine.Point lt) : Nat → Machine.Point lt
  | 0 => addPoint lt fl (addPoint lt fl a (mulPoint lt fl w2 b)) (mulPoint lt fl w (addPoint lt fl c (mulPoint lt fl w2 d)))
  | 1 => subTurned lt fl (subPoint lt fl a (mulPoint lt fl w2 b)) (mulPoint lt fl w (subPoint lt fl c (mulPoint lt fl w2 d)))
  | 2 => subPoint lt fl (addPoint lt fl a (mulPoint lt fl w2 b)) (mulPoint lt fl w (addPoint lt fl c (mulPoint lt fl w2 d)))
  | _ => addTurned lt fl (subPoint lt fl a (mulPoint lt fl w2 b)) (mulPoint lt fl w (subPoint lt fl c (mulPoint lt fl w2 d)))

/-- The points of the butterfly of column `m` at element `i` in the radix-2 stage of span `mmax` (43_cfft.md R104). -/
def stage2Points (lt : LaneType) (fl : Bool) (mmax : Nat) (x : Buffer lt) (m i : Nat) : Nat → Machine.Point lt :=
  butterfly2 lt fl (twiddle lt (rotor mmax.log2 (m / 2))) (point x i) (point x (i + mmax))

/-- The points of the butterfly of column `m` at element `i` in the radix-4 stage of inner span `mmax` (43_cfft.md R106). -/
def stage4Points (lt : LaneType) (fl : Bool) (mmax : Nat) (x : Buffer lt) (m i : Nat) : Nat → Machine.Point lt :=
  butterfly4 lt fl (twiddle lt (rotor (mmax.log2 + 1) (m / 2))) (twiddleSq lt (rotor (mmax.log2 + 1) (m / 2)))
    (point x i) (point x (i + mmax)) (point x (i + 2 * mmax)) (point x (i + 3 * mmax))

end Sys2Proof.Reference

namespace Sys2Proof.Machine

open Sys2Proof.Reference

/-! ## One butterfly (43_cfft.md R103, R105) -/

/-- The lane operations of `Bfly2`, between its loads and its stores. -/
def bfly2Values (lt : LaneType) (c : Ctx) (w a b : Point lt) : Eng (Nat → Point lt) := do
  let t ← mulPoint lt c w b
  let y ← subPoint lt c a t
  let x ← addPoint lt c a t
  pure fun
    | 0 => x
    | _ => y

/-- The lane operations of `Bfly4`, between its loads and its stores. -/
def bfly4Values (lt : LaneType) (c : Ctx) (w w2 pa pb pc pd : Point lt) : Eng (Nat → Point lt) := do
  let tb ← mulPoint lt c w2 pb
  let td ← mulPoint lt c w2 pd
  let e0 ← addPoint lt c pa tb
  let e1 ← subPoint lt c pa tb
  let f0 ← addPoint lt c pc td
  let f1 ← subPoint lt c pc td
  let u0 ← mulPoint lt c w f0
  let u1 ← mulPoint lt c w f1
  let x0 ← addPoint lt c e0 u0
  let x2 ← subPoint lt c e0 u0
  let x1 ← subTurned lt c e1 u1
  let x3 ← addTurned lt c e1 u1
  pure fun
    | 0 => x0
    | 1 => x1
    | 2 => x2
    | _ => x3

theorem bfly2_eq (lt : LaneType) (c : Ctx) (w : Point lt) (i j : Nat) :
    bfly2 lt c w i j = (do
      let a ← loadPoint lt c i
      let b ← loadPoint lt c j
      let z ← bfly2Values lt c w a b
      storePoint lt c j (z 1)
      storePoint lt c i (z 0)) := by
  simp only [bfly2, bfly2Values, bind_assoc, pure_bind]

theorem bfly4_eq (lt : LaneType) (c : Ctx) (w w2 : Point lt) (i0 i1 i2 i3 : Nat) :
    bfly4 lt c w w2 i0 i1 i2 i3 = (do
      let pa ← loadPoint lt c i0
      let pb ← loadPoint lt c i1
      let pc ← loadPoint lt c i2
      let pd ← loadPoint lt c i3
      let z ← bfly4Values lt c w w2 pa pb pc pd
      storePoint lt c i0 (z 0)
      storePoint lt c i2 (z 2)
      storePoint lt c i1 (z 1)
      storePoint lt c i3 (z 3)) := by
  simp only [bfly4, bfly4Values, bind_assoc, pure_bind]

section
variable {lt : LaneType} {c : Ctx} {w w' : Point lt} (hw : RendersPoint lt w w')
include hw

theorem computes_bfly2Values {a b a' b' : Point lt} (ha : RendersPoint lt a a') (hb : RendersPoint lt b b') :
    Computes (bfly2Values lt c w a b) fun z => ∀ l, RendersPoint lt (z l) (butterfly2 lt c.flush w' a' b' l) := by
  refine computes_bind (computes_mulPoint hw hb) fun t ht => computes_bind (computes_subPoint ha ht) fun y hy =>
    computes_bind (computes_addPoint ha ht) fun x hx => computes_pure ?_
  rintro (_ | l)
  · exact hx
  · exact hy

theorem computes_bfly4Values {w2 w2' pa pb pc pd a b d e : Point lt} (hw2 : RendersPoint lt w2 w2') (ha : RendersPoint lt pa a)
    (hb : RendersPoint lt pb b) (hd : RendersPoint lt pc d) (he : RendersPoint lt pd e) :
    Computes (bfly4Values lt c w w2 pa pb pc pd) fun z =>
      ∀ l, RendersPoint lt (z l) (butterfly4 lt c.flush w' w2' a b d e l) := by
  refine computes_bind (computes_mulPoint hw2 hb) fun tb htb => computes_bind (computes_mulPoint hw2 he) fun td htd =>
    computes_bind (computes_addPoint ha htb) fun e0 he0 => computes_bind (computes_subPoint ha htb) fun e1 he1 =>
    computes_bind (computes_addPoint hd htd) fun f0 hf0 => computes_bind (computes_subPoint hd htd) fun f1 hf1 =>
    computes_bind (computes_mulPoint hw hf0) fun u0 hu0 => computes_bind (computes_mulPoint hw hf1) fun u1 hu1 =>
    computes_bind (computes_addPoint he0 hu0) fun x0 hx0 => computes_bind (computes_subPoint he0 hu0) fun x2 hx2 =>
    computes_bind (computes_subTurned he1 hu1) fun x1 hx1 => computes_bind (computes_addTurned he1 hu1) fun x3 hx3 =>
    computes_pure ?_
  rintro (_ | _ | _ | l)
  · exact hx0
  · exact hx1
  · exact hx2
  · exact hx3

/-- A radix-2 butterfly of disjoint points leaves its values in them and every other element as it was. -/
theorem bfly2_points {i j : Nat} (hij : i + 1 < j ∨ j + 1 < i) {s : Work} {a b : Point lt}
    (ha : RendersPoint lt (pointAt lt s.mem c.base i) a) (hb : RendersPoint lt (pointAt lt s.mem c.base j) b) :
    RendersPoint lt (pointAt lt (bfly2 lt c w i j s).2.mem c.base i) (butterfly2 lt c.flush w' a b 0) ∧
    RendersPoint lt (pointAt lt (bfly2 lt c w i j s).2.mem c.base j) (butterfly2 lt c.flush w' a b 1) ∧
    ∀ k, k ≠ i → k ≠ i + 1 → k ≠ j → k ≠ j + 1 →
      element lt (bfly2 lt c w i j s).2.mem c.base k = element lt s.mem c.base k := by
  obtain ⟨hz, hmem⟩ := computes_bfly2Values (c := c) hw ha hb s
  simp only [bfly2_eq, run_bind, run_loadPoint, run_storePoint, hmem]
  refine ⟨?_, ?_, fun k h0 h1 h2 h3 => ?_⟩
  · rw [pointAt_putPoint_same _ _ (hz 0).length.1 (hz 0).length.2]
    exact hz 0
  · rw [pointAt_putPoint_other _ _ _ (by omega), pointAt_putPoint_same _ _ (hz 1).length.1 (hz 1).length.2]
    exact hz 1
  · rw [element_putPoint_other _ _ _ h0 h1, element_putPoint_other _ _ _ h2 h3]

/-- A radix-4 butterfly of disjoint points leaves its values in them and every other element as it was. -/
theorem bfly4_points {w2 w2' a b d e : Point lt} (hw2 : RendersPoint lt w2 w2') {i0 i1 i2 i3 : Nat} (h01 : i0 + 1 < i1)
    (h12 : i1 + 1 < i2) (h23 : i2 + 1 < i3) {s : Work}
    (ha : RendersPoint lt (pointAt lt s.mem c.base i0) a) (hb : RendersPoint lt (pointAt lt s.mem c.base i1) b)
    (hd : RendersPoint lt (pointAt lt s.mem c.base i2) d) (he : RendersPoint lt (pointAt lt s.mem c.base i3) e) :
    RendersPoint lt (pointAt lt (bfly4 lt c w w2 i0 i1 i2 i3 s).2.mem c.base i0) (butterfly4 lt c.flush w' w2' a b d e 0) ∧
    RendersPoint lt (pointAt lt (bfly4 lt c w w2 i0 i1 i2 i3 s).2.mem c.base i1) (butterfly4 lt c.flush w' w2' a b d e 1) ∧
    RendersPoint lt (pointAt lt (bfly4 lt c w w2 i0 i1 i2 i3 s).2.mem c.base i2) (butterfly4 lt c.flush w' w2' a b d e 2) ∧
    RendersPoint lt (pointAt lt (bfly4 lt c w w2 i0 i1 i2 i3 s).2.mem c.base i3) (butterfly4 lt c.flush w' w2' a b d e 3) ∧
    ∀ k, (∀ i ∈ [i0, i1, i2, i3], k ≠ i ∧ k ≠ i + 1) →
      element lt (bfly4 lt c w w2 i0 i1 i2 i3 s).2.mem c.base k = element lt s.mem c.base k := by
  obtain ⟨hz, hmem⟩ := computes_bfly4Values (c := c) hw hw2 ha hb hd he s
  simp only [bfly4_eq, run_bind, run_loadPoint, run_storePoint, hmem]
  refine ⟨?_, ?_, ?_, ?_, fun k hk => ?_⟩
  · rw [pointAt_putPoint_other _ _ _ (by omega), pointAt_putPoint_other _ _ _ (by omega), pointAt_putPoint_other _ _ _ (by omega),
      pointAt_putPoint_same _ _ (hz 0).length.1 (hz 0).length.2]
    exact hz 0
  · rw [pointAt_putPoint_other _ _ _ (by omega), pointAt_putPoint_same _ _ (hz 1).length.1 (hz 1).length.2]
    exact hz 1
  · rw [pointAt_putPoint_other _ _ _ (by omega), pointAt_putPoint_other _ _ _ (by omega),
      pointAt_putPoint_same _ _ (hz 2).length.1 (hz 2).length.2]
    exact hz 2
  · rw [pointAt_putPoint_same _ _ (hz 3).length.1 (hz 3).length.2]
    exact hz 3
  · simp only [List.forall_mem_cons, List.not_mem_nil, false_imp_iff, implies_true, and_true] at hk
    obtain ⟨hk0, hk1, hk2, hk3⟩ := hk
    rw [element_putPoint_other _ _ _ hk3.1 hk3.2, element_putPoint_other _ _ _ hk1.1 hk1.2,
      element_putPoint_other _ _ _ hk2.1 hk2.2, element_putPoint_other _ _ _ hk0.1 hk0.2]

end

/-- Settles O34: the loads see the old points, the stores go to disjoint points, and the values between are those of R103. -/
theorem butterflyOfTwo : Obligations.ButterflyOfTwo := by
  intro lt c vwr vwi i j w hre him hij
  have hx := holds_element lt c Set.univ w
  obtain ⟨⟨hxre, hxim⟩, ⟨hyre, hyim⟩, hothers⟩ := bfly2_points (w' := (vwr, vwi)) ⟨renders_refl hre, renders_refl him⟩ hij
    (hx.point (i := i) trivial trivial) (hx.point (i := j) trivial trivial)
  exact ⟨hyre.alike, hyim.alike, hxre.alike, hxim.alike, hothers⟩

/-! ## The elements of a butterfly (43_cfft.md R104, R106) -/

/-- The first element of the butterfly that element `k` belongs to, in a stage of `r`-point butterflies of span `mmax`. -/
def butterflyHead (r mmax k : Nat) : Nat := k / (r * mmax) * (r * mmax) + k % mmax / 2 * 2

/-- The place in its butterfly of the point that element `k` belongs to. -/
def butterflyPlace (r mmax k : Nat) : Nat := k % (r * mmax) / mmax

/-- The elements of the butterfly at element `i`. -/
def butterflyElems (r mmax i : Nat) : Set Nat := {k | butterflyHead r mmax k = i}

theorem butterflyPlace_lt {r mmax : Nat} (k : Nat) (hpos : 0 < r * mmax) : butterflyPlace r mmax k < r :=
  Nat.div_lt_of_lt_mul (Nat.mul_comm r mmax ▸ Nat.mod_lt k hpos)

/-- An element is its butterfly's head, a number of spans and a part. -/
theorem butterflyHead_add {r mmax : Nat} (k : Nat) (h2 : 2 ∣ mmax) :
    butterflyHead r mmax k + butterflyPlace r mmax k * mmax + k % 2 = k := by
  have hblock := Nat.div_add_mod' k (r * mmax)
  have hspan := Nat.div_add_mod' (k % (r * mmax)) mmax
  have hpair := Nat.div_add_mod' (k % mmax) 2
  rw [Nat.mod_mul_left_mod] at hspan
  rw [Nat.mod_mod_of_dvd _ h2] at hpair
  simp only [butterflyHead, butterflyPlace]
  omega

section
variable {r mmax m : Nat} (h2 : 2 ∣ mmax) (hm : 2 ∣ m) (hlt : m < mmax) (y : Nat)
include h2 hm hlt

theorem butterfly_mod {l p : Nat} (hp : p < 2) : (m + r * mmax * y + l * mmax + p) % mmax = m + p := by
  rw [show m + r * mmax * y + l * mmax + p = m + p + mmax * (r * y + l) by ring, Nat.add_mul_mod_self_left]
  exact Nat.mod_eq_of_lt (by omega)

/-- The `2r` elements at a number of spans from a head belong to its butterfly. -/
theorem butterflyHead_of_add {l p : Nat} (hl : l < r) (hp : p < 2) :
    butterflyHead r mmax (m + r * mmax * y + l * mmax + p) = m + r * mmax * y := by
  have hspan : (l + 1) * mmax ≤ r * mmax := Nat.mul_le_mul_right _ hl
  have hblock : (m + r * mmax * y + l * mmax + p) / (r * mmax) = y := by
    rw [show m + r * mmax * y + l * mmax + p = m + p + l * mmax + r * mmax * y by ring]
    rw [Nat.succ_mul] at hspan
    rw [Nat.add_mul_div_left _ _ (by omega), Nat.div_eq_of_lt (by omega), zero_add]
  rw [butterflyHead, hblock, butterfly_mod h2 hm hlt y hp, Nat.mul_comm y]
  omega

/-- The elements of a butterfly stand in its column `M`. -/
theorem column_of_mem_butterflyElems {k : Nat} (hk : k ∈ butterflyElems r mmax (m + r * mmax * y)) : k % mmax / 2 * 2 = m := by
  have hmod := Nat.mod_lt k (show 0 < mmax by omega)
  have hhead : butterflyHead r mmax k % mmax = k % mmax / 2 * 2 := by
    rw [butterflyHead, ← Nat.mul_assoc, Nat.mul_add_mod_self_right, Nat.mod_eq_of_lt (by omega)]
  have hown := butterfly_mod h2 hm hlt (r := r) y (l := 0) (p := 0) two_pos
  rw [← hhead, show butterflyHead r mmax k = _ from hk]
  simpa using hown

end

/-- A butterfly updates its own elements: its points come to hold `z`, which is `x'` in those elements, and the other elements are
as they were. -/
theorem updates_butterfly {lt : LaneType} {c : Ctx} {r mmax m y i : Nat} {x x' : Buffer lt} {z : Nat → Point lt} {act : Eng Unit}
    (h2 : 2 ∣ mmax) (hm : 2 ∣ m) (hlt : m < mmax) (hr : 0 < r) (hi : i = m + r * mmax * y)
    (hvalue : ∀ k ∈ butterflyElems r mmax i, x' k = part (z (butterflyPlace r mmax k)) (k % 2))
    (hact : ∀ w, (∀ l < r, RendersPoint lt (pointAt lt w.mem c.base (i + l * mmax)) (point x (i + l * mmax))) →
      (∀ l < r, RendersPoint lt (pointAt lt (act w).2.mem c.base (i + l * mmax)) (z l)) ∧
      ∀ k, (∀ l < r, k ≠ i + l * mmax ∧ k ≠ i + l * mmax + 1) →
        element lt (act w).2.mem c.base k = element lt w.mem c.base k) :
    Updates lt c (butterflyElems r mmax i) x x' act := by
  have hown : ∀ l < r, ∀ p < 2, i + l * mmax + p ∈ butterflyElems r mmax i := by
    subst hi
    exact fun l hl p hp => butterflyHead_of_add h2 hm hlt y hl hp
  intro w hx
  obtain ⟨hpoints, hothers⟩ := hact w fun l hl => hx.point (hown l hl 0 two_pos) (hown l hl 1 one_lt_two)
  refine ⟨fun k hk => ?_, fun k hk => hothers k fun l hl => ⟨fun h => ?_, fun h => ?_⟩⟩
  · have hplace := butterflyPlace_lt (r := r) (mmax := mmax) k (Nat.mul_pos hr (by omega))
    have hhead : butterflyHead r mmax k = i := hk
    have halike := (hpoints _ hplace).alike_part (Nat.mod_lt k two_pos)
    rw [hvalue k hk]
    rwa [← hhead, butterflyHead_add k h2] at halike
  · exact hk (h ▸ hown l hl 0 two_pos)
  · exact hk (h ▸ hown l hl 1 one_lt_two)

/-! ## The closed formulas of a stage, butterfly by butterfly -/

theorem stage2_eq (lt : LaneType) (fl : Bool) (mmax : Nat) (x : Buffer lt) (k : Nat) : stage2 lt fl mmax x k =
    part (stage2Points lt fl mmax x (k % mmax / 2 * 2) (butterflyHead 2 mmax k) (butterflyPlace 2 mmax k)) (k % 2) := by
  unfold stage2 stage2Points butterflyHead butterflyPlace
  rcases k % (2 * mmax) / mmax with _ | l <;> rcases k % 2 with _ | p <;> rfl

theorem stage4_eq (lt : LaneType) (fl : Bool) (mmax : Nat) (x : Buffer lt) (k : Nat) : stage4 lt fl mmax x k =
    part (stage4Points lt fl mmax x (k % mmax / 2 * 2) (butterflyHead 4 mmax k) (butterflyPlace 4 mmax k)) (k % 2) := by
  unfold stage4 stage4Points butterflyHead butterflyPlace
  rcases k % (4 * mmax) / mmax with _ | _ | _ | l <;> rcases k % 2 with _ | p <;> rfl

theorem rendersPoint_twiddle (lt : LaneType) (t : Rotor) : RendersPoint lt (twiddle lt t) (twiddle lt t) :=
  ⟨renders_bcast lt _, renders_bcast lt _⟩

theorem rendersPoint_twiddleSq (lt : LaneType) (t : Rotor) : RendersPoint lt (twiddleSq lt t) (twiddleSq lt t) :=
  ⟨renders_bcast lt _, renders_bcast lt _⟩

section
variable {lt : LaneType} {c : Ctx} {mmax m y : Nat} {x : Buffer lt} (h2 : 2 ∣ mmax) (hm : 2 ∣ m) (hlt : m < mmax)
include h2 hm hlt

theorem updates_bfly2 : Updates lt c (butterflyElems 2 mmax (m + 2 * mmax * y)) x (stage2 lt c.flush mmax x)
    (bfly2 lt c (twiddle lt (rotor mmax.log2 (m / 2))) (m + 2 * mmax * y) (m + 2 * mmax * y + mmax)) := by
  refine updates_butterfly h2 hm hlt two_pos rfl (z := stage2Points lt c.flush mmax x m (m + 2 * mmax * y))
    (fun k hk => ?_) fun w hx => ?_
  · rw [stage2_eq, column_of_mem_butterflyElems h2 hm hlt y hk, show butterflyHead 2 mmax k = _ from hk]
  · have h0 := hx 0 (by decide)
    have h1 := hx 1 (by decide)
    simp only [zero_mul, one_mul, add_zero] at h0 h1
    obtain ⟨hp0, hp1, hothers⟩ := bfly2_points (c := c) (rendersPoint_twiddle lt (rotor mmax.log2 (m / 2)))
      (.inl (by omega)) h0 h1
    rw [← stage2Points] at hp0 hp1
    refine ⟨fun l hl => ?_, fun k hk => ?_⟩
    · interval_cases l
      · rwa [zero_mul, add_zero]
      · rwa [one_mul]
    · have hk0 := hk 0 (by decide)
      have hk1 := hk 1 (by decide)
      simp only [zero_mul, one_mul, add_zero] at hk0 hk1
      exact hothers k hk0.1 hk0.2 hk1.1 hk1.2

theorem updates_bfly4 : Updates lt c (butterflyElems 4 mmax (m + 4 * mmax * y)) x (stage4 lt c.flush mmax x)
    (bfly4 lt c (twiddle lt (rotor (mmax.log2 + 1) (m / 2))) (twiddleSq lt (rotor (mmax.log2 + 1) (m / 2)))
      (m + 4 * mmax * y) (m + 4 * mmax * y + mmax) (m + 4 * mmax * y + 2 * mmax) (m + 4 * mmax * y + 3 * mmax)) := by
  refine updates_butterfly h2 hm hlt four_pos rfl (z := stage4Points lt c.flush mmax x m (m + 4 * mmax * y))
    (fun k hk => ?_) fun w hx => ?_
  · rw [stage4_eq, column_of_mem_butterflyElems h2 hm hlt y hk, show butterflyHead 4 mmax k = _ from hk]
  · have h0 := hx 0 (by decide)
    have h1 := hx 1 (by decide)
    simp only [zero_mul, one_mul, add_zero] at h0 h1
    obtain ⟨hp0, hp1, hp2, hp3, hothers⟩ := bfly4_points (c := c) (rendersPoint_twiddle lt (rotor (mmax.log2 + 1) (m / 2)))
      (rendersPoint_twiddleSq lt (rotor (mmax.log2 + 1) (m / 2))) (by omega) (by omega) (by omega) h0 h1 (hx 2 (by decide))
      (hx 3 (by decide))
    rw [← stage4Points] at hp0 hp1 hp2 hp3
    refine ⟨fun l hl => ?_, fun k hk => hothers k ?_⟩
    · interval_cases l
      · rwa [zero_mul, add_zero]
      · rwa [one_mul]
      · exact hp2
      · exact hp3
    · have hk0 := hk 0 (by decide)
      have hk1 := hk 1 (by decide)
      simp only [zero_mul, one_mul, add_zero] at hk0 hk1
      simp only [List.forall_mem_cons, List.not_mem_nil, false_imp_iff, implies_true, and_true]
      exact ⟨hk0, hk1, hk 2 (by decide), hk 3 (by decide)⟩

end

/-! ## A stage (43_cfft.md R104, R106) -/

/-- The loops that the two stages have in common: column by column, the butterflies `bfly t i` of the column's twiddle `t`. -/
def butterflyStage (c : Ctx) (r q mmax : Nat) (bfly : Rotor → Nat → Eng Unit) : Eng Unit := do
  let _ ← forFold (countUp 0 2 mmax) (twInit q) fun t m => do
    forEach (countUp m (r * mmax) c.n) (bfly t)
    pure (twAdv t)
  pure ()

theorem radix2Stage_eq (lt : LaneType) (c : Ctx) (mmax : Nat) : radix2Stage lt c mmax =
    butterflyStage c 2 mmax.log2 mmax fun t i => bfly2 lt c (twiddle lt t) i (i + mmax) := rfl

theorem radix4Stage_eq (lt : LaneType) (c : Ctx) (mmax : Nat) : radix4Stage lt c mmax =
    butterflyStage c 4 (mmax.log2 + 1) mmax fun t i =>
      bfly4 lt c (twiddle lt t) (twiddleSq lt t) i (i + mmax) (i + 2 * mmax) (i + 3 * mmax) := rfl

theorem rotor_succ (q t : Nat) : rotor q (t + 1) = twAdv (rotor q t) := Function.iterate_succ_apply' _ _ _

theorem countUp_getElem? {a st b t i : Nat} (h : (countUp a st b)[t]? = some i) : i = a + st * t := by
  obtain ⟨_, hi⟩ := List.getElem?_eq_some_iff.1 h
  simpa [countUp] using hi.symm

theorem nodup_countUp (a b : Nat) {st : Nat} (hst : 0 < st) : (countUp a st b).Nodup := List.nodup_range' st hst

section
variable {n r mmax : Nat} (h2 : 2 ∣ mmax) (hpos : 0 < mmax) (hr : 0 < r) (hd : r * mmax ∣ n)
include h2 hpos hr hd

/-- The butterflies of all columns have the elements below `n` and no others. -/
theorem exists_butterfly_iff (k : Nat) :
    (∃ m ∈ countUp 0 2 mmax, ∃ i ∈ countUp m (r * mmax) n, k ∈ butterflyElems r mmax i) ↔ k < n := by
  have hblock : 0 < r * mmax := Nat.mul_pos hr hpos
  have hsplit := butterflyHead_add (r := r) k h2
  constructor
  · rintro ⟨m, hm, i, hi, hk⟩
    obtain ⟨x, rfl, hlt⟩ := (mem_countUp two_pos).1 hm
    obtain ⟨y, rfl, hin⟩ := (mem_countUp hblock).1 hi
    have hhead : butterflyHead r mmax k = _ := hk
    have hlast := butterfly_point_lt h2 hd ⟨x, zero_add _⟩ hlt hin (butterflyPlace_lt k hblock)
    omega
  · intro hk
    have hmod := Nat.mod_lt k hpos
    refine ⟨k % mmax / 2 * 2, (mem_countUp two_pos).2 ⟨k % mmax / 2, by ring, by omega⟩, _, ?_, rfl⟩
    exact (mem_countUp hblock).2 ⟨k / (r * mmax), by rw [butterflyHead]; ring, by omega⟩

/-- The butterflies of a stage update their own elements only, and together the whole buffer (R104, R106). -/
theorem updates_butterflyStage {lt : LaneType} {c : Ctx} (hn : c.n = n) (q : Nat) {x x' : Buffer lt}
    {bfly : Rotor → Nat → Eng Unit}
    (hbfly : ∀ m y, 2 ∣ m → m < mmax →
      Updates lt c (butterflyElems r mmax (m + r * mmax * y)) x x' (bfly (rotor q (m / 2)) (m + r * mmax * y))) :
    Updates lt c {k | k < n} x x' (butterflyStage c r q mmax bfly) := by
  subst hn
  have hblock : 0 < r * mmax := Nat.mul_pos hr hpos
  have hall : {k | ∃ m ∈ countUp 0 2 mmax, k ∈ {k | ∃ i ∈ countUp m (r * mmax) c.n, k ∈ butterflyElems r mmax i}} =
      {k | k < c.n} :=
    Set.ext (exists_butterfly_iff h2 hpos hr hd)
  rw [← hall]
  refine updates_bind (updates_forFold (rotor q) (nodup_countUp _ _ two_pos) ?_ (fun t i w => (rotor_succ q t).symm) ?_)
    fun _ => updates_pure ()
  · intro m hm m' hm' hne
    obtain ⟨t, rfl, hlt⟩ := (mem_countUp two_pos).1 hm
    obtain ⟨t', rfl, hlt'⟩ := (mem_countUp two_pos).1 hm'
    rw [Set.disjoint_left]
    rintro k ⟨i, hi, hk⟩ ⟨i', hi', hk'⟩
    obtain ⟨y, rfl, -⟩ := (mem_countUp hblock).1 hi
    obtain ⟨y', rfl, -⟩ := (mem_countUp hblock).1 hi'
    have hcolumn := column_of_mem_butterflyElems h2 ⟨t, zero_add _⟩ hlt y hk
    have hcolumn' := column_of_mem_butterflyElems h2 ⟨t', zero_add _⟩ hlt' y' hk'
    exact hne (hcolumn.symm.trans hcolumn')
  · intro t m hm
    obtain ⟨_, -, hlt⟩ := (mem_countUp two_pos).1 (List.mem_of_getElem? hm)
    obtain rfl := countUp_getElem? hm
    refine updates_bind (updates_forEach (nodup_countUp _ _ hblock) ?_ fun i hi => ?_) fun _ => updates_pure _
    · intro i _ i' _ hne
      rw [Set.disjoint_left]
      exact fun k hk hk' => hne (hk.symm.trans hk')
    · obtain ⟨y, rfl, -⟩ := (mem_countUp hblock).1 hi
      have hturn : (0 + 2 * t) / 2 = t := by omega
      have hown := hbfly (0 + 2 * t) y ⟨t, zero_add _⟩ hlt
      rwa [hturn] at hown

end

section
variable {lt : LaneType} {c : Ctx} {d e : Nat} (hd : 1 ≤ d) (hn : c.n = 2 ^ e)
include hd hn

theorem updates_radix2Stage (hde : d < e) (x : Buffer lt) :
    Updates lt c {k | k < c.n} x (stage2 lt c.flush (2 ^ d) x) (radix2Stage lt c (2 ^ d)) := by
  have h2 : 2 ∣ 2 ^ d := dvd_pow_self 2 (by omega)
  have hdvd : 2 * 2 ^ d ∣ c.n := by
    rw [hn, ← pow_succ']
    exact pow_dvd_pow 2 hde
  rw [radix2Stage_eq]
  exact updates_butterflyStage h2 (by positivity) two_pos hdvd rfl _ fun m y hm hlt => updates_bfly2 h2 hm hlt

theorem updates_radix4Stage (hde : d + 1 < e) (x : Buffer lt) :
    Updates lt c {k | k < c.n} x (stage4 lt c.flush (2 ^ d) x) (radix4Stage lt c (2 ^ d)) := by
  have h2 : 2 ∣ 2 ^ d := dvd_pow_self 2 (by omega)
  have hdvd : 4 * 2 ^ d ∣ c.n := by
    rw [hn, show 4 * 2 ^ d = 2 ^ (d + 2) by ring]
    exact pow_dvd_pow 2 hde
  rw [radix4Stage_eq]
  exact updates_butterflyStage h2 (by positivity) four_pos hdvd rfl _ fun m y hm hlt => updates_bfly4 h2 hm hlt

end

/-- Settles O36: the stage updates the whole buffer, butterfly by butterfly. -/
theorem radix4StageResult : Obligations.Radix4StageResult := fun _ _ _ _ w hd hde hn _ hk =>
  Updates.alike (updates_radix4Stage hd hn hde) w hk

/-- Settles O37: the stage updates the whole buffer, butterfly by butterfly. -/
theorem radix2StageResult : Obligations.Radix2StageResult := fun _ _ _ _ w hd hde hn _ hk =>
  Updates.alike (updates_radix2Stage hd hn hde) w hk

end Sys2Proof.Machine
end

section
/-! The complex transform against its closed formula: bit reversal, the radix-4 stages and the radix-2 stage, one after the other on
the whole buffer; on one point no stage runs (43_cfft.md R100 to R102, R109; O23, O30). -/

namespace Sys2Proof.Machine

open Sys2Proof.Reference

/-! ## Bit reversal (41_bitrev.md R87) -/

/-- A sequence that stays inside the footprint keeps the elements beyond it. -/
theorem Within.element_eq {lt : LaneType} {c : Ctx} {w w' : Work} (h : Within lt c w w') {k : Nat} (hk : c.n ≤ k) :
    element lt w'.mem c.base k = element lt w.mem c.base k := by
  have hbeyond : c.n * esize lt ≤ k * esize lt := Nat.mul_le_mul_right _ hk
  rw [element, element, memRead_congr fun a hlo _ => h.outside a (.inr ?_)]
  rw [elemAddr] at hlo
  omega

/-- The pass leaves at element `k` the element of the same part of the reversed pair. -/
theorem element_bitrevPass {lt : LaneType} {c : Ctx} {b k : Nat} (hn : c.n = 2 ^ (b + 1)) (w : Work) (hk : k < c.n) :
    element lt (bitrevPass lt c w).2.mem c.base k = bitrev b (element lt w.mem c.base) k := by
  rw [hn, pow_succ] at hk
  obtain ⟨p, rfl | rfl⟩ := Nat.even_or_odd' k
  · have hpair := Prod.ext_iff.1 (pointAt_bitrevPass (lt := lt) hn w (show p < 2 ^ b by omega))
    rw [bitrev, Nat.mul_div_cancel_left p two_pos, Nat.mul_mod_right]
    exact hpair.1
  · have hpair := Prod.ext_iff.1 (pointAt_bitrevPass (lt := lt) hn w (show p < 2 ^ b by omega))
    rw [bitrev, show (2 * p + 1) / 2 = p by omega, show (2 * p + 1) % 2 = 1 by omega]
    exact hpair.2

theorem updates_bitrevPass {lt : LaneType} {c : Ctx} {b : Nat} (hn : c.n = 2 ^ (b + 1)) (x : Buffer lt) :
    Updates lt c {k | k < c.n} x (bitrev b x) (bitrevPass lt c) := by
  intro w hx
  refine ⟨fun k hk => ?_, fun k hk => (stays_bitrevPass hn w).element_eq (Nat.not_lt.1 hk)⟩
  rw [element_bitrevPass hn w hk]
  refine hx _ ?_
  have hk : k < c.n := hk
  have hrev := rev_lt b (k / 2)
  show _ < c.n
  rw [hn, pow_succ] at hk ⊢
  omega

/-! ## The stages (43_cfft.md R101, R102) -/

/-- The stage that is left after the radix-4 stages of `2^b` points. -/
def lastStage (lt : LaneType) (fl : Bool) (b : Nat) (x : Buffer lt) : Buffer lt :=
  if b % 2 = 1 then stage2 lt fl (2 ^ b) x else x

theorem cfft_eq (lt : LaneType) (fl : Bool) (b : Nat) (x : Buffer lt) :
    Reference.cfft lt fl b x = lastStage lt fl b (stages4 lt fl (b / 2) (bitrev b x)) := rfl

section
variable {lt : LaneType} {c : Ctx} {b : Nat} (hn : c.n = 2 ^ (b + 1)) (x : Buffer lt)
include hn

/-- From the span that follows `r` radix-4 stages on, the loop runs the stages that are left. -/
theorem updates_stageLoop {turns r : Nat} (hr : r ≤ b / 2) (hturns : b / 2 - r < turns) :
    Updates lt c {k | k < c.n} (stages4 lt c.flush r x) (lastStage lt c.flush b (stages4 lt c.flush (b / 2) x))
      (stageLoop lt c turns (2 ^ (2 * r + 1))) := by
  induction turns generalizing r with
  | zero => omega
  | succ turns ih =>
    have hspan4 : 2 * 2 ^ (2 * r + 1) < c.n ↔ 2 * r + 1 < b := by
      rw [hn, ← pow_succ', Nat.pow_lt_pow_iff_right one_lt_two]
      omega
    have hspan2 : 2 ^ (2 * r + 1) < c.n ↔ 2 * r < b := by
      rw [hn, Nat.pow_lt_pow_iff_right one_lt_two]
      omega
    rw [stageLoop]
    split_ifs with h4 h2
    · rw [hspan4] at h4
      have hnext : 4 * 2 ^ (2 * r + 1) = 2 ^ (2 * (r + 1) + 1) := by ring
      have hstage : stages4 lt c.flush (r + 1) x = stage4 lt c.flush (2 ^ (2 * r + 1)) (stages4 lt c.flush r x) := by
        rw [stages4, pow_succ' 2 (2 * r), pow_mul, show 2 ^ 2 = 4 by rfl]
      refine updates_bind (updates_setPhase _) fun _ =>
        updates_bind (updates_radix4Stage (by omega) hn (by omega) _) fun _ => ?_
      rw [hnext, ← hstage]
      exact ih (by omega) (by omega)
    · rw [hspan4] at h4
      rw [hspan2] at h2
      obtain rfl : b = 2 * r + 1 := by omega
      rw [lastStage, if_pos (by omega), show (2 * r + 1) / 2 = r by omega]
      exact updates_bind (updates_setPhase _) fun _ => updates_radix2Stage (by omega) hn (by omega) _
    · rw [hspan2] at h2
      obtain rfl : b = 2 * r := by omega
      rw [lastStage, if_neg (by omega), show 2 * r / 2 = r by omega]
      exact updates_pure ()

/-- `CfftPhase` turns the buffer into its complex transform (R101). -/
theorem updates_cfftPhase : Updates lt c {k | k < c.n} x (Reference.cfft lt c.flush b x) (cfftPhase lt c) := by
  have hturns : b / 2 - 0 < c.n := by
    have := Nat.lt_two_pow_self (n := b + 1)
    omega
  rw [cfft_eq]
  exact updates_bind (updates_setPhase _) fun _ => updates_bind (updates_bitrevPass hn x) fun _ =>
    updates_stageLoop hn _ (Nat.zero_le _) hturns

end

/-- Settles O23: the passes of an accepted CFFT are `CfftPhase`, which turns the buffer into its transform. -/
theorem cfftComputesItsStages : Obligations.CfftComputesItsStages := by
  intro lt s b hs hn
  refine ⟨_, exec_accepted (i := .cfft lt) hs, hs.commandFrame (i := .cfft lt), fun k hk => ?_⟩
  exact Updates.alike (c := ctxOf s) (updates_cfftPhase hn) (workOf s) hk

/-! ## One point (43_cfft.md R109) -/

/-- On two elements the stage loop runs no stage. -/
theorem stageLoop_of_onePoint (lt : LaneType) {c : Ctx} (hn : c.n = 2) (turns : Nat) : stageLoop lt c turns 2 = pure () := by
  cases turns with
  | zero => rfl
  | succ turns => rw [stageLoop, if_neg (by omega), if_neg (by omega)]

/-- Settles O30: no stage runs, the one pair is its own reversal, and equal elements are equal bytes. -/
theorem cfftOfOnePointIsIdentity : Obligations.CfftOfOnePointIsIdentity := by
  intro lt s hs hn
  have hsize : (ctxOf s).n = 2 := by rw [ctxOf_n, hn]; rfl
  refine ⟨_, exec_accepted (i := .cfft lt) hs, fun a => ?_⟩
  by_cases ha : InFootprint lt s a
  · refine memByte_eq_of_elements_eq (fun k hk => ?_) ha.1 ha.2
    have hmem : (cfftPasses lt (ctxOf s) (workOf s)).2.mem =
        (bitrevPass lt (ctxOf s) { workOf s with phase := .bitrev }).2.mem := by
      simp only [cfftPasses, cfftPhase, stageLoop_of_onePoint lt hsize, run_bind, run_pure, run_setPhase]
    show element lt (cfftPasses lt (ctxOf s) (workOf s)).2.mem _ k = _
    rw [hmem]
    refine (element_bitrevPass (c := ctxOf s) (b := 0) hsize _ hk).trans ?_
    have hk2 : k < 2 := by rwa [← ctxOf_n, hsize] at hk
    rw [bitrev, rev, mul_zero, zero_add, Nat.mod_eq_of_lt hk2]
    rfl
  · exact (hs.commandFrame (i := .cfft lt)).outside a ha

end Sys2Proof.Machine
end

section
/-! The untangle pass and the real transform against their closed formulas: the pass updates elements 0 and 1, the bin pairs and the
middle bin's imaginary part, no two of which have an element in common; the transform is `CfftPhase` and then the pass
(44_realfft.md R115 to R120; O24, O26, O28, O35). -/

namespace Sys2Proof.Reference

/-- The sum and the difference of a point's parts (44_realfft.md R118). -/
def sumAndDifference (lt : LaneType) (fl : Bool) (z : Machine.Point lt) : Machine.Point lt :=
  (add lt fl z.1 z.2, sub lt fl z.1 z.2)

/-- `E`, half the sum of `p` and the conjugate of `q` (44_realfft.md R119). -/
def evenHalf (lt : LaneType) (fl : Bool) (vh : Machine.LaneGroup lt) (p q : Machine.Point lt) : Machine.Point lt :=
  (mul lt fl vh (add lt fl p.1 q.1), mul lt fl vh (sub lt fl p.2 q.2))

/-- `O`, half the difference of `p` and the conjugate of `q`, turned by `-i` (44_realfft.md R119). -/
def oddHalf (lt : LaneType) (fl : Bool) (vh : Machine.LaneGroup lt) (p q : Machine.Point lt) : Machine.Point lt :=
  (mul lt fl vh (add lt fl p.2 q.2), mul lt fl vh (sub lt fl q.1 p.1))

/-- `conj(e - t)`, without a negation (44_realfft.md R119). -/
def subConj (lt : LaneType) (fl : Bool) (e t : Machine.Point lt) : Machine.Point lt :=
  (sub lt fl e.1 t.1, sub lt fl t.2 e.2)

/-- The points `E + T` and `conj(E - T)`, `T = w*O`, of a bin pair (44_realfft.md R119), by their place in the pair. -/
def untanglePoints (lt : LaneType) (fl : Bool) (w : Machine.Point lt) (vh : Machine.LaneGroup lt) (p q : Machine.Point lt) :
    Nat → Machine.Point lt
  | 0 => addPoint lt fl (evenHalf lt fl vh p q) (mulPoint lt fl w (oddHalf lt fl vh p q))
  | _ => subConj lt fl (evenHalf lt fl vh p q) (mulPoint lt fl w (oddHalf lt fl vh p q))

/-- The elements of the bins `b` and `n/2 - b`, among `n` elements (44_realfft.md R117). -/
def pairElems (n b : Nat) : Set Nat := {k | k / 2 = b ∨ k / 2 = n / 2 - b}

/-- The elements of the bin pairs: all but those of elements 0 and 1 and of the middle bin (44_realfft.md R117). -/
def pairedElems (n : Nat) : Set Nat := {k | 2 ≤ k ∧ k < n ∧ k / 2 ≠ n / 4}

/-- The elements that the untangle pass stores to: all but the middle bin's real part (44_realfft.md R117, R120). -/
def untangledElems (n : Nat) : Set Nat := {k | k < n ∧ (4 ≤ n → k ≠ n / 2)}

/-! ## The closed formula of the untangle pass, part by part -/

section
variable (lt : LaneType) (fl : Bool) (e : Nat) (x : Buffer lt)

theorem untangle_of_lt_two {k : Nat} (hk : k < 2) : untangle lt fl e x k = part (sumAndDifference lt fl (point x 0)) k := by
  interval_cases k <;> rfl

variable {e}

theorem untangle_middle_re (he : 2 ≤ e) : untangle lt fl e x (2 ^ e / 2) = x (2 ^ e / 2) := by
  have h4 : 2 ^ 2 ≤ 2 ^ e := Nat.pow_le_pow_right two_pos he
  rw [untangle, if_neg (by omega), if_neg (by omega), if_pos rfl]

theorem untangle_middle_im (he : 2 ≤ e) : untangle lt fl e x (2 ^ e / 2 + 1) =
    mul lt fl (Machine.bcast lt Machine.const64MinusOne) (x (2 ^ e / 2 + 1)) := by
  have h4 : 2 ^ 2 ≤ 2 ^ e := Nat.pow_le_pow_right two_pos he
  rw [untangle, if_neg (by omega), if_neg (by omega), if_neg (by omega), if_pos rfl]

variable {b p : Nat} (hb : 1 ≤ b) (hlt : b < 2 ^ e / 4) (hp : p < 2)
include hb hlt hp

theorem untangle_smaller_bin : untangle lt fl e x (2 * b + p) =
    part (untanglePoints lt fl (twiddle lt (rotor e b)) (Machine.bcast lt Machine.const64Half)
      (point x (2 * b)) (point x (2 ^ e - 2 * b)) 0) p := by
  have hbin : (2 * b + p) / 2 = b := by omega
  have hpart : (2 * b + p) % 2 = p := by omega
  rw [untangle, if_neg (by omega), if_neg (by omega), if_neg (by omega), if_neg (by omega), hbin, hpart, if_pos hlt, if_pos hlt]
  interval_cases p <;> rfl

theorem untangle_larger_bin (he : 2 ≤ e) : untangle lt fl e x (2 ^ e - 2 * b + p) =
    part (untanglePoints lt fl (twiddle lt (rotor e b)) (Machine.bcast lt Machine.const64Half)
      (point x (2 * b)) (point x (2 ^ e - 2 * b)) 1) p := by
  have h4 : 4 ∣ 2 ^ e := pow_dvd_pow 2 he
  have hbin : (2 ^ e - 2 * b + p) / 2 = 2 ^ e / 2 - b := by omega
  have hpart : (2 ^ e - 2 * b + p) % 2 = p := by omega
  have hmirror : 2 ^ e / 2 - (2 ^ e / 2 - b) = b := by omega
  have habove : ¬ 2 ^ e / 2 - b < 2 ^ e / 4 := by omega
  rw [untangle, if_neg (by omega), if_neg (by omega), if_neg (by omega), if_neg (by omega), hbin, hpart, if_neg habove,
    if_neg habove, hmirror]
  interval_cases p <;> rfl

end

end Sys2Proof.Reference

namespace Sys2Proof.Machine

open Sys2Proof.Reference

/-! ## DC and Nyquist (44_realfft.md R118) -/

/-- The lane operations of `DcNyquist`, between its loads and its stores. -/
def dcNyquistValues (lt : LaneType) (c : Ctx) (z : Point lt) : Eng (Point lt) := do
  let x ← ladd lt c z.1 z.2
  let y ← lsub lt c z.1 z.2
  pure (x, y)

theorem dcNyquist_eq (lt : LaneType) (c : Ctx) : dcNyquist lt c = (do
    let a ← loadPoint lt c 0
    let z ← dcNyquistValues lt c a
    storePoint lt c 0 z) := rfl

theorem computes_dcNyquistValues {lt : LaneType} {c : Ctx} {z z' : Point lt} (hz : RendersPoint lt z z') :
    Computes (dcNyquistValues lt c z) fun v => RendersPoint lt v (sumAndDifference lt c.flush z') :=
  computes_bind (computes_ladd hz.1 hz.2) fun _ hx => computes_bind (computes_lsub hz.1 hz.2) fun _ hy => computes_pure ⟨hx, hy⟩

/-- The step leaves its values in elements 0 and 1 and every other element as it was. -/
theorem dcNyquist_points {lt : LaneType} {c : Ctx} {s : Work} {a : Point lt}
    (ha : RendersPoint lt (pointAt lt s.mem c.base 0) a) :
    RendersPoint lt (pointAt lt (dcNyquist lt c s).2.mem c.base 0) (sumAndDifference lt c.flush a) ∧
    ∀ k, 2 ≤ k → element lt (dcNyquist lt c s).2.mem c.base k = element lt s.mem c.base k := by
  obtain ⟨hz, hmem⟩ := computes_dcNyquistValues (c := c) ha s
  simp only [dcNyquist_eq, run_bind, run_loadPoint, run_storePoint, hmem]
  refine ⟨?_, fun k hk => element_putPoint_other _ _ _ (by omega) (by omega)⟩
  rw [pointAt_putPoint_same _ _ hz.length.1 hz.length.2]
  exact hz

/-- Settles O35: both loads see the old values, and the stores go to elements 0 and 1. -/
theorem dcNyquistResult : Obligations.DcNyquistResult := by
  intro lt c w
  obtain ⟨⟨hsum, hdifference⟩, hothers⟩ := dcNyquist_points ((holds_element lt c Set.univ w).point (i := 0) trivial trivial)
  exact ⟨hsum.alike, hdifference.alike, hothers⟩

theorem updates_dcNyquist (lt : LaneType) (c : Ctx) (e : Nat) (x : Buffer lt) :
    Updates lt c {k | k < 2} x (untangle lt c.flush e x) (dcNyquist lt c) := by
  intro w hx
  obtain ⟨hpoint, hothers⟩ := dcNyquist_points (hx.point (i := 0) (show 0 < 2 by decide) (show 1 < 2 by decide))
  refine ⟨fun k hk => ?_, fun k hk => hothers k (Nat.not_lt.1 hk)⟩
  have halike := hpoint.alike_part hk
  rw [zero_add] at halike
  rwa [untangle_of_lt_two _ _ _ _ hk]

/-! ## A bin pair (44_realfft.md R119) -/

/-- The lane operations of `UntanglePair`, between its loads and its stores. -/
def untanglePairValues (lt : LaneType) (c : Ctx) (w : Point lt) (vh : LaneGroup lt) (p q : Point lt) : Eng (Nat → Point lt) := do
  let sac ← ladd lt c p.1 q.1
  let er ← lmul lt c vh sac
  let dbd ← lsub lt c p.2 q.2
  let ei ← lmul lt c vh dbd
  let sbd ← ladd lt c p.2 q.2
  let or' ← lmul lt c vh sbd
  let dca ← lsub lt c q.1 p.1
  let oi ← lmul lt c vh dca
  let t ← mulPoint lt c w (or', oi)
  let x ← addPoint lt c (er, ei) t
  let yr ← lsub lt c er t.1
  let yi ← lsub lt c t.2 ei
  pure fun
    | 0 => x
    | _ => (yr, yi)

theorem untanglePair_eq (lt : LaneType) (c : Ctx) (w : Point lt) (vh : LaneGroup lt) (i1 i3 : Nat) :
    untanglePair lt c w vh i1 i3 = (do
      let p ← loadPoint lt c i1
      let q ← loadPoint lt c i3
      let z ← untanglePairValues lt c w vh p q
      storePoint lt c i1 (z 0)
      storePoint lt c i3 (z 1)) := by
  simp only [untanglePair, untanglePairValues, bind_assoc, pure_bind]

section
variable {lt : LaneType} {c : Ctx} {w w' : Point lt} {vh vh' : LaneGroup lt} (hw : RendersPoint lt w w') (hvh : Renders lt vh vh')
include hw hvh

theorem computes_untanglePairValues {p q p' q' : Point lt} (hp : RendersPoint lt p p') (hq : RendersPoint lt q q') :
    Computes (untanglePairValues lt c w vh p q) fun z => ∀ l, RendersPoint lt (z l) (untanglePoints lt c.flush w' vh' p' q' l) := by
  refine computes_bind (computes_ladd hp.1 hq.1) fun _ hsac => computes_bind (computes_lmul hvh hsac) fun _ her =>
    computes_bind (computes_lsub hp.2 hq.2) fun _ hdbd => computes_bind (computes_lmul hvh hdbd) fun _ hei =>
    computes_bind (computes_ladd hp.2 hq.2) fun _ hsbd => computes_bind (computes_lmul hvh hsbd) fun _ hor =>
    computes_bind (computes_lsub hq.1 hp.1) fun _ hdca => computes_bind (computes_lmul hvh hdca) fun _ hoi =>
    computes_bind (computes_mulPoint (y' := oddHalf lt c.flush vh' p' q') hw ⟨hor, hoi⟩) fun _ ht =>
    computes_bind (computes_addPoint (x' := evenHalf lt c.flush vh' p' q') ⟨her, hei⟩ ht) fun _ hx =>
    computes_bind (computes_lsub her ht.1) fun _ hyr => computes_bind (computes_lsub ht.2 hei) fun _ hyi => computes_pure ?_
  rintro (_ | l)
  · exact hx
  · exact ⟨hyr, hyi⟩

/-- The untangling of disjoint points leaves its values in them and every other element as it was. -/
theorem untanglePair_points {i j : Nat} (hij : i + 1 < j) {s : Work} {p q : Point lt}
    (hp : RendersPoint lt (pointAt lt s.mem c.base i) p) (hq : RendersPoint lt (pointAt lt s.mem c.base j) q) :
    RendersPoint lt (pointAt lt (untanglePair lt c w vh i j s).2.mem c.base i) (untanglePoints lt c.flush w' vh' p q 0) ∧
    RendersPoint lt (pointAt lt (untanglePair lt c w vh i j s).2.mem c.base j) (untanglePoints lt c.flush w' vh' p q 1) ∧
    ∀ k, k ≠ i → k ≠ i + 1 → k ≠ j → k ≠ j + 1 →
      element lt (untanglePair lt c w vh i j s).2.mem c.base k = element lt s.mem c.base k := by
  obtain ⟨hz, hmem⟩ := computes_untanglePairValues (c := c) hw hvh hp hq s
  simp only [untanglePair_eq, run_bind, run_loadPoint, run_storePoint, hmem]
  refine ⟨?_, ?_, fun k h0 h1 h2 h3 => ?_⟩
  · rw [pointAt_putPoint_other _ _ _ (by omega), pointAt_putPoint_same _ _ (hz 0).length.1 (hz 0).length.2]
    exact hz 0
  · rw [pointAt_putPoint_same _ _ (hz 1).length.1 (hz 1).length.2]
    exact hz 1
  · rw [element_putPoint_other _ _ _ h2 h3, element_putPoint_other _ _ _ h0 h1]

end

theorem updates_untanglePair {lt : LaneType} {c : Ctx} {e b : Nat} (he : 2 ≤ e) (hn : c.n = 2 ^ e) (x : Buffer lt) (hb : 1 ≤ b)
    (hlt : b < c.n / 4) : Updates lt c (pairElems c.n b) x (untangle lt c.flush e x)
      (untanglePair lt c (twiddle lt (rotor e b)) (bcast lt const64Half) (2 * b) (c.n - 2 * b)) := by
  have h4 : 4 ∣ c.n := hn ▸ pow_dvd_pow 2 he
  have hmem (k : Nat) : k ∈ pairElems c.n b ↔ k = 2 * b + k % 2 ∨ k = c.n - 2 * b + k % 2 := by
    show k / 2 = b ∨ k / 2 = c.n / 2 - b ↔ _
    omega
  intro w hx
  obtain ⟨hsmaller, hlarger, hothers⟩ := untanglePair_points (c := c) (rendersPoint_twiddle lt (rotor e b))
    (renders_bcast lt const64Half) (show 2 * b + 1 < c.n - 2 * b by omega)
    (hx.point ((hmem _).2 (by omega)) ((hmem _).2 (by omega))) (hx.point ((hmem _).2 (by omega)) ((hmem _).2 (by omega)))
  refine ⟨fun k hk => ?_, fun k hk => ?_⟩
  · have hpart : k % 2 < 2 := Nat.mod_lt k two_pos
    rcases (hmem k).1 hk with h | h
    · rw [h, untangle_smaller_bin lt _ x hb (hn ▸ hlt) hpart, ← hn]
      exact hsmaller.alike_part hpart
    · rw [h, hn, untangle_larger_bin lt _ x hb (hn ▸ hlt) hpart he, ← hn]
      exact hlarger.alike_part hpart
  · rw [hmem] at hk
    exact hothers k (by omega) (by omega) (by omega) (by omega)

/-! ## The middle bin (44_realfft.md R120) -/

theorem updates_middleBin {lt : LaneType} {c : Ctx} {e : Nat} (he : 2 ≤ e) (hn : c.n = 2 ^ e) (x : Buffer lt) :
    Updates lt c {c.n / 2 + 1} x (untangle lt c.flush e x) (middleBin lt c) := by
  intro w hx
  obtain ⟨hz, hmem⟩ := computes_lmul (c := c) (renders_bcast lt const64MinusOne)
    ⟨hx (c.n / 2 + 1) rfl, length_element lt w.mem c.base _⟩ w
  simp only [Holds, middleBin, run_bind, run_lload, run_lstore, hmem]
  refine ⟨fun k hk => ?_, fun k hk => element_putElement_other _ _ _ hk⟩
  obtain rfl : k = c.n / 2 + 1 := hk
  rw [element_putElement_same _ _ _ hz.length, hn, untangle_middle_im _ _ _ he, ← hn]
  exact hz.alike

/-! ## The pass (44_realfft.md R117) -/

/-- The pairs of all turns of the loop have the elements of the bin pairs and no others. -/
theorem exists_pair_iff {n : Nat} (h4 : 4 ∣ n) (k : Nat) :
    (∃ b ∈ countUp 1 1 (n / 4), k ∈ pairElems n b) ↔ k ∈ pairedElems n := by
  show _ ↔ 2 ≤ k ∧ k < n ∧ k / 2 ≠ n / 4
  constructor
  · rintro ⟨b, hb, hk | hk⟩ <;> obtain ⟨_, rfl, hlt⟩ := (mem_countUp one_pos).1 hb <;> omega
  · rintro ⟨hlo, hhi, hne⟩
    by_cases hlow : k / 2 < n / 4
    · exact ⟨k / 2, (mem_countUp one_pos).2 ⟨k / 2 - 1, by omega, hlow⟩, .inl rfl⟩
    · exact ⟨n / 2 - k / 2, (mem_countUp one_pos).2 ⟨n / 2 - k / 2 - 1, by omega, by omega⟩, .inr (by omega)⟩

/-- The loop over the bin pairs: pair `b` has the twiddle after `b` advances, and no two pairs have an element in common. -/
theorem updates_untanglePairs {lt : LaneType} {c : Ctx} {e : Nat} (he : 2 ≤ e) (hn : c.n = 2 ^ e) (x : Buffer lt) :
    Updates lt c (pairedElems c.n) x (untangle lt c.flush e x) (forFold (countUp 1 1 (c.n / 4)) (twInit c.n.log2) fun t b => do
      untanglePair lt c (twiddle lt (twAdv t)) (bcast lt const64Half) (2 * b) (c.n - 2 * b)
      pure (twAdv t)) := by
  have h4 : 4 ∣ c.n := hn ▸ pow_dvd_pow 2 he
  have hlog : c.n.log2 = e := by rw [hn, Nat.log2_two_pow]
  have hall : {k | ∃ b ∈ countUp 1 1 (c.n / 4), k ∈ pairElems c.n b} = pairedElems c.n := Set.ext (exists_pair_iff h4)
  rw [hlog, ← hall]
  refine updates_forFold (rotor e) (nodup_countUp _ _ one_pos) (fun b hb b' hb' hne => ?_) (fun t _ _ => (rotor_succ e t).symm)
    fun t b hb => ?_
  · obtain ⟨_, -, hlt⟩ := (mem_countUp one_pos).1 hb
    obtain ⟨_, -, hlt'⟩ := (mem_countUp one_pos).1 hb'
    rw [Set.disjoint_left]
    rintro k (hk | hk) (hk' | hk') <;> omega
  · obtain ⟨_, -, hlt⟩ := (mem_countUp one_pos).1 (List.mem_of_getElem? hb)
    have hturn : b = t + 1 := by rw [countUp_getElem? hb]; ring
    rw [← rotor_succ, ← hturn]
    exact updates_bind (updates_untanglePair he hn x (by omega) hlt) fun _ => updates_pure _

/-- The three steps are on disjoint elements, and on two elements there is only the first of them. -/
theorem updates_untanglePass {lt : LaneType} {c : Ctx} {e : Nat} (he : 1 ≤ e) (hn : c.n = 2 ^ e) (x : Buffer lt) :
    Updates lt c (untangledElems c.n) x (untangle lt c.flush e x) (untanglePass lt c) := by
  by_cases h2 : 2 ≤ e
  · have hd : 4 ∣ c.n := hn ▸ pow_dvd_pow 2 h2
    have hpos : 0 < c.n := hn ▸ Nat.two_pow_pos e
    have hall : untangledElems c.n = {k | k < 2} ∪ (pairedElems c.n ∪ {c.n / 2 + 1}) := by
      ext k
      show k < c.n ∧ (4 ≤ c.n → k ≠ c.n / 2) ↔ k < 2 ∨ (2 ≤ k ∧ k < c.n ∧ k / 2 ≠ c.n / 4) ∨ k = c.n / 2 + 1
      omega
    rw [hall]
    refine updates_bind_disjoint ?_ (updates_dcNyquist lt c e x) fun _ => ?_
    · rw [Set.disjoint_left]
      rintro k (hk : k < 2) (⟨hpair, -⟩ | (hmiddle : k = c.n / 2 + 1)) <;> omega
    rw [if_pos (by omega)]
    refine updates_bind_disjoint ?_ (updates_untanglePairs h2 hn x) fun _ => updates_middleBin h2 hn x
    rw [Set.disjoint_singleton_right]
    rintro ⟨-, -, hne⟩
    omega
  · obtain rfl : e = 1 := by omega
    have hall : untangledElems c.n = {k | k < 2} := by
      ext k
      show k < c.n ∧ (4 ≤ c.n → k ≠ c.n / 2) ↔ k < 2
      omega
    rw [hall]
    refine updates_bind (updates_dcNyquist lt c 1 x) fun _ => ?_
    rw [if_neg (by omega)]
    exact updates_pure _

/-- An update that leaves the rest of a set as it was is an update of the whole set. -/
theorem Updates.mono {α : Type} {lt : LaneType} {c : Ctx} {S T : Set Nat} {x y : Buffer lt} {act : Eng α}
    (h : Updates lt c S x y act) (hsub : S ⊆ T) (hrest : ∀ k ∈ T, k ∉ S → y k = x k) : Updates lt c T x y act := by
  intro w hx
  obtain ⟨hy, hkept⟩ := h w fun k hk => hx k (hsub hk)
  refine ⟨fun k hk => ?_, fun k hk => hkept k fun hS => hk (hsub hS)⟩
  by_cases hS : k ∈ S
  · exact hy k hS
  · rw [hkept k hS, hrest k hk hS]
    exact hx k hk

/-- The middle bin's real part is its own value in the formula, so an update of the other elements is one of the whole buffer. -/
theorem Updates.wholeBuffer {α : Type} {lt : LaneType} {c : Ctx} {e : Nat} {x : Buffer lt} {act : Eng α}
    (h : Updates lt c (untangledElems c.n) x (untangle lt c.flush e x) act) (hn : c.n = 2 ^ e) :
    Updates lt c {k | k < c.n} x (untangle lt c.flush e x) act := by
  refine h.mono (fun _ hk => hk.1) fun k hk hout => ?_
  have hmiddle : 4 ≤ c.n ∧ k = c.n / 2 := by
    by_contra hno
    exact hout ⟨hk, fun h4 hmid => hno ⟨h4, hmid⟩⟩
  obtain ⟨h4, rfl⟩ := hmiddle
  have h2 : 2 ≤ e := (Nat.pow_le_pow_iff_right one_lt_two).1 (hn ▸ h4)
  rw [hn, untangle_middle_re _ _ _ h2]

/-! ## The commands (44_realfft.md R115, R116) -/

theorem Accepts.exists_eq_succ {lt : LaneType} {s : State} (h : Accepts lt s) {e : Nat} (hn : s.n.toNat = 2 ^ e) :
    ∃ b, e = b + 1 := by
  obtain ⟨b, hb⟩ := h.exists_size
  exact ⟨b, Nat.pow_right_injective le_rfl (hn.symm.trans hb)⟩

/-- The elements that UNTANGLE stores to hold the formula, and every other element is as it was. -/
theorem updates_untanglePasses {lt : LaneType} {c : Ctx} {b : Nat} (hn : c.n = 2 ^ (b + 1)) (x : Buffer lt) :
    Updates lt c (untangledElems c.n) x (untangle lt c.flush (b + 1) x) (untanglePasses lt c) :=
  updates_bind (updates_setPhase _) fun _ =>
    updates_bind (updates_untanglePass (Nat.le_add_left 1 b) hn x) fun _ => updates_setPhase _

/-- Settles O24: the passes of an accepted UNTANGLE update the buffer, and they never store to the middle bin's real part. -/
theorem untangleResult : Obligations.UntangleResult := by
  intro lt s e hs hn
  obtain ⟨b, rfl⟩ := hs.exists_eq_succ hn
  have hpasses := updates_untanglePasses (lt := lt) (c := ctxOf s) hn
  refine ⟨_, exec_accepted (i := .untangle lt) hs, hs.commandFrame (i := .untangle lt), fun k hk => ?_, fun h2 => ?_⟩
  · exact Updates.alike (fun x => (hpasses x).wholeBuffer hn) (workOf s) hk
  · have h4 : 2 ^ 2 ≤ 2 ^ (b + 1) := Nat.pow_le_pow_right two_pos h2
    have hmiddle : 2 ^ b ∉ untangledElems (ctxOf s).n := by
      rintro ⟨-, hne⟩
      rw [ctxOf_n, hn] at hne
      omega
    exact (hpasses _ (workOf s) (holds_element lt _ _ _)).2 _ hmiddle

theorem updates_rfftPasses {lt : LaneType} {c : Ctx} {b : Nat} (hn : c.n = 2 ^ (b + 1)) (x : Buffer lt) :
    Updates lt c {k | k < c.n} x (rfft lt c.flush (b + 1) x) (rfftPasses lt c) :=
  updates_bind (updates_cfftPhase hn x) fun _ => updates_bind (updates_setPhase _) fun _ =>
    updates_bind ((updates_untanglePass (Nat.le_add_left 1 b) hn _).wholeBuffer hn) fun _ => updates_setPhase _

/-- Settles O26: `CfftPhase` turns the buffer into its transform, and the untangle pass that into the real transform. -/
theorem rfftResult : Obligations.RfftResult := by
  intro lt s e hs hn
  obtain ⟨b, rfl⟩ := hs.exists_eq_succ hn
  exact ⟨_, exec_accepted (i := .rfft lt) hs, hs.commandFrame (i := .rfft lt), fun k hk =>
    Updates.alike (c := ctxOf s) (updates_rfftPasses hn) (workOf s) hk⟩

/-- The passes of RFFT leave memory as those of CFFT and then of UNTANGLE: in between the runs differ in PHASE only (R115). -/
theorem rfftPasses_mem (lt : LaneType) (c : Ctx) (w : Work) :
    (rfftPasses lt c w).2.mem = (untanglePasses lt c { (cfftPasses lt c w).2 with phase := .check }).2.mem := rfl

/-- Settles O28: CFFT keeps the registers, so UNTANGLE is accepted after it and runs the pass on the same memory and draws. -/
theorem rfftIsCfftThenUntangle : Obligations.RfftIsCfftThenUntangle := by
  intro lt s hs
  have hu : Accepts lt (finish (cfftPasses lt (ctxOf s) (workOf s)).2 s) := hs.congr rfl rfl rfl hs.live
  exact ⟨_, _, _, exec_accepted (i := .rfft lt) hs, exec_accepted (i := .cfft lt) hs, exec_accepted (i := .untangle lt) hu,
    rfftPasses_mem lt _ _⟩

end Sys2Proof.Machine
end

section
/-! The inverse-preparation pass and the inverse real transform against their closed formulas: the pass updates elements 0 and 1, the
bin pairs and the middle bin, no two of which have an element in common; the transform is the pass, the untangle pass and then
`CfftPhase` (45_inverse.md R125 to R127; O25, O27, O29). -/

namespace Sys2Proof.Reference

/-- Both parts of a point multiplied by one factor (45_inverse.md R127). -/
def scalePoint (lt : LaneType) (fl : Bool) (z : Machine.Point lt) (v : Machine.LaneGroup lt) : Machine.Point lt :=
  (mul lt fl z.1 v, mul lt fl z.2 v)

/-- The elements of the bins, all but elements 0 and 1, among `n` elements (44_realfft.md R121). -/
def binElems (n : Nat) : Set Nat := {k | 2 ≤ k ∧ k < n}

/-! ## The closed formula of the inverse-preparation pass, part by part -/

section
variable (lt : LaneType) (fl : Bool) (e : Nat) (x : Buffer lt)

theorem invprep_of_lt_two {k : Nat} (hk : k < 2) :
    invprep lt fl e x k = mul lt fl (x k) (Machine.bcast lt (Machine.const64Pow e)) := if_pos hk

variable {e}

/-- A bin receives its mirror bin. -/
theorem point_invprep {b : Nat} (hb : 1 ≤ b) : point (invprep lt fl e x) (2 * b) =
    scalePoint lt fl (point x (2 ^ e - 2 * b)) (Machine.bcast lt (Machine.const64Pow (e - 1))) := by
  have hbin : (2 * b + 1) / 2 = b := by omega
  have hpart : (2 * b + 1) % 2 = 1 := by omega
  rw [point, invprep, invprep, if_neg (by omega), if_neg (by omega), hbin, hpart, Nat.mul_div_cancel_left b two_pos,
    Nat.mul_mod_right]
  rfl

/-- The mirror of the mirror bin is the bin itself. -/
theorem point_invprep_mirror (he : 1 ≤ e) {b : Nat} (hb : 2 * b < 2 ^ e) : point (invprep lt fl e x) (2 ^ e - 2 * b) =
    scalePoint lt fl (point x (2 * b)) (Machine.bcast lt (Machine.const64Pow (e - 1))) := by
  have h2 : 2 ∣ 2 ^ e := dvd_pow_self 2 (by omega)
  have hbin : 2 ^ e - 2 * b = 2 * (2 ^ e / 2 - b) := by omega
  have hmirror : 2 ^ e - 2 * (2 ^ e / 2 - b) = 2 * b := by omega
  rw [hbin, point_invprep lt fl x (by omega), hmirror]

/-- The middle bin is its own mirror. -/
theorem point_invprep_middle (he : 2 ≤ e) : point (invprep lt fl e x) (2 ^ e / 2) =
    scalePoint lt fl (point x (2 ^ e / 2)) (Machine.bcast lt (Machine.const64Pow (e - 1))) := by
  have h4 : 4 ∣ 2 ^ e := pow_dvd_pow 2 he
  have hpos : 0 < 2 ^ e := Nat.two_pow_pos e
  have hbin : 2 ^ e / 2 = 2 * (2 ^ e / 4) := by omega
  have hmirror : 2 ^ e - 2 * (2 ^ e / 4) = 2 * (2 ^ e / 4) := by omega
  rw [hbin, point_invprep lt fl x (by omega), hmirror]

end

end Sys2Proof.Reference

namespace Sys2Proof.Machine

open Sys2Proof.Reference

/-! ## One element in place (45_inverse.md R127) -/

theorem updates_scaleElement {lt : LaneType} {c : Ctx} {x y : Buffer lt} {vs : LaneGroup lt} (hvs : Renders lt vs vs) {k : Nat}
    (hy : y k = mul lt c.flush (x k) vs) : Updates lt c {k} x y (scaleElement lt c vs k) := by
  intro w hx
  obtain ⟨hz, hmem⟩ := computes_lmul (c := c) ⟨hx k rfl, length_element lt w.mem c.base _⟩ hvs w
  simp only [Holds, scaleElement, run_bind, run_lload, run_lstore, hmem]
  refine ⟨fun j hj => ?_, fun j hj => element_putElement_other _ _ _ hj⟩
  obtain rfl : j = k := hj
  rw [element_putElement_same _ _ _ hz.length, hy]
  exact hz.alike

/-! ## A bin pair (45_inverse.md R127) -/

/-- The lane operations on one point of a bin pair. -/
def scalePoint (lt : LaneType) (c : Ctx) (z : Point lt) (vs : LaneGroup lt) : Eng (Point lt) := do
  let re ← lmul lt c z.1 vs
  let im ← lmul lt c z.2 vs
  pure (re, im)

theorem mirrorPair_eq (lt : LaneType) (c : Ctx) (vs : LaneGroup lt) (i1 i3 : Nat) :
    mirrorPair lt c vs i1 i3 = (do
      let p ← loadPoint lt c i1
      let q ← loadPoint lt c i3
      let y ← scalePoint lt c q vs
      let z ← scalePoint lt c p vs
      storePoint lt c i1 y
      storePoint lt c i3 z) := rfl

section
variable {lt : LaneType} {c : Ctx} {vs : LaneGroup lt} (hvs : Renders lt vs vs)
include hvs

theorem computes_scalePoint {z z' : Point lt} (hz : RendersPoint lt z z') :
    Computes (scalePoint lt c z vs) fun y => RendersPoint lt y (Reference.scalePoint lt c.flush z' vs) :=
  computes_bind (computes_lmul hz.1 hvs) fun _ hre => computes_bind (computes_lmul hz.2 hvs) fun _ him => computes_pure ⟨hre, him⟩

/-- The exchange of disjoint points leaves each scaled in the other's place and every other element as it was. -/
theorem mirrorPair_points {i j : Nat} (hij : i + 1 < j) {s : Work} {p q : Point lt}
    (hp : RendersPoint lt (pointAt lt s.mem c.base i) p) (hq : RendersPoint lt (pointAt lt s.mem c.base j) q) :
    RendersPoint lt (pointAt lt (mirrorPair lt c vs i j s).2.mem c.base i) (Reference.scalePoint lt c.flush q vs) ∧
    RendersPoint lt (pointAt lt (mirrorPair lt c vs i j s).2.mem c.base j) (Reference.scalePoint lt c.flush p vs) ∧
    ∀ k, k ≠ i → k ≠ i + 1 → k ≠ j → k ≠ j + 1 →
      element lt (mirrorPair lt c vs i j s).2.mem c.base k = element lt s.mem c.base k := by
  obtain ⟨hy, hmem⟩ := computes_scalePoint (c := c) hvs hq s
  obtain ⟨hz, hmem'⟩ := computes_scalePoint (c := c) hvs hp (scalePoint lt c (pointAt lt s.mem c.base j) vs s).2
  simp only [mirrorPair_eq, run_bind, run_loadPoint, run_storePoint, hmem', hmem]
  refine ⟨?_, ?_, fun k h0 h1 h2 h3 => ?_⟩
  · rw [pointAt_putPoint_other _ _ _ (by omega), pointAt_putPoint_same _ _ hy.length.1 hy.length.2]
    exact hy
  · rw [pointAt_putPoint_same _ _ hz.length.1 hz.length.2]
    exact hz
  · rw [element_putPoint_other _ _ _ h2 h3, element_putPoint_other _ _ _ h0 h1]

end

theorem updates_mirrorPair {lt : LaneType} {c : Ctx} {e b : Nat} (he : 2 ≤ e) (hn : c.n = 2 ^ e) (x : Buffer lt) (hb : 1 ≤ b)
    (hlt : b < c.n / 4) : Updates lt c (pairElems c.n b) x (invprep lt c.flush e x)
      (mirrorPair lt c (bcast lt (const64Pow (e - 1))) (2 * b) (c.n - 2 * b)) := by
  have h4 : 4 ∣ c.n := hn ▸ pow_dvd_pow 2 he
  have hmem (k : Nat) : k ∈ pairElems c.n b ↔ k = 2 * b ∨ k = 2 * b + 1 ∨ k = c.n - 2 * b ∨ k = c.n - 2 * b + 1 := by
    show k / 2 = b ∨ k / 2 = c.n / 2 - b ↔ _
    omega
  intro w hx
  obtain ⟨hsmaller, hlarger, hothers⟩ := mirrorPair_points (c := c) (renders_bcast lt (const64Pow (e - 1)))
    (show 2 * b + 1 < c.n - 2 * b by omega) (hx.point ((hmem _).2 (by omega)) ((hmem _).2 (by omega)))
    (hx.point ((hmem _).2 (by omega)) ((hmem _).2 (by omega)))
  refine ⟨fun k hk => ?_, fun k hk => ?_⟩
  · rw [hn, ← point_invprep lt _ x hb, ← hn] at hsmaller
    rw [← point_invprep_mirror lt _ x (by omega) (by omega), ← hn] at hlarger
    rcases (hmem k).1 hk with rfl | rfl | rfl | rfl
    · exact hsmaller.1.alike
    · exact hsmaller.2.alike
    · exact hlarger.1.alike
    · exact hlarger.2.alike
  · rw [hmem] at hk
    exact hothers k (by omega) (by omega) (by omega) (by omega)

/-! ## The pass (45_inverse.md R127) -/

/-- The loop over the bin pairs, no two of which have an element in common. -/
theorem updates_mirrorPairs {lt : LaneType} {c : Ctx} {e : Nat} (he : 2 ≤ e) (hn : c.n = 2 ^ e) (x : Buffer lt) :
    Updates lt c (pairedElems c.n) x (invprep lt c.flush e x) (forEach (countUp 1 1 (c.n / 4)) fun b =>
      mirrorPair lt c (bcast lt (const64Pow (e - 1))) (2 * b) (c.n - 2 * b)) := by
  have h4 : 4 ∣ c.n := hn ▸ pow_dvd_pow 2 he
  rw [← show {k | ∃ b ∈ countUp 1 1 (c.n / 4), k ∈ pairElems c.n b} = pairedElems c.n from Set.ext (exists_pair_iff h4)]
  refine updates_forEach (nodup_countUp _ _ one_pos) (fun b hb b' hb' hne => ?_) fun b hb => ?_
  · obtain ⟨_, -, hlt⟩ := (mem_countUp one_pos).1 hb
    obtain ⟨_, -, hlt'⟩ := (mem_countUp one_pos).1 hb'
    rw [Set.disjoint_left]
    rintro k (hk | hk) (hk' | hk') <;> omega
  · obtain ⟨_, rfl, hlt⟩ := (mem_countUp one_pos).1 hb
    exact updates_mirrorPair he hn x (by omega) hlt

/-- The steps on the bins: the pairs, then the middle bin; on two elements there is no bin. -/
theorem updates_invPrepBins {lt : LaneType} {c : Ctx} {e : Nat} (he : 1 ≤ e) (hn : c.n = 2 ^ e) (x : Buffer lt) :
    Updates lt c (binElems c.n) x (invprep lt c.flush e x) (do
      forEach (countUp 1 1 (c.n / 4)) fun b => mirrorPair lt c (bcast lt (const64Pow (e - 1))) (2 * b) (c.n - 2 * b)
      if 4 ≤ c.n then do
        scaleElement lt c (bcast lt (const64Pow (e - 1))) (c.n / 2)
        scaleElement lt c (bcast lt (const64Pow (e - 1))) (c.n / 2 + 1)) := by
  by_cases h2 : 2 ≤ e
  · have hd : 4 ∣ c.n := hn ▸ pow_dvd_pow 2 h2
    have hpos : 0 < c.n := hn ▸ Nat.two_pow_pos e
    have hall : binElems c.n = pairedElems c.n ∪ ({c.n / 2} ∪ {c.n / 2 + 1}) := by
      ext k
      show 2 ≤ k ∧ k < c.n ↔ (2 ≤ k ∧ k < c.n ∧ k / 2 ≠ c.n / 4) ∨ k = c.n / 2 ∨ k = c.n / 2 + 1
      omega
    obtain ⟨hre, him⟩ := Prod.ext_iff.1 (point_invprep_middle lt c.flush x h2)
    rw [← hn] at hre him
    have hscale := renders_bcast lt (const64Pow (e - 1))
    rw [hall]
    refine updates_bind_disjoint ?_ (updates_mirrorPairs h2 hn x) fun _ => ?_
    · rw [Set.disjoint_left]
      rintro k ⟨-, -, hpaired⟩ ((hmiddle : k = c.n / 2) | (hmiddle : k = c.n / 2 + 1)) <;> omega
    · rw [if_pos (by omega)]
      exact updates_bind_disjoint (by simp) (updates_scaleElement hscale hre) fun _ => updates_scaleElement hscale him
  · obtain rfl : e = 1 := by omega
    have hnone : binElems c.n = ∅ := by
      refine Set.eq_empty_of_forall_notMem fun k hk => ?_
      obtain ⟨hlo, hhi⟩ := hk
      omega
    rw [hnone, hn]
    exact fun _ _ => ⟨fun _ hk => hk.elim, fun _ _ => rfl⟩

/-- The steps of the pass are on disjoint elements and leave none out. -/
theorem updates_invPrep {lt : LaneType} {c : Ctx} {e : Nat} (he : 1 ≤ e) (hn : c.n = 2 ^ e) (x : Buffer lt) :
    Updates lt c {k | k < c.n} x (invprep lt c.flush e x) (invPrep lt c) := by
  have hlog : c.n.log2 = e := by rw [hn, Nat.log2_two_pow]
  have h2 : 2 ^ 1 ≤ 2 ^ e := Nat.pow_le_pow_right two_pos he
  have hall : {k | k < c.n} = {0} ∪ ({1} ∪ binElems c.n) := by
    ext k
    show k < c.n ↔ k = 0 ∨ k = 1 ∨ 2 ≤ k ∧ k < c.n
    omega
  have hscale := renders_bcast lt (const64Pow e)
  rw [invPrep, hlog, hall]
  refine updates_bind_disjoint ?_ (updates_scaleElement hscale (invprep_of_lt_two lt _ e x two_pos)) fun _ =>
    updates_bind_disjoint ?_ (updates_scaleElement hscale (invprep_of_lt_two lt _ e x one_lt_two)) fun _ =>
    updates_invPrepBins he hn x
  · simp [binElems]
  · simp [binElems]

/-! ## The commands (45_inverse.md R125, R126) -/

theorem updates_invprepPasses {lt : LaneType} {c : Ctx} {b : Nat} (hn : c.n = 2 ^ (b + 1)) (x : Buffer lt) :
    Updates lt c {k | k < c.n} x (invprep lt c.flush (b + 1) x) (invprepPasses lt c) :=
  updates_bind (updates_setPhase _) fun _ =>
    updates_bind (updates_invPrep (Nat.le_add_left 1 b) hn x) fun _ => updates_setPhase _

/-- Settles O25: the passes of an accepted INVPREP turn the buffer into its preparation. -/
theorem invprepResult : Obligations.InvprepResult := by
  intro lt s e hs hn
  obtain ⟨b, rfl⟩ := hs.exists_eq_succ hn
  exact ⟨_, exec_accepted (i := .invprep lt) hs, hs.commandFrame (i := .invprep lt), fun k hk =>
    Updates.alike (c := ctxOf s) (updates_invprepPasses hn) (workOf s) hk⟩

theorem updates_irfftPasses {lt : LaneType} {c : Ctx} {b : Nat} (hn : c.n = 2 ^ (b + 1)) (x : Buffer lt) :
    Updates lt c {k | k < c.n} x (irfft lt c.flush (b + 1) x) (irfftPasses lt c) :=
  updates_bind (updates_setPhase _) fun _ => updates_bind (updates_invPrep (Nat.le_add_left 1 b) hn x) fun _ =>
    updates_bind (updates_setPhase _) fun _ =>
    updates_bind ((updates_untanglePass (Nat.le_add_left 1 b) hn _).wholeBuffer hn) fun _ =>
    updates_bind (updates_cfftPhase hn _) fun _ => updates_setPhase _

/-- Settles O27: the preparation, the untangle pass and `CfftPhase` each turn the whole buffer into their formula of it. -/
theorem irfftResult : Obligations.IrfftResult := by
  intro lt s e hs hn
  obtain ⟨b, rfl⟩ := hs.exists_eq_succ hn
  exact ⟨_, exec_accepted (i := .irfft lt) hs, hs.commandFrame (i := .irfft lt), fun k hk =>
    Updates.alike (c := ctxOf s) (updates_irfftPasses hn) (workOf s) hk⟩

/-- The passes of IRFFT leave memory as those of INVPREP, UNTANGLE and CFFT: in between the runs differ in PHASE only (R125). -/
theorem irfftPasses_mem (lt : LaneType) (c : Ctx) (w : Work) :
    (irfftPasses lt c w).2.mem = (cfftPasses lt c { (untanglePasses lt c
      { (invprepPasses lt c w).2 with phase := .check }).2 with phase := .check }).2.mem := rfl

/-- Ending a command keeps what the next command's checks read: the parameters, N, BASE and STATUS. -/
theorem Accepts.finish {lt : LaneType} {s : State} (h : Accepts lt s) (w : Work) : Accepts lt (finish w s) :=
  h.congr rfl rfl rfl h.live

/-- Settles O29: each next command is accepted after the one before, and runs its passes on the same memory and draws. -/
theorem irfftIsItsThreePasses : Obligations.IrfftIsItsThreePasses := fun lt _ hs =>
  ⟨_, _, _, _, exec_accepted (i := .irfft lt) hs, exec_accepted (i := .invprep lt) hs,
    exec_accepted (i := .untangle lt) (hs.finish _), exec_accepted (i := .cfft lt) ((hs.finish _).finish _),
    irfftPasses_mem lt _ _⟩

end Sys2Proof.Machine
end

section
/-! The faults of a command: which test of CHECK decides, what the fault entry leaves, and the obligations about faults and the
FAULTED state (spec/60_exceptions.md). -/

namespace Sys2Proof.Machine

/-! ## A command on a FAULTED engine, and a command that faults (60_exceptions.md R141, R143) -/

theorem exec_faulted (i : Instr) {s : State} (hf : faulted s = true) : exec i s = .next s := by
  simp [exec_eq, runCommand, hf]

/-- The first failing test of CHECK decides the fault entry, which is all the command does. -/
theorem exec_checkFault {i : Instr} {s : State} (hf : faulted s = false) {c : Cause} {x : Word64}
    (hc : checkFault i s = some (c, x)) : exec i s = .next (raiseFault c x s) := by
  simp [exec_eq, runCommand, hf, hc]

/-- The causes a fault entry records are those of the table (60_exceptions.md R136). -/
theorem statusCause_statusOf (c : Cause) : statusCause (statusOf c) = causeCode c := by cases c <;> decide

theorem causeCode_bounds (c : Cause) : 1 ≤ (causeCode c).toNat ∧ (causeCode c).toNat ≤ 6 := by cases c <;> decide

/-! ## The priority of the tests (60_exceptions.md R137) -/

theorem badSize_of_legalSize {n : Word32} (h : LegalSize n) : badSize n = false :=
  Bool.eq_false_iff.2 fun hb => (badSize_iff n).1 hb h

theorem checkFault_badN {i : Instr} {s : State} (hlane : i.lt.present s.params = true) (hsize : ¬ LegalSize s.n) :
    checkFault i s = some (.badN, s.n.setWidth 64) := by
  simp [checkFault, hlane, (badSize_iff s.n).2 hsize]

theorem checkFault_nRange {i : Instr} {s : State} (hlane : i.lt.present s.params = true) (hsize : LegalSize s.n)
    (hrange : s.params.nmax < s.n.toNat) : checkFault i s = some (.nRange, s.n.setWidth 64) := by
  simp [checkFault, hlane, badSize_of_legalSize hsize, hrange]

section

variable {i : Instr} {s : State} (hlane : i.lt.present s.params = true) (hsize : LegalSize s.n)
  (hrange : s.n.toNat ≤ s.params.nmax)

include hlane hsize hrange

/-- Once the lane type and the size pass, the tests on BASE decide. -/
theorem checkFault_of_size : checkFault i s =
    if s.base.toNat % align i.lt ≠ 0 then some (.misaligned, s.base)
    else if 2 ^ s.params.aw < s.base.toNat + s.n.toNat * esize i.lt then some (.addrRange, s.base)
    else if meetsHole s.params s.base.toNat (s.base.toNat + s.n.toNat * esize i.lt) then some (.bus, s.base)
    else none := by
  simp only [checkFault, hlane, badSize_of_legalSize hsize, Nat.not_lt.2 hrange, Bool.true_eq_false, Bool.false_eq_true, if_false]

theorem checkFault_misaligned (halign : s.base.toNat % align i.lt ≠ 0) : checkFault i s = some (.misaligned, s.base) := by
  rw [checkFault_of_size hlane hsize hrange, if_pos halign]

theorem checkFault_addrRange (halign : s.base.toNat % align i.lt = 0)
    (hspace : 2 ^ s.params.aw < s.base.toNat + s.n.toNat * esize i.lt) : checkFault i s = some (.addrRange, s.base) := by
  rw [checkFault_of_size hlane hsize hrange, if_neg (not_not.2 halign), if_pos hspace]

theorem checkFault_bus (halign : s.base.toNat % align i.lt = 0)
    (hspace : s.base.toNat + s.n.toNat * esize i.lt ≤ 2 ^ s.params.aw)
    (hhole : ∃ a, InFootprint i.lt s a ∧ ¬ s.params.backed a) : checkFault i s = some (.bus, s.base) := by
  obtain ⟨a, ⟨hlo, hhi⟩, ha⟩ := hhole
  rw [checkFault_of_size hlane hsize hrange, if_neg (not_not.2 halign), if_neg (Nat.not_lt.2 hspace),
    if_pos ((meetsHole_iff _ _ _).2 ⟨a, hlo, hhi, ha⟩)]

end

/-! ## The obligations about faults -/

/-- Settles O10: a step that waits, or performs anything but a reset, keeps STATUS. -/
theorem onlyResetLeavesFaulted : Obligations.OnlyResetLeavesFaulted := by
  refine ⟨fun s t hf hstep ht => ?_, fun i s => exec_faulted i, fun r v s => hostWrite_faulted r v⟩
  rcases step_cases hstep with ⟨-, rfl⟩ | ⟨e, rest, hport, hp⟩
  · rw [hf] at ht
    cases ht
  · refine ⟨rest, ?_⟩
    by_contra! hne
    obtain ⟨hreset, hduring⟩ := hne
    obtain ⟨-, -, hstatus, -⟩ := perform_faulted (s := { s with port := rest }) hf hp
      (fun h => hreset (h ▸ hport)) (fun v h => hduring v (h ▸ hport))
    rw [faulted, hstatus] at ht
    exact Bool.noConfusion (ht.symm.trans hf)

/-- Settles O17: only the test on the lane type precedes that on the size. -/
theorem badSizeFaults : Obligations.BadSizeFaults := fun _ _ hf hlane hsize =>
  exec_checkFault hf (checkFault_badN hlane hsize)

/-- Settles O18: a legal size passes the test of BAD_N and comes to the one on `NMAX`. -/
theorem oversizeFaults : Obligations.OversizeFaults := fun _ _ hf hlane hsize hrange =>
  exec_checkFault hf (checkFault_nRange hlane hsize hrange)

/-- Settles O19: after the size, the tests on BASE come in the order of the three clauses. -/
theorem addressFaults : Obligations.AddressFaults := fun _ _ hf hlane hsize hrange =>
  ⟨fun halign => exec_checkFault hf (checkFault_misaligned hlane hsize hrange halign),
    fun halign hspace => exec_checkFault hf (checkFault_addrRange hlane hsize hrange halign hspace),
    fun halign hspace hhole => exec_checkFault hf (checkFault_bus hlane hsize hrange halign hspace hhole)⟩

/-- Settles O20: an accepted command keeps the host registers, and CHECK answers a cause for every other one. -/
theorem faultsArePrecise : Obligations.FaultsArePrecise := by
  intro i s hf
  refine ⟨fun h => ⟨_, exec_accepted h, h.commandFrame.status, h.commandFrame.finfo, hf⟩, fun h => ?_⟩
  have hfails : checkFault i s ≠ none := mt (checkFault_eq_none_iff i s hf).1 h
  obtain ⟨⟨c, x⟩, hc⟩ := Option.ne_none_iff_exists'.1 hfails
  refine ⟨c, x, exec_checkFault hf hc, faulted_raiseFault c x s, ?_⟩
  rw [raiseFault_status, statusCause_statusOf]
  exact causeCode_bounds c

end Sys2Proof.Machine
end

section
/-! Reset: the registers, PHASE and data memory after a reset event, and after a reset that abandons a command
(spec/70_reset_and_hazards.md R160, R161). -/

namespace Sys2Proof.Machine

/-- A command that does not run its passes has no byte of the footprint to abandon (60_exceptions.md R142). -/
theorem footprintLen_not_accepted {i : Instr} {s : State} (h : ¬ Accepts i.lt s) : footprintLen (encode i).toNat s = 0 := by
  rcases footprintLen_cases (encode i).toNat s with hlen | ⟨j, hj, hacc, -⟩
  · exact hlen
  · rw [decodeCommand_encode, Except.ok.injEq] at hj
    exact absurd (hj ▸ hacc) h

/-- The bytes that a reset abandons with a command lie in the command's footprint (70_reset_and_hazards.md R161). -/
theorem memByte_abandonCommand_outside {i : Instr} {s : State} (e : Nat) {a : Nat} (ha : ¬ InFootprint i.lt s a) :
    memByte (abandonBytes e s.mem s.base.toNat (footprintLen (encode i).toNat s)) a = memByte s.mem a := by
  by_cases hacc : Accepts i.lt s
  · rw [footprintLen_accepted hacc]
    exact memByte_abandonBytes_outside e s.mem _ _ (by omega)
  · rw [footprintLen_not_accepted hacc, abandonBytes]

/-- Settles O15: the step performs the reset, which sets the host registers and PHASE and leaves the other fields. -/
theorem resetEventEffect : Obligations.ResetEventEffect := by
  intro s rest hport
  exact ⟨resetEngine { s with port := rest }, step_of_cons hport, rfl, rfl, rfl, rfl, rfl, faulted_resetEngine _, rfl, rfl, rfl, rfl⟩

/-- Settles O16: the reset keeps the memory in which the command's footprint, empty unless its passes run, is abandoned. -/
theorem resetAbandonsCommand : Obligations.ResetAbandonsCommand := by
  intro s i
  refine ⟨_, rfl, rfl, rfl, rfl, rfl, rfl, fun a ha => ?_, fun hacc => ?_⟩
  · rw [resetEngine_mem]
    exact memByte_abandonCommand_outside s.epoch ha
  · rw [resetEngine_mem, footprintLen_not_accepted hacc, abandonBytes]

end Sys2Proof.Machine
end
